-- ==== Sys2Proof/Word.lean ====
section
/-! DEFINITION. The word of the cycle record and the sample types of the block.
Every data value is a mathematical integer (spec/00_scope.md R12): a sample part is an `Int`, and the width it must fit is
a parameter of the port or the stage that carries it. -/

namespace Sys2Proof

/-- The 16-bit cycle record word W (spec/30_encoding.md R110). -/
abbrev Word := BitVec 16

/-- A pair (re, im) of integers: one element of a stage's history (spec/10_state.md R45). -/
structure Iq where
  re : Int
  im : Int
  deriving DecidableEq, Repr, Inhabited

/-- A sample (re, im, last) of a stream queue (spec/10_state.md R42, R46). -/
structure Sample where
  re : Int
  im : Int
  last : Bool
  deriving DecidableEq, Repr, Inhabited

/-- The pair of a sample, without its last bit. -/
def Sample.iq (x : Sample) : Iq := ⟨x.re, x.im⟩

/-- A pair as a sample with the given last bit. -/
def Iq.sample (v : Iq) (last : Bool) : Sample := ⟨v.re, v.im, last⟩

end Sys2Proof
end

