-- ==== Sys2Proof/Syntax.lean ====
section
/-! DEFINITION. The records that drive the model and the operations of the block: one constructor of `Instr` for each row of
spec/opcode_table.json. -/

namespace Sys2Proof

/-- One cycle of the FIR block as its host drives it (spec/30_encoding.md R110 to R116, R127): the word W, the data fields of
the port bundles as bit patterns, and the two draws that are not bits of W. -/
structure CycleRecord where
  /-- W, with the port strobes and the draws take and offer. -/
  w : Word
  /-- The pattern on sink_re (IW_IN bits). -/
  sinkRe : Nat
  /-- The pattern on sink_im (IW_IN bits). -/
  sinkIm : Nat
  /-- The bit sink_last. -/
  sinkLast : Bool
  /-- The pattern on coef_addr (LEN_LOG2 bits). -/
  coefAddr : Nat
  /-- The pattern on coef_data (CW bits). -/
  coefData : Nat
  /-- The pattern on cfg_value (CFGV_W bits). -/
  cfgValue : Nat
  /-- The draw rready: sink ready in a reset cycle. -/
  rready : Bool
  /-- The draw olast: the last bit of an output a stage computes in this cycle. -/
  olast : Bool
  deriving DecidableEq, Repr, Inhabited

/-- The record of one clock cycle of one of the two machines: a cycle record of the FIR block, or a generator record E of the
CommonEdgeGenerator (spec/30_encoding.md R117). -/
inductive Record where
  | cycle (r : CycleRecord)
  | edge (common : Bool)
  deriving DecidableEq, Repr

/-- The configuration fields (spec/30_encoding.md R122). -/
inductive CfgField where
  | dec | opsm1 | odd | trunc | bypass | firEnable
  deriving DecidableEq, Repr

/-- The operations of the block, one constructor for each row of spec/opcode_table.json, with the operands the row's rule
gives it. A stage operand of a configuration write is the 2-bit code on the port; a stage operand of an internal row is the
index i of the stage the take has reached. -/
inductive Instr where
  /-- RESET, R361: a cycle with the external reset asserted; rready is the draw on sink ready. -/
  | reset (rready : Bool)
  /-- SINK_XFER, R252: the producer transfers one sample, given as the patterns on its fields. -/
  | sinkXfer (re im : Nat) (last : Bool)
  /-- SINK_STALL, R253: the producer offers a sample and the block is not ready. -/
  | sinkStall
  /-- SRC_XFER, R259: the consumer takes the offered output. -/
  | srcXfer
  /-- SRC_STALL, R260: output valid is high and the consumer is not ready. -/
  | srcStall
  /-- PATH_TAKE, R256: the path takes the oldest buffered sample; olast is the draw of R226. -/
  | pathTake (olast : Bool)
  /-- SRC_OFFER, R258: the block raises output valid for the oldest pending output. -/
  | srcOffer
  /-- COEF_WRITE, R297: write one coefficient cell. -/
  | coefWrite (addr data : Nat)
  /-- CFG_DECIMATION, R292. -/
  | cfgDecimation (stage : BitVec 2) (value : Nat)
  /-- CFG_OPS_M1, R295. -/
  | cfgOpsM1 (stage : BitVec 2) (value : Nat)
  /-- CFG_ODD_OPS, R301. -/
  | cfgOddOps (stage : BitVec 2) (value : Nat)
  /-- CFG_MACC_TRUNC, R294. -/
  | cfgMaccTrunc (stage : BitVec 2) (value : Nat)
  /-- CFG_BYPASS, R303. -/
  | cfgBypass (stage : BitVec 2) (value : Nat)
  /-- CFG_FIR_ENABLE, R296; the stage code is on the port and ignored. -/
  | cfgFirEnable (stage : BitVec 2) (value : Nat)
  /-- CFG_RESERVED, R299: a configuration write with field code 6 or 7. -/
  | cfgReserved (code : BitVec 3) (stage : BitVec 2) (value : Nat)
  /-- STATUS_READ, R302: the control plane samples the status output. -/
  | statusRead
  /-- DISABLED_PASS, R223, internal to a take: the FIR block is disabled. -/
  | disabledPass
  /-- STAGE_BYPASS, R224, internal to a take: stage i is bypassed. -/
  | stageBypass (i : Nat)
  /-- STAGE_CONSUME, R184, internal to a take: stage i receives one input sample. -/
  | stageConsume (i : Nat) (olast : Bool)
  /-- FIR_OUTPUT, R186, internal to a take: stage i computes one output. -/
  | firOutput (i : Nat) (olast : Bool)
  /-- CEG_FAST_EDGE, R152: a fast edge that is no slow edge. -/
  | cegFastEdge
  /-- CEG_COMMON_EDGE, R153: a fast edge that is a slow edge. -/
  | cegCommonEdge
  deriving DecidableEq, Repr

end Sys2Proof
end

