-- ==== Sys2Proof/Decode.lean ====
section
/-! DEFINITION. The decoder of a cycle record and of a generator record, from the opcode map of spec/30_encoding.md R123,
and the encoder of one operation, from the same map. A cycle record selects every row whose match and mask select its word
(R111), so the decoder answers a list of operations, in the order in which spec/44_stream_controller.md R250 uses them. -/

namespace Sys2Proof

/-! The fields of the word W (R110). -/

def Word.rst (w : Word) : Bool := w.getLsbD 0
def Word.sinkValid (w : Word) : Bool := w.getLsbD 1
def Word.sinkReady (w : Word) : Bool := w.getLsbD 2
def Word.srcValid (w : Word) : Bool := w.getLsbD 3
def Word.srcReady (w : Word) : Bool := w.getLsbD 4
def Word.coefWe (w : Word) : Bool := w.getLsbD 5
def Word.cfgWe (w : Word) : Bool := w.getLsbD 6
def Word.cfgField (w : Word) : BitVec 3 := w.extractLsb' 7 3
def Word.cfgStage (w : Word) : BitVec 2 := w.extractLsb' 10 2
def Word.stsRd (w : Word) : Bool := w.getLsbD 12
def Word.take (w : Word) : Bool := w.getLsbD 13
def Word.offer (w : Word) : Bool := w.getLsbD 14
def Word.reserved (w : Word) : Bool := w.getLsbD 15

/-- W with its output bits 2 (`sink_ready`) and 3 (`src_valid`) as the block drives them (R110). -/
def Word.withOutputs (w : Word) (sinkReady srcValid : Bool) : Word :=
  (w &&& 0xFFF3#16) ||| (if sinkReady then 0x0004#16 else 0#16) ||| (if srcValid then 0x0008#16 else 0#16)

/-- A cycle record in which every line is low: the empty cycle (R111). -/
def CycleRecord.empty : CycleRecord :=
  { w := 0, sinkRe := 0, sinkIm := 0, sinkLast := false, coefAddr := 0, coefData := 0, cfgValue := 0,
    rready := false, olast := false }

/-- The cycle record with the word w and every data field 0. -/
def CycleRecord.ofWord (w : Word) : CycleRecord := { CycleRecord.empty with w := w }

/-- A row of the opcode map that bits of W select: it applies when `W & mask = match` (R123). -/
structure OpcodeRow where
  pattern : Word
  mask : Word
  operation : CycleRecord → Instr

/-- The row applies to the word (R123). -/
def OpcodeRow.selects (row : OpcodeRow) (w : Word) : Bool := w &&& row.mask == row.pattern

/-- The sixteen rows of the opcode map with bits of their own (R123), in the order of R250: reset, the control plane's
writes, the status read, the transfer out, the take, the transfer in, the offer. The four internal rows have no bits of
their own: the path's state selects them within PATH_TAKE. -/
def opcodeMap : List OpcodeRow :=
  [⟨0x0001, 0x0001, fun r => .reset r.rready⟩,
   ⟨0x0040, 0x03C0, fun r => .cfgDecimation (Word.cfgStage r.w) r.cfgValue⟩,
   ⟨0x00C0, 0x03C0, fun r => .cfgOpsM1 (Word.cfgStage r.w) r.cfgValue⟩,
   ⟨0x0140, 0x03C0, fun r => .cfgOddOps (Word.cfgStage r.w) r.cfgValue⟩,
   ⟨0x01C0, 0x03C0, fun r => .cfgMaccTrunc (Word.cfgStage r.w) r.cfgValue⟩,
   ⟨0x0240, 0x03C0, fun r => .cfgBypass (Word.cfgStage r.w) r.cfgValue⟩,
   ⟨0x02C0, 0x03C0, fun r => .cfgFirEnable (Word.cfgStage r.w) r.cfgValue⟩,
   ⟨0x0340, 0x0340, fun r => .cfgReserved (Word.cfgField r.w) (Word.cfgStage r.w) r.cfgValue⟩,
   ⟨0x0020, 0x0020, fun r => .coefWrite r.coefAddr r.coefData⟩,
   ⟨0x1000, 0x1000, fun _ => .statusRead⟩,
   ⟨0x0018, 0x0019, fun _ => .srcXfer⟩,
   ⟨0x0008, 0x0019, fun _ => .srcStall⟩,
   ⟨0x2000, 0x2001, fun r => .pathTake r.olast⟩,
   ⟨0x0006, 0x0007, fun r => .sinkXfer r.sinkRe r.sinkIm r.sinkLast⟩,
   ⟨0x0002, 0x0007, fun _ => .sinkStall⟩,
   ⟨0x4000, 0x4001, fun _ => .srcOffer⟩]

/-- Why a cycle record spells no cycle. -/
inductive DecodeError where
  /-- Bit 15 of W is set (R124). -/
  | reservedBit15
  deriving DecidableEq, Repr

/-- The operations that a cycle record selects, with the output bits of its word as they stand in it (R111, R123); a record
with bit 15 set is refused (R124). -/
def decode (r : CycleRecord) : Except DecodeError (List Instr) :=
  if Word.reserved r.w then .error .reservedBit15
  else .ok (opcodeMap.filterMap fun row => if row.selects r.w then some (row.operation r) else none)

/-- The operation that a generator record E selects (R117, R123). -/
def decodeEdge (common : Bool) : Instr := if common then .cegCommonEdge else .cegFastEdge

/-- The operations that a record selects. -/
def decodeRecord : Record → Except DecodeError (List Instr)
  | .cycle r => decode r
  | .edge common => .ok [decodeEdge common]

/-! The encoder. -/

/-- The word of a configuration write: cfg_we, the field code and the stage code (R110). -/
def cfgWord (code : BitVec 3) (stage : BitVec 2) : Word :=
  0x0040#16 ||| (code.setWidth 16 <<< 7) ||| (stage.setWidth 16 <<< 10)

/-- The record of a configuration write. -/
def cfgRecord (code : BitVec 3) (stage : BitVec 2) (value : Nat) : Record :=
  .cycle { CycleRecord.empty with w := cfgWord code stage, cfgValue := value }

/-- The record of a cycle (or a fast cycle) in which one operation happens and every other line is low (R110, R117, R123).
An internal row has no bits of its own (R123): its record is the take's, in which the path's state selects it. -/
def encode : Instr → Record
  | .reset rready => .cycle { CycleRecord.empty with w := 0x0001, rready := rready }
  | .sinkXfer re im last =>
    .cycle { CycleRecord.empty with w := 0x0006, sinkRe := re, sinkIm := im, sinkLast := last }
  | .sinkStall => .cycle (CycleRecord.ofWord 0x0002)
  | .srcXfer => .cycle (CycleRecord.ofWord 0x0018)
  | .srcStall => .cycle (CycleRecord.ofWord 0x0008)
  | .pathTake olast => .cycle { CycleRecord.empty with w := 0x2000, olast := olast }
  | .srcOffer => .cycle (CycleRecord.ofWord 0x4000)
  | .coefWrite addr data => .cycle { CycleRecord.empty with w := 0x0020, coefAddr := addr, coefData := data }
  | .cfgDecimation stage v => cfgRecord 0 stage v
  | .cfgOpsM1 stage v => cfgRecord 1 stage v
  | .cfgOddOps stage v => cfgRecord 2 stage v
  | .cfgMaccTrunc stage v => cfgRecord 3 stage v
  | .cfgBypass stage v => cfgRecord 4 stage v
  | .cfgFirEnable stage v => cfgRecord 5 stage v
  | .cfgReserved code stage v => cfgRecord code stage v
  | .statusRead => .cycle (CycleRecord.ofWord 0x1000)
  | .disabledPass => .cycle (CycleRecord.ofWord 0x2000)
  | .stageBypass _ => .cycle (CycleRecord.ofWord 0x2000)
  | .stageConsume _ olast => .cycle { CycleRecord.empty with w := 0x2000, olast := olast }
  | .firOutput _ olast => .cycle { CycleRecord.empty with w := 0x2000, olast := olast }
  | .cegFastEdge => .edge false
  | .cegCommonEdge => .edge true

/-- A row with no bits of its own: selected by the path's state within a take (R123). -/
def Instr.isInternal : Instr → Bool
  | .disabledPass => true
  | .stageBypass _ => true
  | .stageConsume _ _ => true
  | .firOutput _ _ => true
  | .reset _ | .sinkXfer _ _ _ | .sinkStall | .srcXfer | .srcStall | .pathTake _ | .srcOffer | .coefWrite _ _ => false
  | .cfgDecimation _ _ | .cfgOpsM1 _ _ | .cfgOddOps _ _ | .cfgMaccTrunc _ _ | .cfgBypass _ _ | .cfgFirEnable _ _ => false
  | .cfgReserved _ _ _ | .statusRead | .cegFastEdge | .cegCommonEdge => false

/-! The words of spec/opcode_table.json. -/

/-- The record that a word of the opcode table stands for, every data field 0: a row of 16 bits is a cycle record word; a
shorter row is a generator record, whose one bit is bit 0 of its byte (log entry 12). -/
def recordOfTableWord (nbits w : Nat) : Record :=
  if nbits < 16 then .edge (w.testBit 0) else .cycle (CycleRecord.ofWord (BitVec.ofNat 16 w))

/-- The operation the decoder reads from a word of the opcode table: the first one, where the word selects several
(log entry 27). -/
def decodeTableWord (nbits w : Nat) : Option Instr :=
  match decodeRecord (recordOfTableWord nbits w) with
  | .ok ops => ops.head?
  | .error _ => none

end Sys2Proof
end

