-- ==== Sys2Proof/Config.lean ====
section
/-! DEFINITION. The elaboration-time parameters (spec/00_scope.md R9), their well-formedness (R10), the parameter set of the
spec's test vectors, and the one free constant of the model, the coefficient layout (spec/45_control_plane.md R300). -/

namespace Sys2Proof

/-- The parameters of one FIR stage: IW[i], OW[i] and COEF_BASE[i] (spec/00_scope.md R9). -/
structure StageParams where
  inWidth : Nat
  outWidth : Nat
  coefBase : Nat
  deriving DecidableEq, Repr, Inhabited

/-- The elaboration-time parameters of spec/00_scope.md R9. `stages` lists the S stages in order; `accWidth = none` is the
spec's `ACC_W = INF`. None may change while the block runs. -/
structure Params where
  stages : List StageParams
  coefWidth : Nat
  lenLog2 : Nat
  decWidth : Nat
  opsWidth : Nat
  truncWidth : Nat
  accWidth : Option Nat
  inDepth : Nat
  pathCap : Nat
  ratio : Nat
  deriving DecidableEq, Repr, Inhabited

namespace Params

/-- S, the number of FIR stages. -/
def numStages (p : Params) : Nat := p.stages.length

/-- The parameters of stage i. -/
def stage (p : Params) (i : Nat) : StageParams := p.stages.getD i default

/-- IW[i]. -/
def inWidth (p : Params) (i : Nat) : Nat := (p.stage i).inWidth

/-- OW[i]. -/
def outWidth (p : Params) (i : Nat) : Nat := (p.stage i).outWidth

/-- COEF_BASE[i]. -/
def coefBase (p : Params) (i : Nat) : Nat := (p.stage i).coefBase

/-- IW_IN, the block's input width (spec/00_scope.md R11). -/
def sinkWidth (p : Params) : Nat := p.inWidth 0

/-- OW_OUT, the block's output width (spec/00_scope.md R11). -/
def sourceWidth (p : Params) : Nat := p.outWidth (p.numStages - 1)

/-- CFGV_W, the width of the configuration write port's value (spec/30_encoding.md R115). -/
def cfgValueWidth (p : Params) : Nat := max p.decWidth (max p.opsWidth p.truncWidth)

/-- The number of coefficient cells. -/
def numCells (p : Params) : Nat := 2 ^ p.lenLog2

end Params

/-- The checks of spec/00_scope.md R10 by name (and R9's `COEF_BASE[0] = 0` when S = 1, log entry 19). A check of one stage
says which. -/
inductive ParamError where
  | stageCount
  | inputWidth (i : Nat)
  | outputWidth (i : Nat)
  | coefficientWidth
  | junctionNarrows (i : Nat)
  | coefBaseOutside (i : Nat)
  | coefBaseNotZero
  | decimationFieldWidth
  | operationsFieldWidth
  | truncationFieldWidth
  | accumulatorWidth
  | inputDepth
  | pathCapacity
  | clockRatio
  deriving DecidableEq, Repr

namespace Params

/-- The checks of one stage, in order, each with the error it names. -/
def stageChecks (p : Params) (i : Nat) : List (Bool × ParamError) :=
  [(decide (2 ≤ p.inWidth i), .inputWidth i),
   (decide (2 ≤ p.outWidth i), .outputWidth i),
   (decide (i + 1 < p.numStages → p.outWidth i ≤ p.inWidth (i + 1)), .junctionNarrows i),
   (decide (p.coefBase i < p.numCells), .coefBaseOutside i)]

/-- Every elaboration check of spec/00_scope.md R10, each with the error it names. `LEN_LOG2 >= 0` and `N` integer hold of
every natural number. R10 gives the checks no order: this one is the model's (DESIGN CHOICE, log entry 33). -/
def checks (p : Params) : List (Bool × ParamError) :=
  [(decide (p.numStages = 1 ∨ p.numStages = 3), .stageCount),
   (decide (2 ≤ p.coefWidth), .coefficientWidth),
   (decide (1 ≤ p.decWidth), .decimationFieldWidth),
   (decide (1 ≤ p.opsWidth), .operationsFieldWidth),
   (decide (1 ≤ p.truncWidth), .truncationFieldWidth),
   (decide (∀ a ∈ p.accWidth, 2 ≤ a), .accumulatorWidth),
   (decide (1 ≤ p.inDepth), .inputDepth),
   (decide (1 ≤ p.pathCap), .pathCapacity),
   (decide (1 ≤ p.ratio), .clockRatio),
   (decide (p.numStages = 1 → p.coefBase 0 = 0), .coefBaseNotZero)]
  ++ (List.range p.numStages).flatMap p.stageChecks

/-- The first elaboration check that a parameter set fails, if any (spec/00_scope.md R10: "naming the failed check"). Which one
is named where several fail is the model's choice (DESIGN CHOICE, log entry 33). -/
def failedCheck (p : Params) : Option ParamError :=
  (p.checks.find? (fun c => !c.1)).map Prod.snd

/-- A well-formed parameter set (spec/00_scope.md R10). -/
abbrev WellFormed (p : Params) : Prop := p.failedCheck = none

/-- The parameter set P0 of spec/95_test_vectors.md section 0, with N = 3 as in its vector V-CEG-1 (log entry 1). -/
def p0 : Params where
  stages := [⟨16, 16, 0⟩]
  coefWidth := 18
  lenLog2 := 4
  decWidth := 4
  opsWidth := 3
  truncWidth := 4
  accWidth := none
  inDepth := 2
  pathCap := 2
  ratio := 3

end Params

/-- What the external coefficient-layout procedure returns (spec/45_control_plane.md R300): the realized tap length, the
unmodified taps, and the hardware-ordered coefficient sequence. -/
structure Layout where
  tapLength : Nat
  taps : List Int
  ordered : List Int
  deriving DecidableEq, Repr, Inhabited

/-- The OPEN parameter LAYOUT (spec/45_control_plane.md R300, spec/92_eei_decisions.md D39): the external procedure, a black
box of which nothing is known. R300 gives it a target tap count, a target operation count, the decimation factor, the
odd-operations flag and the memory capacity, and has it return the taps. The model gives it the list of taps, whose length is
the tap count, in place of the count (DESIGN CHOICE, log entry 21). -/
opaque Config.layout (taps : List Int) (operations decimation : Nat) (odd : Bool) (capacity : Nat) : Layout

end Sys2Proof
end

