-- ==== Sys2Proof/Machine/State.lean ====
section
/-! DEFINITION. The state of the machine, the reasons a step can stop, and the state after reset. -/

namespace Sys2Proof.Machine

/-- The faults of spec/60_exceptions.md R331, each with the information it records. They are data of the state (R50, R330),
not outcomes of a step: raising one is a next state with the fault recorded. -/
inductive FaultKind where
  /-- Code 1: a cycle with reset deasserted before the first reset cycle; the cycle. -/
  | notReset (cycle : Nat)
  /-- Code 2: a take reads a stage field that holds ⊥; the stage and the field. -/
  | readUnwrittenConfig (stage : Nat) (field : CfgField)
  /-- Code 3: an output computation reads a coefficient cell that holds ⊥; the address. -/
  | readUnwrittenCoef (addr : Nat)
  /-- Code 4: a stage with dec = 0 consumes a sample; the stage. -/
  | zeroDecimation (stage : Nat)
  /-- Code 5: a stage's read range passes the end of the memory; the stage and the end address. -/
  | coefRangeExceedsMemory (stage endAddr : Nat)
  /-- Code 6: a sample reaches a bypassed stage narrower than its input; the stage, IW[i] and OW[i]. -/
  | bypassNarrowing (stage inWidth outWidth : Nat)
  /-- Code 7: a take of the disabled block with OW_OUT < IW_IN; both widths. -/
  | disabledNarrowing (inWidth outWidth : Nat)
  /-- Code 8: an accumulator's bound exceeds the ACC_W-bit range; the stage and the output index. -/
  | accOverflow (stage output : Nat)
  /-- Code 9: a structural write after the first take or in the cycle of a take; the field, and the stage of a per-stage
  field (log entry 16). -/
  | structuralWriteInFlight (field : CfgField) (stage : Option Nat)
  /-- Code 10: a coefficient write into an active stage's read range in a cycle that is not idle; the address. -/
  | coefWriteInFlight (addr : Nat)
  /-- Code 11: a macc_trunc write to an active stage in a cycle that is not idle; the stage. -/
  | truncWriteInFlight (stage : Nat)
  /-- Code 12: a configuration write with field code 6 or 7; the code. -/
  | reservedConfigField (code : Nat)
  /-- Code 13: a per-stage configuration write with cfg_stage >= S; the stage code. -/
  | configStageOutOfRange (stage : Nat)
  /-- Code 14: a configuration write whose value does not fit the field; the field and the value. -/
  | configValueOutOfRange (field : CfgField) (value : Nat)
  deriving DecidableEq, Repr

/-- A record of the fault set: the fault with its information, and the cycle that raised it (spec/60_exceptions.md R330). -/
structure FaultRec where
  kind : FaultKind
  cycle : Nat
  deriving DecidableEq, Repr

/-- The configuration of one stage (spec/10_state.md R32 to R38); `none` is the spec's ⊥ (spec/00_scope.md R16). -/
structure StageCfg where
  dec : Option Nat
  opsm1 : Option Nat
  odd : Option Bool
  trunc : Option Nat
  bypass : Option Bool
  deriving DecidableEq, Repr

/-- A stage nothing has configured: every field ⊥ (spec/10_state.md R54). -/
def StageCfg.unwritten : StageCfg := ⟨none, none, none, none, none⟩

/-- The stream state of one stage (spec/10_state.md R45): its inputs since reset, oldest first, and the inputs of its current
group. -/
structure StageSt where
  hist : List Iq
  phase : Nat
  deriving DecidableEq, Repr

/-- A stage after a reset: empty history, phase 0 (spec/10_state.md R45). -/
def StageSt.start : StageSt := ⟨[], 0⟩

/-- The coefficient memory (spec/10_state.md R41): the written cells, (address, coefficient), in canonical form (see
`Memory.wf`); a cell that is not listed holds ⊥ (log entry 15). -/
abbrev Memory := List (Nat × Int)

/-- The canonical form of the memory: addresses strictly rising. No entry can equal what an unlisted cell reads as, since
that is ⊥ and an entry is an integer. -/
abbrev Memory.wf (m : Memory) : Prop := m.Pairwise fun a b => a.1 < b.1

/-- The FIR block state σ (spec/10_state.md R32): exactly these fields. `cfg` and `st` list the S stages in order. -/
structure Fir where
  unreset : Bool
  faults : List FaultRec
  firEnable : Bool
  cfg : List StageCfg
  mem : Memory
  inbuf : List Sample
  prevReady : Bool
  ovf : Bool
  st : List StageSt
  pending : List Sample
  offered : Bool
  fresh : Bool
  deriving DecidableEq, Repr

/-- The CommonEdgeGenerator state γ (spec/10_state.md R52): the toggle bit, the re-sampled bit, the shift register
sr[0] .. sr[N-1]. -/
structure Ceg where
  t : Bool
  tq : Bool
  sr : List Bool
  deriving DecidableEq, Repr

/-- The patterns the block drives on src_re, src_im and src_last (spec/30_encoding.md R113). -/
structure SourceData where
  re : Nat
  im : Nat
  last : Bool
  deriving DecidableEq, Repr

/-- What the block drove in the cycle last run (spec/44_stream_controller.md R250, R251, R257; spec/45_control_plane.md R302),
`none` where the spec gives no value, and what R386 observes of the cycle: the sample a SRC_XFER handed to the consumer and
the value a STATUS_READ sampled. The model's own field (log entry 10). -/
structure Ports where
  sinkReady : Option Bool
  srcValid : Option Bool
  src : Option SourceData
  ovf : Option Bool
  delivered : Option SourceData
  status : Option Bool
  deriving DecidableEq, Repr

/-- Ports of which nothing is known. -/
def Ports.silent : Ports := ⟨none, none, none, none, none, none⟩

/-- The state of the machine. The spec's own state is `fir` (σ) and `ceg` (γ); `par` holds the elaboration parameters. The
others are the model's: the records still to run, the numbers of the next cycle and fast cycle, and the cycle in progress
(its word W, σ' under construction, the sample on the path, the faults raised), which between two steps is `w = 0`,
`nxt = fir`, `path = []` and `raised = []` (log entry 8). -/
structure State where
  par : Params
  records : List Record
  cycle : Nat
  fast : Nat
  fir : Fir
  w : Word
  nxt : Fir
  path : List Sample
  raised : List FaultRec
  ports : Ports
  ceg : Ceg
  deriving DecidableEq, Repr

/-- The machine stops: the one outcome `fault` of a step. The fourteen fault codes of spec/60_exceptions.md R331 are no
outcomes of this type; they are recorded in `Fir.faults` (R330). -/
inductive Fault where
  /-- A cycle record is presented to a FIR block whose fault set is not empty: it has no next state, reset included
  (spec/60_exceptions.md R332 (b)). Raised by the step only. Safe: no claim about a later state can be proved. -/
  | faulted
  deriving DecidableEq, Repr

/-- The step gives no meaning. -/
inductive Refusal where
  /-- An instruction whose arm has no meaning yet. Raised by no arm of this model. Safe. -/
  | notModelled (mnemonic : String)
  /-- The parameter set fails an elaboration check: there is no machine (spec/00_scope.md R10, spec/60_exceptions.md R334).
  Raised by the step. Safe. -/
  | elaboration (check : ParamError)
  /-- The word of the cycle record has bit 15 set: it spells no cycle; the number of the cycle (spec/30_encoding.md R124).
  Raised by the step. Safe. -/
  | reservedBit15 (cycle : Nat)
  /-- A generator record says common edge in a fast cycle whose number N does not divide, or the reverse: a clock pair that the
  spec does not describe and the model does not admit (spec/41_common_edge_generator.md R151,
  spec/70_reset_and_hazards.md R385); the number of the fast cycle. Raised by the step. Safe. -/
  | clockRatio (fast : Nat)
  /-- No record is queued: the run has ended (spec/70_reset_and_hazards.md R386; log entry 5). Raised by the step. Safe. -/
  | noRecord
  deriving DecidableEq, Repr

/-- The FIR block after a reset cycle that follows power-on, with no write in it (spec/10_state.md R54). -/
def Fir.afterReset (p : Params) : Fir where
  unreset := false
  faults := []
  firEnable := false
  cfg := List.replicate p.numStages StageCfg.unwritten
  mem := []
  inbuf := []
  prevReady := false
  ovf := false
  st := List.replicate p.numStages StageSt.start
  pending := []
  offered := false
  fresh := true

/-- The FIR block at power-on (spec/10_state.md R54): the unspecified stream state is that of `stream`, any value
(log entry 4). -/
def Fir.powerOn (p : Params) (stream : Fir) : Fir :=
  { stream with
    unreset := true
    faults := []
    firEnable := false
    cfg := List.replicate p.numStages StageCfg.unwritten
    mem := [] }

/-- The machine with the FIR block f and the generator g, between two cycles, before cycle number `cycle` and fast cycle 0. -/
def State.idleWith (p : Params) (f : Fir) (g : Ceg) (cycle : Nat) (ports : Ports) : State where
  par := p
  records := []
  cycle := cycle
  fast := 0
  fir := f
  w := 0
  nxt := f
  path := []
  raised := []
  ports := ports
  ceg := g

/-- The machine at power-on: before cycle 0, the stream state and the generator's bits any values (spec/10_state.md R52, R54). -/
def State.powerOn (p : Params) (stream : Fir) (g : Ceg) : State :=
  State.idleWith p (Fir.powerOn p stream) g 0 Ports.silent

/-- What the block drives in a reset cycle whose drawn ready is `rready` (spec/70_reset_and_hazards.md R361). -/
def Ports.inReset (rready : Bool) : Ports := ⟨some rready, some false, none, some false, none, none⟩

/-- The machine right after the reset cycle 0 of R365, with the parameter set P0 (log entry 1), the draw rready = 0 and every
power-on bit of the generator 0 (log entries 2 and 3). -/
def State.reset : State :=
  State.idleWith Params.p0 (Fir.afterReset Params.p0) ⟨false, false, List.replicate Params.p0.ratio false⟩ 1
    (Ports.inReset false)

end Sys2Proof.Machine
end

