-- ==== Sys2Proof/Machine/Flags.lean ====
section
/-! DEFINITION. The status of the block: sink ready, the enabling conditions of a take, idleness, and the OverflowFlag, the
block's only flag (spec/10_state.md R44). Saturation sets no flag (spec/42_fir_arithmetic.md R195). -/

namespace Sys2Proof.Machine

/-- Sink ready with reset deasserted: the input buffer is not full at the start of the cycle (spec/44_stream_controller.md R251). -/
def sinkReady (p : Params) (f : Fir) : Bool := decide (f.inbuf.length < p.inDepth)

/-- A take is enabled (spec/44_stream_controller.md R255). -/
def takeEnabled (p : Params) (f : Fir) : Bool := decide (1 ≤ f.inbuf.length ∧ f.pending.length < p.pathCap)

/-- The path holds nothing pending and no partly received group; with no take in the cycle, the cycle is idle
(spec/10_state.md R48). -/
def pathEmpty (f : Fir) : Bool := f.pending.isEmpty && f.st.all fun st => st.phase == 0

/-- The OverflowFlag at the end of a cycle with reset deasserted: set when ready fell (spec/44_stream_controller.md R262). -/
def ovfNext (p : Params) (f : Fir) : Bool := f.ovf || (f.prevReady && !sinkReady p f)

/-- prev_ready at the end of a cycle with reset deasserted (spec/44_stream_controller.md R263). -/
def prevReadyNext (p : Params) (f : Fir) : Bool := sinkReady p f

/-- σ with the always-on part of a cycle with reset deasserted: the overflow detection (spec/44_stream_controller.md R250). -/
def withOverflowDetection (p : Params) (f : Fir) : Fir := { f with ovf := ovfNext p f, prevReady := prevReadyNext p f }

end Sys2Proof.Machine
end

