-- ==== Sys2Proof/Machine/Operands.lean ====
section
/-! DEFINITION. The arithmetic primitives of spec/00_scope.md R14, operand assembly (spec/30_encoding.md R118 to R122) and the
quantities that a stage's configuration gives (spec/42_fir_arithmetic.md R181). -/

namespace Sys2Proof.Machine

/-! Widths and patterns (R12, R118). -/

/-- `sext_w(p)`: the two's-complement value of the low w bits of the pattern p. -/
def sext (w p : Nat) : Int := (BitVec.ofNat w p).toInt

/-- `zext_w(p)`: the unsigned value of the low w bits of the pattern p. -/
def zext (w p : Nat) : Nat := p % 2 ^ w

/-- The w-bit two's-complement pattern of the value v (R118). -/
def pattern (w : Nat) (v : Int) : Nat := (BitVec.ofInt w v).toNat

/-- v is a w-bit signed value (R12). -/
abbrev IsSigned (w : Nat) (v : Int) : Prop := -((2 ^ (w - 1) : Nat) : Int) ≤ v ∧ v ≤ ((2 ^ (w - 1) : Nat) : Int) - 1

/-! Arithmetic primitives (R14). -/

/-- `asr(v, t) = floor(v / 2^t)`. -/
def asr (v : Int) (t : Nat) : Int := v.fdiv ((2 ^ t : Nat) : Int)

/-- `clamp_w(v)`, the saturating clamp to the w-bit signed range. -/
def clamp (w : Nat) (v : Int) : Int := min (max v (-((2 ^ (w - 1) : Nat) : Int))) (((2 ^ (w - 1) : Nat) : Int) - 1)

/-- `bias(t)`, the rounding bias. -/
def bias (t : Nat) : Int := if 1 ≤ t then ((2 ^ (t - 1) : Nat) : Int) else 0

/-! Operands of the ports. -/

/-- The sample that the patterns on the sink carry (R118). -/
def sinkSample (p : Params) (re im : Nat) (last : Bool) : Sample := ⟨sext p.sinkWidth re, sext p.sinkWidth im, last⟩

/-- The cell address on the coefficient port (R119). -/
def coefAddress (p : Params) (addr : Nat) : Nat := zext p.lenLog2 addr

/-- The coefficient on the coefficient port (R119). -/
def coefValue (p : Params) (data : Nat) : Int := sext p.coefWidth data

/-- The values a configuration field can hold (R120). The value written is the unsigned value of the pattern on cfg_value,
which the model does not cut to the port's CFGV_W bits, so a value that no field holds is a fault and never wraps
(log entry 28). -/
def cfgBound (p : Params) : CfgField → Nat
  | .dec => 2 ^ p.decWidth
  | .opsm1 => 2 ^ p.opsWidth
  | .odd => 2
  | .trunc => 2 ^ p.truncWidth
  | .bypass => 2
  | .firEnable => 2

/-- The value fits the field (R120). -/
abbrev CfgFits (p : Params) (field : CfgField) (v : Nat) : Prop := v < cfgBound p field

/-- What the block drives on the source for the sample x (R113, R118). -/
def sourceData (p : Params) (x : Sample) : SourceData := ⟨pattern p.sourceWidth x.re, pattern p.sourceWidth x.im, x.last⟩

/-! A stage's state and the quantities of its configuration. -/

/-- The configuration of stage i. -/
def cfgOf (f : Fir) (i : Nat) : StageCfg := f.cfg.getD i StageCfg.unwritten

/-- The stream state of stage i. -/
def stOf (f : Fir) (i : Nat) : StageSt := f.st.getD i StageSt.start

/-- `K = 2 * U - odd` with `U = opsm1 + 1` (R181). -/
def rowCount (opsm1 : Nat) (odd : Bool) : Nat := 2 * (opsm1 + 1) - odd.toNat

/-- D and K of a stage. -/
structure Shape where
  dec : Nat
  rows : Nat
  deriving DecidableEq, Repr

/-- `NC = K * D`, the number of coefficients a stage reads (R181). -/
def Shape.cells (h : Shape) : Nat := h.rows * h.dec

/-- D and K of stage i from its configuration; reading an unwritten field is the fault of R183, in its order dec, opsm1, odd. -/
def shapeOf (f : Fir) (i : Nat) : Except FaultKind Shape :=
  match (cfgOf f i).dec with
  | none => .error (.readUnwrittenConfig i .dec)
  | some d =>
    match (cfgOf f i).opsm1 with
    | none => .error (.readUnwrittenConfig i .opsm1)
    | some u =>
      match (cfgOf f i).odd with
      | none => .error (.readUnwrittenConfig i .odd)
      | some o => .ok ⟨d, rowCount u o⟩

/-- `stage_active(σ, i)` (spec/45_control_plane.md R294): a stage whose bypass is ⊥ counts as active. -/
def stageActive (f : Fir) (i : Nat) : Bool := f.firEnable && (cfgOf f i).bypass != some true

/-- The address a lies in the read range of stage i (spec/45_control_plane.md R298): every address, when a field that gives
the range is unwritten. -/
def inReadRange (p : Params) (f : Fir) (i a : Nat) : Bool :=
  match shapeOf f i with
  | .ok h => decide (p.coefBase i ≤ a ∧ a < p.coefBase i + h.cells)
  | .error _ => true

end Sys2Proof.Machine
end

