-- ==== Sys2Proof/Machine/Ops.lean ====
section
/-! DEFINITION. The named operations over the coefficient memory, the configuration, the stage states and the cycle in
progress; raising a fault and closing a cycle that raised one (spec/60_exceptions.md R330, R332). -/

namespace Sys2Proof.Machine

/-! The coefficient memory. -/

/-- What an unlisted cell reads as: ⊥ (spec/10_state.md R41, R54). -/
def unlistedCell : Option Int := none

/-- The content of cell a. -/
def memRead : Memory → Nat → Option Int
  | [], _ => unlistedCell
  | (b, v) :: m, a => if a = b then some v else memRead m a

/-- The memory with v in cell a, in canonical form. -/
def memWrite : Memory → Nat → Int → Memory
  | [], a, v => [(a, v)]
  | (b, u) :: m, a, v =>
    if a < b then (a, v) :: (b, u) :: m
    else if a = b then (a, v) :: m
    else (b, u) :: memWrite m a v

/-- `CoefRead(a)` (spec/00_scope.md R17): an unwritten cell is the fault ReadUnwrittenCoef. No rule reads an address outside
the memory (spec/42_fir_arithmetic.md R183). -/
def coefRead (m : Memory) (a : Nat) : Except FaultKind Int :=
  match memRead m a with
  | some v => .ok v
  | none => .error (.readUnwrittenCoef a)

/-! Updates of the FIR block state. -/

/-- The field of a stage's configuration with the value v. -/
def StageCfg.write (c : StageCfg) (field : CfgField) (v : Nat) : StageCfg :=
  match field with
  | .dec => { c with dec := some v }
  | .opsm1 => { c with opsm1 := some v }
  | .odd => { c with odd := some (v == 1) }
  | .trunc => { c with trunc := some v }
  | .bypass => { c with bypass := some (v == 1) }
  | .firEnable => c

/-- Store v in the field, of stage i for a per-stage field (spec/45_control_plane.md R290). -/
def storeCfg (field : CfgField) (i v : Nat) (f : Fir) : Fir :=
  if field = .firEnable then { f with firEnable := v == 1 }
  else { f with cfg := f.cfg.set i ((cfgOf f i).write field v) }

/-- The state of stage i set to st. -/
def setStage (i : Nat) (st : StageSt) (f : Fir) : Fir := { f with st := f.st.set i st }

/-! Updates of the cycle in progress. -/

/-- Write σ' (spec/00_scope.md R15). -/
def State.write (s : State) (g : Fir → Fir) : State := { s with nxt := g s.nxt }

/-- Put samples on the path. -/
def State.setPath (s : State) (p : List Sample) : State := { s with path := p }

/-- Drive the ports. -/
def State.drive (s : State) (g : Ports → Ports) : State := { s with ports := g s.ports }

/-- `raise F(info)` (spec/60_exceptions.md R330): the record joins the fault set of the cycle. -/
def State.raise (s : State) (k : FaultKind) : State := { s with raised := s.raised ++ [⟨k, s.cycle⟩] }

/-- A fault within a take: it ends the take (spec/60_exceptions.md R332 (c)), so nothing more travels the path. -/
def State.raiseOnPath (s : State) (k : FaultKind) : State := (s.raise k).setPath []

/-! The context of the cycle in progress, from its word W. -/

/-- The cycle is a reset cycle. -/
def State.inReset (s : State) : Bool := Word.rst s.w

/-- A take happens in the cycle (spec/44_stream_controller.md R250: `do_take`). -/
def State.doTake (s : State) : Bool := !Word.rst s.w && Word.take s.w && takeEnabled s.par s.fir

/-- The cycle is idle (spec/10_state.md R48). -/
def State.idle (s : State) : Bool := pathEmpty s.fir && !s.doTake

/-! Taking a fault. There is no trap entry and no return from one (spec/60_exceptions.md R336, R337): a faulted state has no
next state. -/

/-- The state σ' of a cycle that raised faults: σ with the records added and every other field unchanged
(spec/60_exceptions.md R330, R332 (a)). -/
def withFaults (f : Fir) (fs : List FaultRec) : Fir := { f with faults := f.faults ++ fs }

/-- The registered state at the end of the cycle in progress: σ' as written, or σ with the cycle's faults (R250, R332). -/
def State.registered (s : State) : Fir := if s.raised = [] then s.nxt else withFaults s.fir s.raised

/-- The end of a cycle: every register loads its next value. A faulting cycle hands nothing to the consumer (R332 (a)). -/
def State.latch (s : State) : State :=
  { s with
    fir := s.registered
    nxt := s.registered
    path := []
    raised := []
    w := 0
    cycle := s.cycle + 1
    ports := if s.raised = [] then s.ports else { s.ports with delivered := none } }

end Sys2Proof.Machine
end

