-- ==== Sys2Proof/Machine/Control.lean ====
section
/-! DEFINITION. The control plane (spec/45_control_plane.md): the configuration write port, the coefficient write port and
the status output. -/

namespace Sys2Proof.Machine

/-- The structural fields (R291): every field but macc_trunc. -/
def isStructural (field : CfgField) : Bool := field != .trunc

/-- The hazard of a write of the field in a cycle with reset deasserted, if any: R293 for a structural field, R294 for
macc_trunc. -/
def cfgHazard (field : CfgField) (i : Nat) (s : State) : Option FaultKind :=
  if isStructural field then
    if s.fir.fresh && !s.doTake then none
    else some (.structuralWriteInFlight field (if field = .firEnable then none else some i))
  else if stageActive s.fir i && !s.idle then some (.truncWriteInFlight i) else none

/-- The checks of a configuration write of a field that is not reserved, in the order of R290; a reset cycle skips the
hazard check. -/
def cfgFault (field : CfgField) (i v : Nat) (s : State) : Option FaultKind :=
  if field ≠ .firEnable ∧ s.par.numStages ≤ i then some (.configStageOutOfRange i)
  else if ¬ CfgFits s.par field v then some (.configValueOutOfRange field v)
  else if s.inReset then none
  else cfgHazard field i s

/-- `CFG_WRITE` of a field that is not reserved (R290): the checks, then the store. -/
def writeCfg (field : CfgField) (stage : BitVec 2) (value : Nat) (s : State) : State :=
  match cfgFault field stage.toNat value s with
  | some k => s.raise k
  | none => s.write (storeCfg field stage.toNat value)

/-- CFG_DECIMATION (R292). -/
def execCfgDecimation (stage : BitVec 2) (value : Nat) (s : State) : Host.Outcome State Fault Refusal :=
  .next (writeCfg .dec stage value s)

/-- CFG_OPS_M1 (R295). -/
def execCfgOpsM1 (stage : BitVec 2) (value : Nat) (s : State) : Host.Outcome State Fault Refusal :=
  .next (writeCfg .opsm1 stage value s)

/-- CFG_ODD_OPS (R301). -/
def execCfgOddOps (stage : BitVec 2) (value : Nat) (s : State) : Host.Outcome State Fault Refusal :=
  .next (writeCfg .odd stage value s)

/-- CFG_MACC_TRUNC (R294). -/
def execCfgMaccTrunc (stage : BitVec 2) (value : Nat) (s : State) : Host.Outcome State Fault Refusal :=
  .next (writeCfg .trunc stage value s)

/-- CFG_BYPASS (R303). -/
def execCfgBypass (stage : BitVec 2) (value : Nat) (s : State) : Host.Outcome State Fault Refusal :=
  .next (writeCfg .bypass stage value s)

/-- CFG_FIR_ENABLE (R296): the stage code is ignored. -/
def execCfgFirEnable (stage : BitVec 2) (value : Nat) (s : State) : Host.Outcome State Fault Refusal :=
  .next (writeCfg .firEnable stage value s)

/-- CFG_RESERVED (R299): the fault ReservedConfigField, in reset cycles too; nothing is written. -/
def execCfgReserved (code : BitVec 3) (_stage : BitVec 2) (_value : Nat) (s : State) : Host.Outcome State Fault Refusal :=
  .next (s.raise (.reservedConfigField code.toNat))

/-- The hazard of a coefficient write to cell a in a cycle with reset deasserted (R298): some active stage reads a, and the
cycle is not idle. -/
def coefHazard (a : Nat) (s : State) : Bool :=
  !s.idle && (List.range s.par.numStages).any fun i => stageActive s.fir i && inReadRange s.par s.fir i a

/-- COEF_WRITE (R297). -/
def execCoefWrite (addr data : Nat) (s : State) : Host.Outcome State Fault Refusal :=
  .next (if !s.inReset && coefHazard (coefAddress s.par addr) s then s.raise (.coefWriteInFlight (coefAddress s.par addr))
    else s.write fun f => { f with mem := memWrite f.mem (coefAddress s.par addr) (coefValue s.par data) })

/-- STATUS_READ (R302): the control plane samples the status output, which a reset cycle drives 0; σ is not changed. -/
def execStatusRead (s : State) : Host.Outcome State Fault Refusal :=
  .next (s.drive fun d => { d with status := some (!s.inReset && s.fir.ovf) })

end Sys2Proof.Machine
end

