-- ==== Sys2Proof/Machine/Generator.lean ====
section
/-! DEFINITION. The CommonEdgeGenerator (spec/41_common_edge_generator.md): CEG_FAST_EDGE and CEG_COMMON_EDGE. -/

namespace Sys2Proof.Machine

/-- The slow edges are exactly the fast edges whose number N divides (R151). -/
def isCommonEdge (n f : Nat) : Bool := f % n == 0

/-- The combinational common-edge signal `T XOR Tq` (R154). -/
def commonEdgeSignal (g : Ceg) : Bool := g.t ^^ g.tq

/-- The generator's output in the cycle whose edge led to g: the oldest bit sr[N-1] (R155). -/
def generatorOutput (n : Nat) (g : Ceg) : Bool := g.sr.getD (n - 1) false

/-- The N-deep shift register after a fast edge: the combinational signal before the edge enters at sr[0] (R152, R153). -/
def shiftRegister (n : Nat) (g : Ceg) : List Bool := (commonEdgeSignal g :: g.sr).take n

/-- The generator after a fast edge; the toggle bit flips when the edge is a slow edge too. Every right-hand side reads the
values before the edge (R152, R153). -/
def fastEdge (n : Nat) (common : Bool) (g : Ceg) : Ceg := ⟨g.t ^^ common, g.t, shiftRegister n g⟩

/-- CEG_FAST_EDGE (R152). -/
def execCegFastEdge (s : State) : Host.Outcome State Fault Refusal :=
  .next { s with ceg := fastEdge s.par.ratio false s.ceg }

/-- CEG_COMMON_EDGE (R153). -/
def execCegCommonEdge (s : State) : Host.Outcome State Fault Refusal :=
  .next { s with ceg := fastEdge s.par.ratio true s.ceg }

end Sys2Proof.Machine
end

