-- ==== Sys2Proof/Machine/Reset.lean ====
section
/-! DEFINITION. RESET (spec/70_reset_and_hazards.md R361): a cycle with the external reset asserted. The writes of the control
plane in such a cycle are their own operations, which skip their hazard checks. -/

namespace Sys2Proof.Machine

/-- The stream state of R361 on σ': buffers, flag, histories and offer cleared; configuration and memory kept. -/
def clearStream (p : Params) (f : Fir) : Fir :=
  { f with
    inbuf := []
    pending := []
    offered := false
    ovf := false
    prevReady := false
    st := List.replicate p.numStages StageSt.start
    fresh := true
    unreset := false }

/-- RESET (R361): sink ready is the draw rready, source valid is low, the status output is 0. -/
def execReset (rready : Bool) (s : State) : Host.Outcome State Fault Refusal :=
  .next ((s.write (clearStream s.par)).drive fun d =>
    { d with sinkReady := some rready, srcValid := some false, src := none, ovf := some false })

end Sys2Proof.Machine
end

