-- ==== Sys2Proof/Machine/Fir.lean ====
section
/-! DEFINITION. The arithmetic of one decimating FIR stage (spec/42_fir_arithmetic.md): STAGE_CONSUME and FIR_OUTPUT. -/

namespace Sys2Proof.Machine

/-- `x_i[m]` of a history, (0, 0) for m < 0 (spec/10_state.md R45). -/
def inputAt (hist : List Iq) (m : Int) : Iq := if m < 0 then ⟨0, 0⟩ else hist.getD m.toNat ⟨0, 0⟩

/-- The coefficient sequence coef_i[0 .. n-1] of a stage (R181), read in rising order of address, so the first unwritten
cell is the one of the lowest row, then of the lowest column (spec/60_exceptions.md R333). -/
def readCoefs (m : Memory) (base : Nat) : Nat → Except FaultKind (List Int)
  | 0 => .ok []
  | n + 1 =>
    match coefRead m base with
    | .error e => .error e
    | .ok c =>
      match readCoefs m (base + 1) n with
      | .error e => .error e
      | .ok cs => .ok (c :: cs)

/-- The sum of term(m) over the coefficients m = kD + d of the rows k < K of parity `par` and the columns d < D: what one
accumulator of a pair adds up (R189). -/
def pairSum (h : Shape) (par : Nat) (term : Nat → Int) : Int :=
  (((List.range h.rows).filter fun k => k % 2 == par).map fun k =>
    ((List.range h.dec).map fun d => term (k * h.dec + d)).sum).sum

/-- The product that coefficient m contributes to one lane of the output whose last input has index n: `coef[m] * x[n - m]`
(R189; `lane` picks the real or the imaginary part, R197). -/
def product (coefs : List Int) (hist : List Iq) (lane : Iq → Int) (n m : Nat) : Int :=
  coefs.getD m 0 * lane (inputAt hist ((n : Int) - (m : Int)))

/-- The accumulator of pair `par` of one lane after the row loop, bias included (R186, R188, R189). -/
def accumulator (h : Shape) (t : Nat) (coefs : List Int) (hist : List Iq) (lane : Iq → Int) (n par : Nat) : Int :=
  bias t + pairSum h par (product coefs hist lane n)

/-- The bound B of that accumulator: the bias and the magnitudes of its terms (R192). -/
def accumulatorBound (h : Shape) (t : Nat) (coefs : List Int) (hist : List Iq) (lane : Iq → Int) (n par : Nat) : Int :=
  bias t + pairSum h par fun m => ((product coefs hist lane n m).natAbs : Int)

/-- B passes the end of the ACC_W-bit range (R192); never for `ACC_W = INF`. -/
def boundExceeds (accWidth : Option Nat) (b : Int) : Bool :=
  match accWidth with
  | none => false
  | some a => decide (((2 ^ (a - 1) : Nat) : Int) - 1 < b)

/-- The accumulator-width check of R192 over the four accumulators. -/
def accOverflows (accWidth : Option Nat) (h : Shape) (t : Nat) (coefs : List Int) (hist : List Iq) (n : Nat) : Bool :=
  [Iq.re, Iq.im].any fun lane =>
    [0, 1].any fun par => boundExceeds accWidth (accumulatorBound h t coefs hist lane n par)

/-- One lane of the output from its two accumulators: each shifted and clamped, then their clamped sum (R190, R191). -/
def laneOutput (outWidth t : Nat) (a0 a1 : Int) : Int :=
  clamp outWidth (clamp outWidth (asr a0 t) + clamp outWidth (asr a1 t))

/-- One lane of FIR_OUTPUT. -/
def firLane (outWidth : Nat) (h : Shape) (t : Nat) (coefs : List Int) (hist : List Iq) (lane : Iq → Int) (n : Nat) : Int :=
  laneOutput outWidth t (accumulator h t coefs hist lane n 0) (accumulator h t coefs hist lane n 1)

/-- `FIR_OUTPUT(i, n)` of R186 with the configuration and memory of f and the stage's history, whose last element is input n. -/
def firOutput (p : Params) (f : Fir) (i : Nat) (hist : List Iq) : Except FaultKind Iq :=
  match shapeOf f i with
  | .error e => .error e
  | .ok h =>
    match (cfgOf f i).trunc with
    | none => .error (.readUnwrittenConfig i .trunc)
    | some t =>
      match readCoefs f.mem (p.coefBase i) h.cells with
      | .error e => .error e
      | .ok coefs =>
        let n := hist.length - 1
        if accOverflows p.accWidth h t coefs hist n then .error (.accOverflow i (n / h.dec))
        else .ok ⟨firLane (p.outWidth i) h t coefs hist Iq.re n, firLane (p.outWidth i) h t coefs hist Iq.im n⟩

/-- The checks of R183 when stage i consumes a sample, in their order; D and K when they pass. -/
def consumeChecks (p : Params) (f : Fir) (i : Nat) : Except FaultKind Shape :=
  match shapeOf f i with
  | .error e => .error e
  | .ok h =>
    if h.dec = 0 then .error (.zeroDecimation i)
    else if p.numCells < p.coefBase i + h.cells then .error (.coefRangeExceedsMemory i (p.coefBase i + h.cells))
    else .ok h

/-- FIR_OUTPUT within a take: the output of stage i for the history `hist`, whose last element is this cycle's sample, goes on
the path with the drawn last bit (spec/43_cascade_and_bypass.md R226). -/
def computeOutput (i : Nat) (olast : Bool) (hist : List Iq) (s : State) : State :=
  match firOutput s.par s.fir i hist with
  | .error e => s.raiseOnPath e
  | .ok y => s.setPath [y.sample olast]

/-- STAGE_CONSUME within a take: stage i consumes the sample on the path (R184); with nothing on the path it does nothing
(spec/43_cascade_and_bypass.md R228). -/
def consumeSample (i : Nat) (olast : Bool) (s : State) : State :=
  match s.path with
  | [] => s
  | v :: _ =>
    match consumeChecks s.par s.fir i with
    | .error e => s.raiseOnPath e
    | .ok h =>
      let st := stOf s.fir i
      if st.phase + 1 = h.dec then
        computeOutput i olast (st.hist ++ [v.iq]) (s.write (setStage i ⟨st.hist ++ [v.iq], 0⟩))
      else
        (s.write (setStage i ⟨st.hist ++ [v.iq], st.phase + 1⟩)).setPath []

/-- STAGE_CONSUME (R184). -/
def execStageConsume (i : Nat) (olast : Bool) (s : State) : Host.Outcome State Fault Refusal :=
  .next (consumeSample i olast s)

/-- FIR_OUTPUT (R186): the history is the one that σ' holds, with the sample that this cycle's STAGE_CONSUME added. -/
def execFirOutput (i : Nat) (olast : Bool) (s : State) : Host.Outcome State Fault Refusal :=
  .next (computeOutput i olast (stOf s.nxt i).hist s)

end Sys2Proof.Machine
end

