-- ==== Sys2Proof/Machine/Path.lean ====
section
/-! DEFINITION. The path of a take (spec/43_cascade_and_bypass.md): the FIR-enable switch, the S stages in order, and the
rows DISABLED_PASS and STAGE_BYPASS. Junctions widen by sign extension, which keeps the value (R225), so a sample passes a
junction unchanged. -/

namespace Sys2Proof.Machine

/-- DISABLED_PASS within a take: the sample passes unchanged to the block's output (R223). -/
def passDisabled (s : State) : State :=
  if s.par.sourceWidth < s.par.sinkWidth then s.raiseOnPath (.disabledNarrowing s.par.sinkWidth s.par.sourceWidth)
  else s

/-- STAGE_BYPASS within a take: the sample passes stage i unchanged (R224); with nothing on the path the stage receives
nothing (R228). -/
def bypassStage (i : Nat) (s : State) : State :=
  match s.path with
  | [] => s
  | _ :: _ =>
    if s.par.outWidth i < s.par.inWidth i then
      s.raiseOnPath (.bypassNarrowing i (s.par.inWidth i) (s.par.outWidth i))
    else s

/-- One turn of the loop of PATH (R220): stage i receives what is on the path, if anything. -/
def pathStage (olast : Bool) (s : State) (i : Nat) : State :=
  match s.path with
  | [] => s
  | _ :: _ =>
    match (cfgOf s.fir i).bypass with
    | none => s.raiseOnPath (.readUnwrittenConfig i .bypass)
    | some true => bypassStage i s
    | some false => consumeSample i olast s

/-- `PATH(x)` with x on the path (R220). -/
def runPath (olast : Bool) (s : State) : State :=
  if s.fir.firEnable then (List.range s.par.numStages).foldl (pathStage olast) s else passDisabled s

/-- DISABLED_PASS (R223). -/
def execDisabledPass (s : State) : Host.Outcome State Fault Refusal :=
  .next (passDisabled s)

/-- STAGE_BYPASS (R224). -/
def execStageBypass (i : Nat) (s : State) : Host.Outcome State Fault Refusal :=
  .next (bypassStage i s)

end Sys2Proof.Machine
end

