-- ==== Sys2Proof/Machine/Stream.lean ====
section
/-! DEFINITION. The stream operations (spec/44_stream_controller.md): SINK_XFER, SINK_STALL, PATH_TAKE, SRC_OFFER, SRC_XFER,
SRC_STALL. -/

namespace Sys2Proof.Machine

/-- SINK_XFER (R252): the sample joins the tail of the input buffer. -/
def execSinkXfer (re im : Nat) (last : Bool) (s : State) : Host.Outcome State Fault Refusal :=
  .next (s.write fun f => { f with inbuf := f.inbuf ++ [sinkSample s.par re im last] })

/-- SINK_STALL (R253): no change from the sink. -/
def execSinkStall (s : State) : Host.Outcome State Fault Refusal :=
  .next s

/-- SRC_XFER (R259): the consumer takes the oldest pending output; valid falls unless SRC_OFFER raises it again. -/
def execSrcXfer (s : State) : Host.Outcome State Fault Refusal :=
  .next ((s.write fun f => { f with pending := f.pending.tail, offered := false }).drive
    fun d => { d with delivered := s.fir.pending.head?.map (sourceData s.par) })

/-- SRC_STALL (R260): valid is held; the queue's head stays. -/
def execSrcStall (s : State) : Host.Outcome State Fault Refusal :=
  .next (s.write fun f => { f with offered := true })

/-- What the path gave joins the tail of the pending queue (R256). -/
def collectOutputs (s : State) : State := (s.write fun f => { f with pending := f.pending ++ s.path }).setPath []

/-- The head of the input buffer goes on the path (R256). -/
def takeHead (x : Sample) (s : State) : State :=
  (s.write fun f => { f with inbuf := f.inbuf.tail, fresh := false }).setPath [x]

/-- An enabled take (R256). -/
def takeSample (olast : Bool) (s : State) : State :=
  match s.fir.inbuf with
  | [] => s
  | x :: _ => collectOutputs (runPath olast (takeHead x s))

/-- PATH_TAKE (R256); where a take is not enabled it has no effect (spec/30_encoding.md R127). -/
def execPathTake (olast : Bool) (s : State) : Host.Outcome State Fault Refusal :=
  .next (if takeEnabled s.par s.fir then takeSample olast s else s)

/-- SRC_OFFER (R258); it has no effect where σ' holds no pending output (spec/30_encoding.md R127). -/
def execSrcOffer (s : State) : Host.Outcome State Fault Refusal :=
  .next (if s.nxt.pending.isEmpty then s else s.write fun f => { f with offered := true })

end Sys2Proof.Machine
end

