-- ==== Sys2Proof/Machine/Dispatch.lean ====
section
/-! DEFINITION. One arm per operation: what it does to the cycle in progress. -/

namespace Sys2Proof.Machine

/-- The meaning of one operation (spec/30_encoding.md R111): it reads σ (`fir`) and writes σ' (`nxt`). -/
def exec (i : Instr) (s : State) : Host.Outcome State Fault Refusal :=
  match i with
  | .reset rready => Sys2Proof.Machine.execReset rready s
  | .sinkXfer re im last => Sys2Proof.Machine.execSinkXfer re im last s
  | .sinkStall => Sys2Proof.Machine.execSinkStall s
  | .srcXfer => Sys2Proof.Machine.execSrcXfer s
  | .srcStall => Sys2Proof.Machine.execSrcStall s
  | .pathTake olast => Sys2Proof.Machine.execPathTake olast s
  | .srcOffer => Sys2Proof.Machine.execSrcOffer s
  | .coefWrite addr data => Sys2Proof.Machine.execCoefWrite addr data s
  | .cfgDecimation stage value => Sys2Proof.Machine.execCfgDecimation stage value s
  | .cfgOpsM1 stage value => Sys2Proof.Machine.execCfgOpsM1 stage value s
  | .cfgOddOps stage value => Sys2Proof.Machine.execCfgOddOps stage value s
  | .cfgMaccTrunc stage value => Sys2Proof.Machine.execCfgMaccTrunc stage value s
  | .cfgBypass stage value => Sys2Proof.Machine.execCfgBypass stage value s
  | .cfgFirEnable stage value => Sys2Proof.Machine.execCfgFirEnable stage value s
  | .cfgReserved code stage value => Sys2Proof.Machine.execCfgReserved code stage value s
  | .statusRead => Sys2Proof.Machine.execStatusRead s
  | .disabledPass => Sys2Proof.Machine.execDisabledPass s
  | .stageBypass stage => Sys2Proof.Machine.execStageBypass stage s
  | .stageConsume stage olast => Sys2Proof.Machine.execStageConsume stage olast s
  | .firOutput stage olast => Sys2Proof.Machine.execFirOutput stage olast s
  | .cegFastEdge => Sys2Proof.Machine.execCegFastEdge s
  | .cegCommonEdge => Sys2Proof.Machine.execCegCommonEdge s

end Sys2Proof.Machine
end

