-- ==== Sys2Proof/Machine/Cycle.lean ====
section
/-! DEFINITION. One cycle of each machine: the outputs the FIR block drives, the operations its record selects, run one after
the other over σ and σ', and the end of the cycle (spec/44_stream_controller.md R250); one fast cycle of the generator; and
how a record comes to be the next one. -/

namespace Sys2Proof.Machine

/-- What the block drives on sink ready in the cycle of r: the draw in a reset cycle, else the state of the input buffer
(R251); low in a cycle before the first reset, whose outputs the spec does not give and which performs no operation. -/
def drivenReady (s : State) (r : CycleRecord) : Bool :=
  if Word.rst r.w then r.rready else !s.fir.unreset && sinkReady s.par s.fir

/-- What the block drives on source valid in the cycle of r: low in a reset cycle (R257), and before the first reset. -/
def drivenValid (s : State) (r : CycleRecord) : Bool := !Word.rst r.w && !s.fir.unreset && s.fir.offered

/-- The record with the output bits of its word as the block drives them (spec/30_encoding.md R110): the bits the record came
with are replaced (log entry 11). -/
def completeRecord (s : State) (r : CycleRecord) : CycleRecord :=
  { r with w := Word.withOutputs r.w (drivenReady s r) (drivenValid s r) }

/-- The outputs of a cycle with reset deasserted after the first reset, all from σ (R250, R251, R257;
spec/45_control_plane.md R302). -/
def drivenPorts (p : Params) (f : Fir) : Ports :=
  ⟨some (sinkReady p f), some f.offered, if f.offered then f.pending.head?.map (sourceData p) else none,
   some f.ovf, none, none⟩

/-- The start of a cycle: the record leaves the queue, its word is on the lines, σ' starts as σ with the always-on overflow
detection, and the outputs are driven. In a reset cycle, and before the first reset, RESET or nothing writes σ' and the
ports. -/
def openCycle (s : State) (r : CycleRecord) (rest : List Record) : State :=
  { s with
    records := rest
    w := (completeRecord s r).w
    nxt := if Word.rst r.w then s.fir else withOverflowDetection s.par s.fir
    path := []
    raised := []
    ports := if Word.rst r.w || s.fir.unreset then Ports.silent else drivenPorts s.par s.fir }

/-- Run operations one after the other. Each reads σ, so their order matters only where R250 names a local: SRC_XFER before
the take's outputs join the queue, and SRC_OFFER last. -/
def runOps : List Instr → State → Host.Outcome State Fault Refusal
  | [], s => .next s
  | i :: is, s =>
    match exec i s with
    | .next t => runOps is t
    | .fault e => .fault e
    | .refused e => .refused e

/-- The end of a cycle whose operations answered an outcome. -/
def closeCycle : Host.Outcome State Fault Refusal → Host.Outcome State Fault Refusal
  | .next t => .next t.latch
  | .fault e => .fault e
  | .refused e => .refused e

/-- One cycle of the FIR block with a record that selects the operations ops: before the first reset a cycle with reset
deasserted performs none of them and raises NotReset (R250, spec/10_state.md R49). -/
def runSelected (ops : List Instr) (s : State) (r : CycleRecord) (rest : List Record) : Host.Outcome State Fault Refusal :=
  if !Word.rst r.w && s.fir.unreset then .next ((openCycle s r rest).raise (.notReset s.cycle)).latch
  else closeCycle (runOps ops (openCycle s r rest))

/-- One cycle of the FIR block (R250): no step from a faulted state (spec/60_exceptions.md R332 (b)), no cycle for a word with
bit 15 set (spec/30_encoding.md R124). -/
def runCycle (s : State) (r : CycleRecord) (rest : List Record) : Host.Outcome State Fault Refusal :=
  if s.fir.faults ≠ [] then .fault .faulted
  else
    match decode (completeRecord s r) with
    | .error .reservedBit15 => .refused (.reservedBit15 s.cycle)
    | .ok ops => runSelected ops s r rest

/-- The start of a fast cycle: the generator record leaves the queue, and the fast cycle counts. -/
def openEdge (s : State) (rest : List Record) : State := { s with records := rest, fast := s.fast + 1 }

/-- One fast cycle of the generator (spec/41_common_edge_generator.md R152, R153); it has no faults and no reset (R160). The two
clocks are counters at the fixed ratio N (R151): a record that says otherwise is refused (log entry 13). -/
def runEdge (s : State) (common : Bool) (rest : List Record) : Host.Outcome State Fault Refusal :=
  if common = isCommonEdge s.par.ratio s.fast then exec (decodeEdge common) (openEdge s rest)
  else .refused (.clockRatio s.fast)

/-! Presenting a record. -/

/-- A sample of zeros. -/
def zeroSample : Sample := ⟨0, 0, false⟩

/-- The queue q, or one sample of zeros if it is empty. -/
def nonempty (q : List Sample) : List Sample := if q.isEmpty then [zeroSample] else q

/-- The input buffer at an occupancy at which the block drives the sink ready bit of w while the producer drives valid. -/
def bufferFor (p : Params) (w : Word) (q : List Sample) : List Sample :=
  if Word.sinkValid w then
    if Word.sinkReady w then q.take (p.inDepth - 1) else q ++ List.replicate (p.inDepth - q.length) zeroSample
  else q

/-- σ with the stream state that the rows of w stand for (log entry 7): the buffer as its ready bit says, a buffered sample
for a take, an offered output for a source valid bit, a pending output for an offer. A reset cycle needs nothing. -/
def streamFor (p : Params) (w : Word) (f : Fir) : Fir :=
  if Word.rst w then f
  else
    { f with
      inbuf := if Word.take w then nonempty (bufferFor p w f.inbuf) else bufferFor p w f.inbuf
      pending := if Word.srcValid w || Word.offer w then nonempty f.pending else f.pending
      offered := Word.srcValid w }

/-- The number of a fast cycle in which the generator record is the one of the clock ratio: f where it is, else the first. -/
def fastFor (n f : Nat) (common : Bool) : Nat :=
  if common = isCommonEdge n f then f else if common then 0 else 1

/-- The machine about to run the record, with the stream state in which its word selects its rows, or in the fast cycle whose
generator record it is (log entry 7). -/
def presentRecord (r : Record) (s : State) : State :=
  match r with
  | .edge c => { s with records := .edge c :: s.records, fast := fastFor s.par.ratio s.fast c }
  | .cycle c =>
    { s with records := .cycle c :: s.records, fir := streamFor s.par c.w s.fir, nxt := streamFor s.par c.w s.fir }

end Sys2Proof.Machine
end

