-- ==== Sys2Proof/Machine/Step.lean ====
section
/-! DEFINITION. One step of the machine, and the machine about to run a word of the opcode table. -/

namespace Sys2Proof.Machine

/-- One step: the next record of the queue, a cycle of the FIR block or a fast cycle of the generator. A parameter set that
fails an elaboration check gives no machine (spec/00_scope.md R10); with no record the run has ended (R386). -/
def step (s : State) : Host.Outcome State Fault Refusal :=
  match s.par.failedCheck with
  | some check => .refused (.elaboration check)
  | none =>
    match s.records with
    | [] => .refused .noRecord
    | .cycle r :: rest => runCycle s r rest
    | .edge common :: rest => runEdge s common rest

/-- The machine about to run the record of an opcode-table word (log entries 5, 7 and 12). -/
def State.withFetchWord (s : State) (nbits w : Nat) : State := presentRecord (recordOfTableWord nbits w) s

end Sys2Proof.Machine
end

