-- ==== Sys2Proof/Machine/Reference.lean ====
section
/-! DEFINITION. The cycle of the FIR block as ONE function of σ and the record, written from the pseudocode of
spec/44_stream_controller.md R250, spec/43_cascade_and_bypass.md R220 and spec/70_reset_and_hazards.md R361 without the
operations of `exec`. No step uses it: it is the clear form that the machine's cycle is compared with. -/

namespace Sys2Proof.Machine

/-- What stage i does with a sample that reaches it: what it passes on, if anything, and its next state (R220, R222, R224). -/
def refStage (p : Params) (f : Fir) (olast : Bool) (i : Nat) (v : Sample) : Except FaultKind (Option Sample × StageSt) :=
  match (cfgOf f i).bypass with
  | none => .error (.readUnwrittenConfig i .bypass)
  | some true =>
    if p.outWidth i < p.inWidth i then .error (.bypassNarrowing i (p.inWidth i) (p.outWidth i))
    else .ok (some v, stOf f i)
  | some false =>
    match consumeChecks p f i with
    | .error e => .error e
    | .ok h =>
      let hist := (stOf f i).hist ++ [v.iq]
      if (stOf f i).phase + 1 = h.dec then
        match firOutput p f i hist with
        | .error e => .error e
        | .ok y => .ok (some (y.sample olast), ⟨hist, 0⟩)
      else .ok (none, ⟨hist, (stOf f i).phase + 1⟩)

/-- The stages `is` in order from the sample v: what leaves the last of them, and the states of the stages (R220, R228). -/
def refStages (p : Params) (f : Fir) (olast : Bool) : List Nat → Sample → List StageSt → Except FaultKind (Option Sample × List StageSt)
  | [], v, sts => .ok (some v, sts)
  | i :: is, v, sts =>
    match refStage p f olast i v with
    | .error e => .error e
    | .ok (none, st) => .ok (none, sts.set i st)
    | .ok (some u, st) => refStages p f olast is u (sts.set i st)

/-- `PATH(x)` (R220). -/
def refPath (p : Params) (f : Fir) (olast : Bool) (x : Sample) : Except FaultKind (Option Sample × List StageSt) :=
  if f.firEnable then refStages p f olast (List.range p.numStages) x f.st
  else if p.sourceWidth < p.sinkWidth then .error (.disabledNarrowing p.sinkWidth p.sourceWidth)
  else .ok (some x, f.st)

/-- `do_take` (R250, R255). -/
def refTakes (p : Params) (f : Fir) (w : Word) : Bool := Word.take w && takeEnabled p f

/-- What the take of the cycle gives: nothing without a take. -/
def refTake (p : Params) (f : Fir) (r : CycleRecord) : Except FaultKind (Option Sample × List StageSt) :=
  match f.inbuf with
  | [] => .ok (none, f.st)
  | x :: _ => if refTakes p f r.w then refPath p f r.olast x else .ok (none, f.st)

/-- The field that a configuration field code names (spec/30_encoding.md R122); none for the reserved codes. -/
def fieldOfCode (code : BitVec 3) : Option CfgField :=
  match code.toNat with
  | 0 => some .dec
  | 1 => some .opsm1
  | 2 => some .odd
  | 3 => some .trunc
  | 4 => some .bypass
  | 5 => some .firEnable
  | _ => none

/-- The hazard check of a configuration write (R293, R294), given whether a take happens in the cycle. -/
def refCfgHazard (f : Fir) (takes : Bool) (field : CfgField) (i : Nat) : Option FaultKind :=
  match field with
  | .trunc => if stageActive f i && !(pathEmpty f && !takes) then some (.truncWriteInFlight i) else none
  | .firEnable => if f.fresh && !takes then none else some (.structuralWriteInFlight .firEnable none)
  | .dec | .opsm1 | .odd | .bypass =>
    if f.fresh && !takes then none else some (.structuralWriteInFlight field (some i))

/-- The first failing check of `CFG_WRITE` (spec/45_control_plane.md R290, spec/60_exceptions.md R333). -/
def refCfgFault (p : Params) (f : Fir) (takes : Bool) (r : CycleRecord) : Option FaultKind :=
  match fieldOfCode (Word.cfgField r.w) with
  | none => some (.reservedConfigField (Word.cfgField r.w).toNat)
  | some field =>
    if field ≠ .firEnable ∧ p.numStages ≤ (Word.cfgStage r.w).toNat then
      some (.configStageOutOfRange (Word.cfgStage r.w).toNat)
    else if ¬ CfgFits p field r.cfgValue then some (.configValueOutOfRange field r.cfgValue)
    else if Word.rst r.w then none
    else refCfgHazard f takes field (Word.cfgStage r.w).toNat

/-- The hazard check of the coefficient write (R298). -/
def refCoefFault (p : Params) (f : Fir) (takes : Bool) (r : CycleRecord) : Option FaultKind :=
  let a := coefAddress p r.coefAddr
  if !Word.rst r.w && !(pathEmpty f && !takes)
      && (List.range p.numStages).any (fun i => stageActive f i && inReadRange p f i a)
  then some (.coefWriteInFlight a) else none

/-- The faults of a cycle after the first reset or in a reset cycle (spec/60_exceptions.md R333): of the configuration write,
of the coefficient write, of the take. -/
def refFaults (p : Params) (f : Fir) (r : CycleRecord) : List FaultKind :=
  let takes := !Word.rst r.w && refTakes p f r.w
  (if Word.cfgWe r.w then (refCfgFault p f takes r).toList else [])
    ++ (if Word.coefWe r.w then (refCoefFault p f takes r).toList else [])
    ++ (if takes then (match refTake p f r with | .error e => [e] | .ok _ => []) else [])

/-- The control-plane writes of the cycle on g (R250, R361). -/
def refWrites (p : Params) (r : CycleRecord) (g : Fir) : Fir :=
  let g₁ :=
    if Word.cfgWe r.w then
      match fieldOfCode (Word.cfgField r.w) with
      | none => g
      | some field => storeCfg field (Word.cfgStage r.w).toNat r.cfgValue g
    else g
  if Word.coefWe r.w then { g₁ with mem := memWrite g₁.mem (coefAddress p r.coefAddr) (coefValue p r.coefData) } else g₁

/-- The stream state of σ' in a cycle with reset deasserted (R250), given what the take gave. -/
def refStream (p : Params) (f : Fir) (r : CycleRecord) (out : Option Sample) (sts : List StageSt) : Fir :=
  let ready := decide (f.inbuf.length < p.inDepth)
  let takes := refTakes p f r.w
  let outXfer := f.offered && Word.srcReady r.w
  let q := if takes then f.inbuf.tail else f.inbuf
  let pend := (if outXfer then f.pending.tail else f.pending) ++ out.toList
  { f with
    inbuf := if Word.sinkValid r.w && ready then q ++ [sinkSample p r.sinkRe r.sinkIm r.sinkLast] else q
    pending := pend
    offered := if f.offered && !outXfer then true else Word.offer r.w && !pend.isEmpty
    fresh := if takes then false else f.fresh
    st := sts
    ovf := f.ovf || (f.prevReady && !ready)
    prevReady := ready }

/-- The state after the reset part of R361 (the writes aside). -/
def refReset (p : Params) (f : Fir) : Fir :=
  { f with
    unreset := false, inbuf := [], pending := [], offered := false, ovf := false, prevReady := false
    st := List.replicate p.numStages StageSt.start, fresh := true }

/-- σ' of a cycle that raises no fault. -/
def refNext (p : Params) (f : Fir) (r : CycleRecord) : Fir :=
  if Word.rst r.w then refWrites p r (refReset p f)
  else
    match refTake p f r with
    | .error _ => f
    | .ok (out, sts) => refWrites p r (refStream p f r out sts)

/-- `CYCLE(σ, W)` (R250): σ' of cycle number `cycle`, from a state without faults and a record whose bit 15 is 0. -/
def refCycle (p : Params) (f : Fir) (r : CycleRecord) (cycle : Nat) : Fir :=
  if !Word.rst r.w && f.unreset then withFaults f [⟨.notReset cycle, cycle⟩]
  else if refFaults p f r = [] then refNext p f r
  else withFaults f ((refFaults p f r).map fun k => ⟨k, cycle⟩)

end Sys2Proof.Machine
end

