-- ==== Sys2Proof/WellFormed.lean ====
section
/-! DEFINITION. The well-formed operations: every operand is a pattern its port field can carry, a reserved configuration
code is one of the two reserved codes, and the stage of an internal row is a stage of the variant. -/

namespace Sys2Proof

/-- The checks an operand can fail, by name. -/
inductive WfError where
  | sinkRealPattern
  | sinkImagPattern
  | coefAddressPattern
  | coefDataPattern
  | cfgValuePattern
  | cfgCodeNotReserved
  | noSuchStage
  deriving DecidableEq, Repr

namespace Instr

/-- The pattern p fits a port field of w bits. -/
abbrev Fits (w p : Nat) : Prop := p < 2 ^ w

/-- The value on the configuration port fits its CFGV_W bits (spec/30_encoding.md R115). -/
def checkCfgValue (p : Params) (value : Nat) : Option WfError :=
  if Fits p.cfgValueWidth value then none else some .cfgValuePattern

/-- An internal row names a stage i < S (spec/10_state.md R32). -/
def checkStage (p : Params) (i : Nat) : Option WfError :=
  if i < p.numStages then none else some .noSuchStage

/-- The first operand check an operation fails, if any. -/
def failedCheck (p : Params) : Instr → Option WfError
  | .reset _ => none
  | .sinkXfer re im _ =>
    if ¬ Fits p.sinkWidth re then some .sinkRealPattern
    else if ¬ Fits p.sinkWidth im then some .sinkImagPattern else none
  | .sinkStall => none
  | .srcXfer => none
  | .srcStall => none
  | .pathTake _ => none
  | .srcOffer => none
  | .coefWrite addr data =>
    if ¬ Fits p.lenLog2 addr then some .coefAddressPattern
    else if ¬ Fits p.coefWidth data then some .coefDataPattern else none
  | .cfgDecimation _ v => checkCfgValue p v
  | .cfgOpsM1 _ v => checkCfgValue p v
  | .cfgOddOps _ v => checkCfgValue p v
  | .cfgMaccTrunc _ v => checkCfgValue p v
  | .cfgBypass _ v => checkCfgValue p v
  | .cfgFirEnable _ v => checkCfgValue p v
  | .cfgReserved code _ v =>
    if code = 6 ∨ code = 7 then checkCfgValue p v else some .cfgCodeNotReserved
  | .statusRead => none
  | .disabledPass => none
  | .stageBypass i => checkStage p i
  | .stageConsume i _ => checkStage p i
  | .firOutput i _ => checkStage p i
  | .cegFastEdge => none
  | .cegCommonEdge => none

/-- An operation whose every operand its fields can carry. -/
abbrev WellFormed (p : Params) (i : Instr) : Prop := i.failedCheck p = none

end Instr

/-- A cycle record whose every data pattern fits its field (spec/30_encoding.md R112 to R115) and whose reserved bit is 0
(R124). -/
abbrev CycleRecord.WellFormed (p : Params) (r : CycleRecord) : Prop :=
  r.w.getLsbD 15 = false ∧ Instr.Fits p.sinkWidth r.sinkRe ∧ Instr.Fits p.sinkWidth r.sinkIm
    ∧ Instr.Fits p.lenLog2 r.coefAddr ∧ Instr.Fits p.coefWidth r.coefData ∧ Instr.Fits p.cfgValueWidth r.cfgValue

end Sys2Proof
end

