-- ==== Sys2Proof/Safety.lean ====
section
/-! DEFINITION. What counts as a safe run, in the terms the statements use: normal states, the invariant of the machine, the
host's duties (spec/70_reset_and_hazards.md R385), runs, finite and infinite (spec/00_scope.md R20), what is observed of them
(R386), and the fairness assumption (spec/44_stream_controller.md R265). -/

namespace Sys2Proof.Safety

open Sys2Proof.Machine

/-- A state whose FIR block has recorded no fault (R386). -/
abbrev NoFault (s : State) : Prop := s.fir.faults = []

/-- Between two cycles: no cycle is in progress. -/
abbrev Between (s : State) : Prop := s.nxt = s.fir ∧ s.path = [] ∧ s.raised = [] ∧ s.w = 0

/-- A sample whose parts are w-bit signed values. -/
abbrev SampleFits (w : Nat) (x : Sample) : Prop := IsSigned w x.re ∧ IsSigned w x.im

/-- A history element whose parts are w-bit signed values. -/
abbrev IqFits (w : Nat) (v : Iq) : Prop := IsSigned w v.re ∧ IsSigned w v.im

/-- The written fields of a stage's configuration fit their widths (spec/10_state.md R32, R33). -/
abbrev StageCfgFits (p : Params) (c : StageCfg) : Prop :=
  (∀ v ∈ c.dec, v < 2 ^ p.decWidth) ∧ (∀ v ∈ c.opsm1, v < 2 ^ p.opsWidth) ∧ (∀ v ∈ c.trunc, v < 2 ^ p.truncWidth)

/-- The configuration and the coefficient memory are as spec/10_state.md R32 and R41 say. -/
structure ControlInv (p : Params) (f : Fir) : Prop where
  stages : f.cfg.length = p.numStages
  fields : ∀ c ∈ f.cfg, StageCfgFits p c
  canonical : f.mem.wf
  cells : ∀ c ∈ f.mem, c.1 < p.numCells ∧ IsSigned p.coefWidth c.2

/-- The state of a stage and its decimation factor agree (spec/10_state.md R45, spec/42_fir_arithmetic.md R184, R185): either
the stage has consumed nothing since reset, or its phase counts its inputs modulo D. -/
abbrev PhaseCounts (c : StageCfg) (st : StageSt) : Prop :=
  st = StageSt.start ∨ ∃ d, c.dec = some d ∧ 0 < d ∧ st.phase = st.hist.length % d

/-- The stream state is as spec/10_state.md R42, R45, R46 and R47 say. -/
structure StreamInv (p : Params) (f : Fir) : Prop where
  stages : f.st.length = p.numStages
  inbufRoom : f.inbuf.length ≤ p.inDepth
  inbufFits : ∀ x ∈ f.inbuf, SampleFits p.sinkWidth x
  pendingRoom : f.pending.length ≤ p.pathCap
  pendingFits : ∀ x ∈ f.pending, SampleFits p.sourceWidth x
  offered : f.offered = true → f.pending ≠ []
  fresh : f.fresh = true → ∀ st ∈ f.st, st = StageSt.start
  phases : ∀ i, i < p.numStages → PhaseCounts (cfgOf f i) (stOf f i)
  histories : ∀ i, i < p.numStages → ∀ v ∈ (stOf f i).hist, IqFits (p.inWidth i) v

/-- What the generator's bits hold after the edges of `fast` fast cycles (spec/41_common_edge_generator.md R156, R157): the
combinational signal tells whether the last of them was a common edge, and sr[k] whether the one k + 1 cycles before it was. Of
edges before fast cycle 0 nothing is known: those bits are the power-on draws. -/
structure GeneratorInv (s : State) : Prop where
  length : s.ceg.sr.length = s.par.ratio
  signal : 1 ≤ s.fast → commonEdgeSignal s.ceg = isCommonEdge s.par.ratio (s.fast - 1)
  shifted : ∀ k, k < s.par.ratio → k + 2 ≤ s.fast → s.ceg.sr[k]? = some (isCommonEdge s.par.ratio (s.fast - 2 - k))

/-- The invariant of the machine. The stream state is constrained only after the first reset: before it, it is unspecified
(spec/10_state.md R54). -/
structure Inv (s : State) : Prop where
  params : s.par.WellFormed
  between : Between s
  control : ControlInv s.par s.fir
  stream : s.fir.unreset = false → StreamInv s.par s.fir
  generator : GeneratorInv s

/-! Kinds of operations. -/

/-- A configuration write (spec/30_encoding.md R115). -/
def isConfigWrite : Instr → Bool
  | .cfgDecimation _ _ | .cfgOpsM1 _ _ | .cfgOddOps _ _ | .cfgMaccTrunc _ _ => true
  | .cfgBypass _ _ | .cfgFirEnable _ _ | .cfgReserved _ _ _ => true
  | .reset _ | .sinkXfer _ _ _ | .sinkStall | .srcXfer | .srcStall | .pathTake _ | .srcOffer | .coefWrite _ _ => false
  | .statusRead | .disabledPass | .stageBypass _ | .stageConsume _ _ | .firOutput _ _ => false
  | .cegFastEdge | .cegCommonEdge => false

/-- A stream operation: a transfer, a stall, a take or an offer, or a row within a take. -/
def isStreamOperation : Instr → Bool
  | .sinkXfer _ _ _ | .sinkStall | .srcXfer | .srcStall | .pathTake _ | .srcOffer => true
  | .disabledPass | .stageBypass _ | .stageConsume _ _ | .firOutput _ _ => true
  | .reset _ | .coefWrite _ _ | .statusRead | .cegFastEdge | .cegCommonEdge => false
  | .cfgDecimation _ _ | .cfgOpsM1 _ _ | .cfgOddOps _ _ | .cfgMaccTrunc _ _ => false
  | .cfgBypass _ _ | .cfgFirEnable _ _ | .cfgReserved _ _ _ => false

/-! The host's duties (R385). The duty to reset first and the control plane's duties are faults of the machine (R331), and
no step changes a parameter; the duty of the clocks and the producer's duty are these. -/

/-- The clock duty (spec/41_common_edge_generator.md R151): in the fast cycle that s is about to run, a generator record says
common edge exactly when N divides the number of the cycle. The step refuses any other (log entry 13). -/
abbrev ClockDuty (s : State) (r : Record) : Prop := ∀ e, r = .edge e → e = isCommonEdge s.par.ratio s.fast

/-- The generator records of the first n fast cycles of a well-formed clock pair (R151). -/
def clockRecords (ratio n : Nat) : List Record := (List.range n).map fun f => .edge (isCommonEdge ratio f)

/-- The producer offers a sample in the cycle of r and the block, in state s, does not accept it. -/
abbrev Stalls (s : State) (r : CycleRecord) : Prop :=
  Word.rst r.w = false ∧ Word.sinkValid r.w = true ∧ drivenReady s r = false

/-- The hold duty of the producer (spec/44_stream_controller.md R253, spec/70_reset_and_hazards.md R373), for a record that
stalled and the next cycle's: valid and the sample are held, unless a reset comes. -/
abbrev HoldDuty (stalled next : CycleRecord) : Prop :=
  Word.rst next.w = false → Word.sinkValid next.w = true ∧ next.sinkRe = stalled.sinkRe ∧ next.sinkIm = stalled.sinkIm
    ∧ next.sinkLast = stalled.sinkLast

/-- A recorded trace agrees with the block in the cycle of r (spec/30_encoding.md R110): the output bits the record came with
are those the block drives. -/
abbrev RecordedBitsAgree (s : State) (r : CycleRecord) : Prop := (completeRecord s r).w = r.w

/-! Runs (spec/00_scope.md R20). The records of a run come from outside the machine, one a step, so a run can be infinite: it
is given by its records, by its states, and by its length, ⊤ for an infinite run. -/

/-- The machine s with exactly the record r to run. -/
def withRecord (s : State) (r : Record) : State := { s with records := [r] }

/-- One step of the machine s with the record r from outside. -/
def stepOn (s : State) (r : Record) : Host.Outcome State Fault Refusal := step (withRecord s r)

/-- A machine at power-on, before cycle 0 (spec/10_state.md R54). -/
abbrev AtPowerOn (s : State) : Prop :=
  ∃ (p : Params) (stream : Fir) (g : Ceg), p.WellFormed ∧ g.sr.length = p.ratio ∧ s = State.powerOn p stream g

/-- A run (R20): from power-on, every record of it takes the machine from one state to the next. -/
structure IsRun (inputs : Nat → Record) (states : Nat → State) (length : ℕ∞) : Prop where
  start : AtPowerOn (states 0)
  steps : ∀ n : Nat, n < length → stepOn (states n) (inputs n) = .next (states (n + 1))

/-- The record at m is the next cycle record after the one at n; between them run only generator records. -/
abbrev IsNextCycle (inputs : Nat → Record) (n m : Nat) (r : CycleRecord) : Prop :=
  n < m ∧ inputs m = .cycle r ∧ ∀ k, n < k → k < m → ∃ e, inputs k = .edge e

/-- A run that the model admits (R385): the producer keeps the hold duty in each of its cycles, and the clocks keep theirs,
which every run does (`IsRun.clockDuty`). -/
structure IsAdmitted (inputs : Nat → Record) (states : Nat → State) (length : ℕ∞) : Prop extends
    IsRun inputs states length where
  clock : ∀ n : Nat, n < length → ClockDuty (states n) (inputs n)
  hold : ∀ (n m : Nat) (r r' : CycleRecord), m < length → inputs n = .cycle r → Stalls (states n) r →
    IsNextCycle inputs n m r' → HoldDuty r r'

/-- A finite run of n steps ends normally (R386): its last state is not faulted. -/
abbrev EndsNormally (inputs : Nat → Record) (states : Nat → State) (n : Nat) : Prop :=
  IsAdmitted inputs states n ∧ NoFault (states n)

/-! What is observed (R386). -/

/-- The observation of one step: the number of the cycle and what the block drove in it, or the number of the fast cycle and
the generator's output. -/
inductive Observation where
  | cycle (f : Nat) (ports : Ports)
  | edge (f : Nat) (output : Bool)
  deriving DecidableEq, Repr

/-- The observation of the step from s to t that ran r. -/
def observe (r : Record) (s t : State) : Observation :=
  match r with
  | .cycle _ => .cycle s.cycle t.ports
  | .edge _ => .edge s.fast (generatorOutput t.par.ratio t.ceg)

/-- The observations of the machine s over a finite sequence of records, and whether it ran all of them and its last state is
not faulted. -/
def observeRun : List Record → State → List Observation × Bool
  | [], s => ([], decide (NoFault s))
  | r :: rs, s =>
    match stepOn s r with
    | .next t => (observe r s t :: (observeRun rs t).1, (observeRun rs t).2)
    | .fault _ => ([], false)
    | .refused _ => ([], false)

/-- The source transfers among observations, each with the number of its cycle. -/
def sourceTransfers (os : List Observation) : List (Nat × SourceData) :=
  os.filterMap fun
    | .cycle f ports => ports.delivered.map fun x => (f, x)
    | .edge _ _ => none

/-! Fairness (spec/44_stream_controller.md R265), an assumption about an infinite run for claims that something eventually
happens; no rule of the machine uses it. -/

/-- A take happens in the cycle of r from s: it consumes the input buffer's head. -/
abbrev Takes (s : State) (r : CycleRecord) : Prop :=
  Word.rst r.w = false ∧ Word.take r.w = true ∧ takeEnabled s.par s.fir = true

/-- The block raises its offer in the cycle of r, where something is pending and nothing is offered. -/
abbrev Offers (s : State) (r : CycleRecord) : Prop :=
  Word.rst r.w = false ∧ Word.offer r.w = true ∧ s.fir.pending ≠ [] ∧ s.fir.offered = false

/-- P holds of every cycle of the run from n on. -/
abbrev EveryCycleFrom (inputs : Nat → Record) (states : Nat → State) (n : Nat) (P : State → CycleRecord → Prop) : Prop :=
  ∀ (m : Nat) (r : CycleRecord), n ≤ m → inputs m = .cycle r → P (states m) r

/-- P holds of some cycle of the run from n on. -/
abbrev SomeCycleFrom (inputs : Nat → Record) (states : Nat → State) (n : Nat) (P : State → CycleRecord → Prop) : Prop :=
  ∃ (m : Nat) (r : CycleRecord), n ≤ m ∧ inputs m = .cycle r ∧ P (states m) r

/-- The fairness assumption of R265 on an infinite run. It is one on the cycles of the FIR block, of which an infinite run in
its sense has infinitely many (log entry 32). -/
structure Fair (inputs : Nat → Record) (states : Nat → State) : Prop where
  cycles : ∀ n, SomeCycleFrom inputs states n fun _ _ => True
  takes : ∀ n,
    EveryCycleFrom inputs states n (fun s r => Word.rst r.w = false ∧ takeEnabled s.par s.fir = true) →
      SomeCycleFrom inputs states n Takes
  offers : ∀ n,
    EveryCycleFrom inputs states n (fun s _ => s.fir.pending ≠ [] ∧ s.fir.offered = false) →
      SomeCycleFrom inputs states n Offers

/-- The consumer is ready again and again, which R265 asks beside fairness of a claim that every sample is delivered. -/
abbrev ConsumerKeepsReading (inputs : Nat → Record) (states : Nat → State) : Prop :=
  ∀ n, SomeCycleFrom inputs states n fun _ r => Word.srcReady r.w = true

end Sys2Proof.Safety
end

