-- ==== Sys2Proof/Certificates/Slice0/Obligations.lean ====
section
/-! DEFINITION. The statements for the provers. Each names the rules of spec/ it comes from; `expect` and `basis` stand in
OBLIGATIONS.json. Where a statement rests on a choice of the model or on an inference the spec marks as its own, its docstring
says so. -/

open Sys2Proof Sys2Proof.Machine Sys2Proof.Safety

/-! ## Encoding -/

/-- Words of the encoding table of spec/95_test_vectors.md section 2.1 and of R110 decode to the operations they stand for. -/
def Obligations.SpecWordsDecode : Prop :=
  decode (CycleRecord.ofWord 0x0001) = .ok [.reset false]
    ∧ decode (CycleRecord.ofWord 0x0006) = .ok [.sinkXfer 0 0 false]
    ∧ decode (CycleRecord.ofWord 0x0008) = .ok [.srcStall]
    ∧ decode (CycleRecord.ofWord 0x601C) = .ok [.srcXfer, .pathTake false, .srcOffer]
    ∧ decode { CycleRecord.ofWord 0x0A44 with cfgValue := 1 } = .ok [.cfgBypass 2 1]
    ∧ decode { CycleRecord.ofWord 0x01E4 with coefAddr := 3, coefData := 0x3FFFF, cfgValue := 1 }
        = .ok [.cfgMaccTrunc 0 1, .coefWrite 3 0x3FFFF]
    ∧ decode (CycleRecord.ofWord 0x03C4) = .ok [.cfgReserved 7 0 0]
    ∧ decode (CycleRecord.ofWord 0x1001) = .ok [.reset false, .statusRead]
    ∧ decode (CycleRecord.ofWord 0x0013) = .ok [.reset false]
    ∧ decode (CycleRecord.ofWord 0x0000) = .ok []
    ∧ decode (CycleRecord.ofWord 0x8000) = .error .reservedBit15
    ∧ decodeRecord (.edge false) = .ok [.cegFastEdge]
    ∧ decodeRecord (.edge true) = .ok [.cegCommonEdge]

/-- Decoding the record of a well-formed operation gives that operation alone, with every operand. An internal row has no bits
of its own: its record is a take's (R123). -/
def Obligations.EncodeThenDecode : Prop :=
  ∀ (p : Params) (i : Instr), i.WellFormed p →
    (i.isInternal = false → decodeRecord (encode i) = .ok [i])
      ∧ (i.isInternal = true → ∃ l, decodeRecord (encode i) = .ok [.pathTake l])

/-- R124: a word with bit 15 set is refused by the decoder, and the model gives it no step. -/
def Obligations.ReservedBitSpellsNoCycle : Prop :=
  ∀ (s : State) (r : CycleRecord) (rest : List Record), s.par.WellFormed → s.records = .cycle r :: rest →
    Word.reserved r.w = true →
      decode r = .error .reservedBit15
        ∧ (∀ t, step s ≠ .next t)
        ∧ (NoFault s → step s = .refused (.reservedBit15 s.cycle))

/-- R126: in a reset cycle sink_valid, src_ready, take and offer select no operation and change nothing, so the step is the
same whatever they and the sink's data are; coef_we, cfg_we and sts_rd keep their meaning. Mask 0x9FE1 keeps every bit of W
but those four and the two output bits. -/
def Obligations.ResetCycleIgnoresStreamLines : Prop :=
  (∀ (r : CycleRecord) (ops : List Instr), Word.rst r.w = true → decode r = .ok ops →
      (∀ i ∈ ops, isStreamOperation i = false)
        ∧ (Word.coefWe r.w = true → .coefWrite r.coefAddr r.coefData ∈ ops)
        ∧ (Word.cfgWe r.w = true → ∃ i ∈ ops, isConfigWrite i = true)
        ∧ (Word.stsRd r.w = true → .statusRead ∈ ops))
    ∧ ∀ (s : State) (r r' : CycleRecord) (rest : List Record), Word.rst r.w = true →
        r'.w &&& 0x9FE1#16 = r.w &&& 0x9FE1#16 → r'.coefAddr = r.coefAddr → r'.coefData = r.coefData →
        r'.cfgValue = r.cfgValue → r'.rready = r.rready →
          step { s with records := .cycle r' :: rest } = step { s with records := .cycle r :: rest }

/-- The last sentence of R115: a cycle writes at most one configuration field; it selects a configuration write exactly when
cfg_we is 1. -/
def Obligations.OneConfigurationWritePerCycle : Prop :=
  ∀ (r : CycleRecord) (ops : List Instr), decode r = .ok ops →
    (ops.filter isConfigWrite).length = (Word.cfgWe r.w).toNat

/-! ## The step -/

/-- A step runs the decoded operations: after the record is taken off the queue and the outputs are driven (`openCycle`), each
selected operation is run by exec in order, and the cycle ends with the registers' load (`closeCycle`, `latch`). For one
selected operation that is one exec; for a generator record it is exec of the edge, which is a common edge exactly in the fast
cycles whose number N divides (R151): any other record is refused (R385, log entry 13). -/
def Obligations.StepRunsDecodedOperations : Prop :=
  ∀ (s : State) (rest : List Record), s.par.WellFormed →
    (∀ (r : CycleRecord) (ops : List Instr), s.records = .cycle r :: rest → NoFault s →
      decode (completeRecord s r) = .ok ops → (Word.rst r.w = true ∨ s.fir.unreset = false) →
        step s = closeCycle (runOps ops (openCycle s r rest))
          ∧ ∀ i, ops = [i] → step s = closeCycle (exec i (openCycle s r rest)))
      ∧ ∀ e, s.records = .edge e :: rest →
          (e = decide (s.fast % s.par.ratio = 0) → step s = exec (decodeEdge e) (openEdge s rest))
            ∧ (e ≠ decide (s.fast % s.par.ratio = 0) → step s = .refused (.clockRatio s.fast))

/-- The machine's cycle is one function of σ and the record (`refCycle`), written after the pseudocode of R250, R220 and R361:
every operation that a record selects, run over σ and σ', gives that function's next state, and touches neither the generator
nor the parameters. Two choices of the model stand in that function: the record of a StructuralWriteInFlight for fir_enable
names no stage (log entry 16), and the fault set is a list in the order configuration, coefficient, take (log entry 29). -/
def Obligations.CycleRefinesReference : Prop :=
  ∀ (s : State) (r : CycleRecord) (rest : List Record), s.par.WellFormed → NoFault s → s.records = .cycle r :: rest →
    Word.reserved r.w = false →
      ∃ t, step s = .next t ∧ t.fir = refCycle s.par s.fir r s.cycle ∧ Between t ∧ t.cycle = s.cycle + 1
        ∧ t.records = rest ∧ t.par = s.par ∧ t.ceg = s.ceg ∧ t.fast = s.fast

/-- From R332: a cycle that raises a fault has no other effect, a faulted state has no next state for any cycle record, and
every fault of the cycle is recorded: those of the configuration write, the coefficient write and the take, each checked
against σ (`refFaults`). That the faults stand in this order is the model's choice (log entry 29), and so is that the record of
a StructuralWriteInFlight for fir_enable names no stage (log entry 16). -/
def Obligations.FaultsAreStickyAndFinal : Prop :=
  ∀ (s : State) (r : CycleRecord) (rest : List Record), s.par.WellFormed → s.records = .cycle r :: rest →
    (¬ NoFault s → step s = .fault .faulted)
      ∧ (NoFault s → ∀ t, step s = .next t → ¬ NoFault t → t.fir = { s.fir with faults := t.fir.faults })
      ∧ (NoFault s → (Word.rst r.w = true ∨ s.fir.unreset = false) → ∀ t, step s = .next t →
          t.fir.faults = (refFaults s.par s.fir r).map fun k => ⟨k, s.cycle⟩)

/-- A parameter set that fails a check gives no machine (R10, R334), and the checks are those of R10 with the value that R9
gives COEF_BASE[0] when S = 1 (log entry 19). -/
def Obligations.ParameterChecksAreElaboration : Prop :=
  (∀ s : State, ¬ s.par.WellFormed → ∃ c, s.par.failedCheck = some c ∧ step s = .refused (.elaboration c))
    ∧ ∀ p : Params, p.WellFormed ↔
        (p.numStages = 1 ∨ p.numStages = 3)
          ∧ (∀ i, i < p.numStages → 2 ≤ p.inWidth i ∧ 2 ≤ p.outWidth i ∧ p.coefBase i < 2 ^ p.lenLog2)
          ∧ (∀ i, i + 1 < p.numStages → p.outWidth i ≤ p.inWidth (i + 1))
          ∧ 2 ≤ p.coefWidth ∧ 1 ≤ p.decWidth ∧ 1 ≤ p.opsWidth ∧ 1 ≤ p.truncWidth
          ∧ (∀ a, p.accWidth = some a → 2 ≤ a)
          ∧ 1 ≤ p.inDepth ∧ 1 ≤ p.pathCap ∧ 1 ≤ p.ratio
          ∧ (p.numStages = 1 → p.coefBase 0 = 0)

/-! ## Invariants -/

/-- The state after reset meets the invariant, and so does every power-on state with N shift-register bits, whatever its
stream state and the generator's bits. State.reset's parameter set and generator bits are the model's choice (log entries 1
to 3). -/
def Obligations.ResetMeetsInvariant : Prop :=
  Inv State.reset
    ∧ ∀ (p : Params) (stream : Fir) (g : Ceg), p.WellFormed → g.sr.length = p.ratio → Inv (State.powerOn p stream g)

/-- Every step keeps the invariant: the memory stays canonical and its cells in range, every configuration field fits, the
queues fit their capacities and their samples the port widths, an offer has something to offer, a stage's phase counts its
inputs modulo D, its history holds IW[i]-bit pairs, the shift register keeps N bits (R32, R33, R41, R42, R45, R46, R47, R52);
and, counted from fast cycle 0, the generator's combinational signal and each bit of its shift register tell which of the last
fast cycles began with a common edge (R156, R157, inferences of the spec). -/
def Obligations.StepKeepsInvariant : Prop :=
  ∀ s t : State, Inv s → step s = .next t → Inv t

/-- R9: no elaboration parameter changes while the machine runs. -/
def Obligations.StepKeepsParameters : Prop :=
  ∀ s t : State, step s = .next t → t.par = s.par

/-- The FIR block and the generator share no state (R32, R343): a cycle record leaves the generator as it is and does not
depend on it, and a generator record of the clock ratio (R151) leaves the FIR block as it is and does not depend on it, faulted
or not. -/
def Obligations.AgentsAreIndependent : Prop :=
  (∀ (s t : State) (r : CycleRecord) (rest : List Record) (g : Ceg) (n : Nat), s.records = .cycle r :: rest →
      step s = .next t → t.ceg = s.ceg ∧ t.fast = s.fast
        ∧ step { s with ceg := g, fast := n } = .next { t with ceg := g, fast := n })
    ∧ ∀ (s : State) (e : Bool) (rest : List Record) (f : Fir), s.par.WellFormed → s.records = .edge e :: rest →
        e = decide (s.fast % s.par.ratio = 0) → ∃ t, step s = .next t ∧ t.fir = s.fir ∧ t.cycle = s.cycle
          ∧ step { s with fir := f } = .next { t with fir := f }

/-! ## Reset -/

/-- From power-on, whatever the unspecified stream state and the generator's bits, one reset cycle without writes gives the
after-reset column of R54, with the drawn ready on sink ready (R361, R365); State.reset is that state for the parameter set
P0, the draw 0 and generator bits 0 (log entries 1 to 3). -/
def Obligations.PowerOnThenResetGivesResetState : Prop :=
  (∀ (p : Params) (stream : Fir) (g : Ceg) (rready : Bool), p.WellFormed →
      step (withRecord (State.powerOn p stream g) (encode (.reset rready)))
        = .next (State.idleWith p (Fir.afterReset p) g 1 (Ports.inReset rready)))
    ∧ State.reset = State.idleWith Params.p0 (Fir.afterReset Params.p0) ⟨false, false, List.replicate 3 false⟩ 1
        (Ports.inReset false)

/-- R361: the outputs and the next state of a reset cycle, with the writes of the control plane in it, which skip their hazard
checks; only the encoding checks of the configuration write can fault. -/
def Obligations.ResetCycleRule : Prop :=
  ∀ (s : State) (r : CycleRecord) (rest : List Record), s.par.WellFormed → NoFault s → s.records = .cycle r :: rest →
    Word.reserved r.w = false → Word.rst r.w = true →
      ∃ t, step s = .next t
        ∧ t.ports = ⟨some r.rready, some false, none, some false, none, if Word.stsRd r.w then some false else none⟩
        ∧ match (if Word.cfgWe r.w then refCfgFault s.par s.fir false r else none) with
          | some k => t.fir = withFaults s.fir [⟨k, s.cycle⟩]
          | none =>
            t.fir.inbuf = [] ∧ t.fir.pending = [] ∧ t.fir.offered = false ∧ t.fir.ovf = false
              ∧ t.fir.prevReady = false ∧ t.fir.st = List.replicate s.par.numStages StageSt.start
              ∧ t.fir.fresh = true ∧ t.fir.unreset = false ∧ t.fir.faults = []
              ∧ t.fir.mem = (if Word.coefWe r.w then
                    memWrite s.fir.mem (r.coefAddr % 2 ^ s.par.lenLog2) (sext s.par.coefWidth r.coefData) else s.fir.mem)
              ∧ (Word.cfgWe r.w = false → t.fir.cfg = s.fir.cfg ∧ t.fir.firEnable = s.fir.firEnable)
              ∧ (∀ field, Word.cfgWe r.w = true → fieldOfCode (Word.cfgField r.w) = some field →
                  t.fir.cfg = (storeCfg field (Word.cfgStage r.w).toNat r.cfgValue s.fir).cfg
                    ∧ t.fir.firEnable = (storeCfg field (Word.cfgStage r.w).toNat r.cfgValue s.fir).firEnable)

/-- R362, an inference of the spec: a second reset cycle without writes gives the same state again. -/
def Obligations.HeldResetChangesNothing : Prop :=
  ∀ (s t u : State) (a b : Bool), s.par.WellFormed → NoFault s →
    step (withRecord s (encode (.reset a))) = .next t → step (withRecord t (encode (.reset b))) = .next u → u.fir = t.fir

/-- R363, an inference of the spec: in the first cycle with reset deasserted after a reset cycle, sink ready is 1, source valid
0 and the status output 0, and the cycle cannot set the OverflowFlag, whatever its record. -/
def Obligations.ReleaseOfReset : Prop :=
  ∀ (s t u : State) (a : Bool) (r : CycleRecord), s.par.WellFormed → NoFault s → Word.rst r.w = false →
    step (withRecord s (encode (.reset a))) = .next t → step (withRecord t (.cycle r)) = .next u →
      u.ports.sinkReady = some true ∧ u.ports.srcValid = some false ∧ u.ports.ovf = some false ∧ u.fir.ovf = false

/-- R49: unreset is 1 at power-on, a cycle with reset deasserted while it is 1 raises NotReset and does nothing else, the first
reset cycle clears it, and it is never set again. -/
def Obligations.CycleBeforeFirstResetFaults : Prop :=
  (∀ (p : Params) (stream : Fir) (g : Ceg), (State.powerOn p stream g).fir.unreset = true)
    ∧ (∀ (s : State) (r : CycleRecord) (rest : List Record), s.par.WellFormed → NoFault s → s.records = .cycle r :: rest →
        Word.reserved r.w = false → s.fir.unreset = true →
          (Word.rst r.w = false →
            ∃ t, step s = .next t ∧ t.fir = withFaults s.fir [⟨.notReset s.cycle, s.cycle⟩])
            ∧ (Word.rst r.w = true → ∀ t, step s = .next t → NoFault t → t.fir.unreset = false))
    ∧ ∀ s t : State, NoFault s → s.fir.unreset = false → step s = .next t → t.fir.unreset = false

/-- RESET as one operation of a cycle (R361): σ' loses buffers, flag, histories and offer, and keeps configuration, memory and
faults; sink ready is the draw, source valid low, the status output 0. -/
def Obligations.ResetOperationClearsStream : Prop :=
  ∀ (rready : Bool) (s : State),
    exec (.reset rready) s = .next
      { s with
        nxt := { s.nxt with
          inbuf := [], pending := [], offered := false, ovf := false, prevReady := false, fresh := true
          unreset := false, st := List.replicate s.par.numStages ⟨[], 0⟩ }
        ports := ⟨some rready, some false, none, some false, s.ports.delivered, s.ports.status⟩ }

/-! ## The stream -/

/-- R251 and R257 over a whole cycle: what the block drives on sink ready and on the source, from the state at the cycle's
start and, in a reset cycle, from the draw; whatever else the cycle does. -/
def Obligations.DrivenOutputs : Prop :=
  ∀ (s : State) (r : CycleRecord) (rest : List Record), s.par.WellFormed → NoFault s → s.records = .cycle r :: rest →
    Word.reserved r.w = false →
      (Word.rst r.w = false → s.fir.unreset = false →
        ∃ t, step s = .next t ∧ t.ports.sinkReady = some (decide (s.fir.inbuf.length < s.par.inDepth))
          ∧ t.ports.srcValid = some s.fir.offered
          ∧ ∀ (x : Sample) (q : List Sample), s.fir.offered = true → s.fir.pending = x :: q →
              t.ports.src = some
                ⟨(BitVec.ofInt s.par.sourceWidth x.re).toNat, (BitVec.ofInt s.par.sourceWidth x.im).toNat, x.last⟩)
        ∧ (Word.rst r.w = true →
            ∃ t, step s = .next t ∧ t.ports.sinkReady = some r.rready ∧ t.ports.srcValid = some false)

/-- SINK_XFER (R252, R118): the transferred sample, with its parts read as two's complement, joins the tail of the input
buffer; nothing else changes. -/
def Obligations.SinkTransferAppendsSample : Prop :=
  ∀ (re im : Nat) (last : Bool) (s : State),
    exec (.sinkXfer re im last) s = .next
      { s with nxt := { s.nxt with
          inbuf := s.nxt.inbuf ++
            [⟨(BitVec.ofNat s.par.sinkWidth re).toInt, (BitVec.ofNat s.par.sinkWidth im).toInt, last⟩] } }

/-- SINK_STALL (R253) changes nothing; and where the producer keeps its hold duty (R373), a cycle after the stall with reset
deasserted and ready high transfers the very sample that stalled. -/
def Obligations.SinkStallChangesNothing : Prop :=
  (∀ s : State, exec .sinkStall s = .next s)
    ∧ ∀ (stalled next : CycleRecord) (ops : List Instr), HoldDuty stalled next → Word.rst next.w = false →
        Word.sinkReady next.w = true → decode next = .ok ops →
          .sinkXfer stalled.sinkRe stalled.sinkIm stalled.sinkLast ∈ ops

/-- SRC_XFER (R259): the oldest pending output leaves the queue and is handed to the consumer as OW_OUT-bit patterns; valid
falls unless SRC_OFFER raises it. -/
def Obligations.SourceTransferHandsOutHead : Prop :=
  ∀ (s : State) (x : Sample) (q : List Sample), s.fir.pending = x :: q → s.nxt.pending = x :: q →
    exec .srcXfer s = .next
      { s with
        nxt := { s.nxt with pending := q, offered := false }
        ports := { s.ports with
          delivered := some ⟨(BitVec.ofInt s.par.sourceWidth x.re).toNat, (BitVec.ofInt s.par.sourceWidth x.im).toNat, x.last⟩ } }

/-- SRC_STALL (R260) and SRC_OFFER (R258): a stall holds the offer; an offer is raised exactly where σ' has something pending;
nothing else changes. So in an infinite admitted run that is fair (R265, R385) and in which, from some cycle on, something is
pending at the start of every cycle, the block offers in some later cycle. (Fair asks infinitely many cycles of the block: log
entry 32.) -/
def Obligations.StallHoldsAndOfferRaisesValid : Prop :=
  (∀ s : State,
    exec .srcStall s = .next { s with nxt := { s.nxt with offered := true } }
      ∧ (s.nxt.pending ≠ [] → exec .srcOffer s = .next { s with nxt := { s.nxt with offered := true } })
      ∧ (s.nxt.pending = [] → exec .srcOffer s = .next s))
    ∧ ∀ (inputs : Nat → Record) (states : Nat → State) (n : Nat), IsAdmitted inputs states ⊤ → Fair inputs states →
        EveryCycleFrom inputs states n (fun s _ => s.fir.pending ≠ []) →
          SomeCycleFrom inputs states n fun s _ => s.fir.offered = true

/-- PATH_TAKE of the disabled block (R256, R223): the head of the input buffer goes unchanged to the pending queue, no stage
changes. A take that is not enabled has no effect (R127). -/
def Obligations.TakeOfDisabledBlockPassesSample : Prop :=
  ∀ (olast : Bool) (s : State),
    (∀ (x : Sample) (q : List Sample), s.fir.inbuf = x :: q → s.nxt.inbuf = x :: q →
        s.fir.pending.length < s.par.pathCap → s.fir.firEnable = false → s.par.sinkWidth ≤ s.par.sourceWidth →
          exec (.pathTake olast) s = .next
            { s with nxt := { s.nxt with inbuf := q, fresh := false, pending := s.nxt.pending ++ [x] }, path := [] })
      ∧ ((s.fir.inbuf = [] ∨ s.par.pathCap ≤ s.fir.pending.length) → exec (.pathTake olast) s = .next s)

/-- PATH_TAKE of an enabled take (R256, R220): where PATH as one function (`refPath`) gives an output or none and the next
stage states, the take removes the head, adds the output to the pending queue, stores the stage states, and changes nothing
else; where PATH faults, the fault is raised and nothing joins the pending queue. -/
def Obligations.TakeRunsPath : Prop :=
  ∀ (olast : Bool) (s : State) (x : Sample) (q : List Sample), s.fir.inbuf = x :: q → s.nxt.inbuf = x :: q →
    s.fir.pending.length < s.par.pathCap → s.nxt.st = s.fir.st →
      (∀ out sts, refPath s.par s.fir olast x = .ok (out, sts) →
        exec (.pathTake olast) s = .next
          { s with
            nxt := { s.nxt with inbuf := q, fresh := false, pending := s.nxt.pending ++ out.toList, st := sts }
            path := [] })
      ∧ ∀ e, refPath s.par s.fir olast x = .error e →
          ∃ t, exec (.pathTake olast) s = .next t ∧ t.raised = s.raised ++ [⟨e, s.cycle⟩] ∧ t.fir = s.fir
            ∧ t.nxt.pending = s.nxt.pending ∧ t.nxt.cfg = s.nxt.cfg ∧ t.nxt.mem = s.nxt.mem ∧ t.ports = s.ports

/-- Bypass identity for one take (R230, an inference of the spec, from R224 and R225): with the block enabled and every stage
bypassed and none narrowing, the taken sample is the output, values and last bit, and no stage changes. -/
def Obligations.TakeOfBypassedStagesIsIdentity : Prop :=
  ∀ (olast : Bool) (s : State) (x : Sample) (q : List Sample), s.fir.inbuf = x :: q → s.nxt.inbuf = x :: q →
    s.fir.pending.length < s.par.pathCap → s.fir.firEnable = true →
    (∀ i, i < s.par.numStages → (cfgOf s.fir i).bypass = some true ∧ s.par.inWidth i ≤ s.par.outWidth i) →
      exec (.pathTake olast) s = .next
        { s with nxt := { s.nxt with inbuf := q, fresh := false, pending := s.nxt.pending ++ [x] }, path := [] }

/-- R93 and R304 for a take: a take reads the configuration and the memory of σ, so writes of the same cycle that σ' already
holds neither change what it does nor are changed by it. -/
def Obligations.TakeIgnoresWritesOfItsCycle : Prop :=
  ∀ (olast : Bool) (s t : State) (cfg : List StageCfg) (mem : Memory) (enable : Bool),
    exec (.pathTake olast) s = .next t →
      exec (.pathTake olast) { s with nxt := { s.nxt with cfg := cfg, mem := mem, firEnable := enable } } = .next
        { t with nxt := { t.nxt with cfg := cfg, mem := mem, firEnable := enable } }

/-- Part of R229, an inference of the spec: a take adds at most one output to the pending queue. -/
def Obligations.AtMostOneOutputPerTake : Prop :=
  ∀ (olast : Bool) (s t : State), exec (.pathTake olast) s = .next t →
    ∃ out : List Sample, out.length ≤ 1 ∧ t.nxt.pending = s.nxt.pending ++ out

/-- R262 and R263: in every cycle with reset deasserted (after the first reset, raising no fault) the OverflowFlag becomes set
exactly when it was set or ready fell, and prev_ready becomes the ready of the cycle; a reset cycle sets prev_ready to 0. -/
def Obligations.OverflowFlagRule : Prop :=
  ∀ (s t : State) (r : CycleRecord) (rest : List Record), NoFault s → s.records = .cycle r :: rest →
    step s = .next t → NoFault t →
      (Word.rst r.w = false →
        t.fir.ovf = (s.fir.ovf || (s.fir.prevReady && !decide (s.fir.inbuf.length < s.par.inDepth)))
          ∧ t.fir.prevReady = decide (s.fir.inbuf.length < s.par.inDepth))
        ∧ (Word.rst r.w = true → t.fir.prevReady = false)

/-- R260 and R261 over a whole cycle (R261 an inference of the spec): an output that is offered and not transferred stays
offered, with the same sample at the queue's head, through every cycle with reset deasserted, whatever else the cycle does. -/
def Obligations.OfferedOutputIsHeld : Prop :=
  ∀ (s t : State) (r : CycleRecord) (rest : List Record) (x : Sample) (q : List Sample), NoFault s →
    s.records = .cycle r :: rest → Word.rst r.w = false → Word.srcReady r.w = false →
    s.fir.offered = true → s.fir.pending = x :: q → step s = .next t →
      t.fir.offered = true ∧ t.fir.pending.head? = some x

/-! ## The path -/

/-- DISABLED_PASS (R223): it is what a take runs while the block is disabled; the sample on the path passes unchanged and no
state changes; with OW_OUT < IW_IN the fault DisabledNarrowing ends the take. -/
def Obligations.DisabledPassKeepsSample : Prop :=
  ∀ s : State,
    (s.fir.firEnable = false → ∀ olast, exec .disabledPass s = .next (runPath olast s)) ∧
    (s.par.sinkWidth ≤ s.par.sourceWidth → exec .disabledPass s = .next s)
      ∧ (s.par.sourceWidth < s.par.sinkWidth → exec .disabledPass s = .next
          { s with raised := s.raised ++ [⟨.disabledNarrowing s.par.sinkWidth s.par.sourceWidth, s.cycle⟩], path := [] })

/-- STAGE_BYPASS (R224): it is what a take runs where it reaches a bypassed stage; the sample on the path passes unchanged,
with its last bit, and the stage does not change; a bypass that narrows is the fault BypassNarrowing. -/
def Obligations.StageBypassKeepsSample : Prop :=
  ∀ (i : Nat) (s : State) (v : Sample), s.path = [v] →
    ((cfgOf s.fir i).bypass = some true → ∀ olast, exec (.stageBypass i) s = .next (pathStage olast s i)) ∧
    (s.par.inWidth i ≤ s.par.outWidth i → exec (.stageBypass i) s = .next s)
      ∧ (s.par.outWidth i < s.par.inWidth i → exec (.stageBypass i) s = .next
          { s with raised := s.raised ++ [⟨.bypassNarrowing i (s.par.inWidth i) (s.par.outWidth i), s.cycle⟩], path := [] })

/-- R228: a stage that receives nothing in a take changes nothing. -/
def Obligations.StageReceivingNothingIsIdle : Prop :=
  ∀ (i : Nat) (olast : Bool) (s : State), s.path = [] →
    exec (.stageBypass i) s = .next s ∧ exec (.stageConsume i olast) s = .next s ∧ pathStage olast s i = s

/-- R227: the last bit of a sample has no effect on what a stage does with it. -/
def Obligations.LastBitHasNoEffect : Prop :=
  ∀ (i : Nat) (olast a b : Bool) (s : State) (v : Iq),
    exec (.stageConsume i olast) { s with path := [v.sample a] } = exec (.stageConsume i olast) { s with path := [v.sample b] }

/-! ## The FIR stage -/

/-- R183: the checks when a stage consumes a sample, in their order: the first that fails is raised and ends the take, and
nothing else happens; when all pass, the stage goes on with D and K = 2U - odd. -/
def Obligations.ConsumeChecksInOrder : Prop :=
  ∀ (i : Nat) (olast : Bool) (s : State) (v : Sample), s.path = [v] →
    let faultsWith (k : FaultKind) : Prop := exec (.stageConsume i olast) s = .next
      { s with raised := s.raised ++ [⟨k, s.cycle⟩], path := [] }
    ((cfgOf s.fir i).dec = none → faultsWith (.readUnwrittenConfig i .dec))
      ∧ ∀ d, (cfgOf s.fir i).dec = some d →
          ((cfgOf s.fir i).opsm1 = none → faultsWith (.readUnwrittenConfig i .opsm1))
            ∧ ∀ u, (cfgOf s.fir i).opsm1 = some u →
                ((cfgOf s.fir i).odd = none → faultsWith (.readUnwrittenConfig i .odd))
                  ∧ ∀ o, (cfgOf s.fir i).odd = some o →
                      (d = 0 → faultsWith (.zeroDecimation i))
                        ∧ (0 < d → 2 ^ s.par.lenLog2 < s.par.coefBase i + (2 * (u + 1) - o.toNat) * d →
                            faultsWith (.coefRangeExceedsMemory i (s.par.coefBase i + (2 * (u + 1) - o.toNat) * d)))
                        ∧ (0 < d → s.par.coefBase i + (2 * (u + 1) - o.toNat) * d ≤ 2 ^ s.par.lenLog2 →
                            consumeChecks s.par s.fir i = .ok ⟨d, 2 * (u + 1) - o.toNat⟩)

/-- STAGE_CONSUME (R184): it is what a take runs where it reaches a stage that is not bypassed; the sample joins the history; within a group the phase counts on and nothing leaves the stage; the
D-th sample of a group sets the phase to 0 and the stage's output, with the drawn last bit (R226), goes on the path; a fault
of the checks or of the output is raised and ends the take. -/
def Obligations.StageConsumeRule : Prop :=
  ∀ (i : Nat) (olast : Bool) (s : State) (v : Sample), s.path = [v] →
    ((cfgOf s.fir i).bypass = some false → exec (.stageConsume i olast) s = .next (pathStage olast s i)) ∧
    (∀ e, consumeChecks s.par s.fir i = .error e → exec (.stageConsume i olast) s = .next
        { s with raised := s.raised ++ [⟨e, s.cycle⟩], path := [] })
      ∧ ∀ h, consumeChecks s.par s.fir i = .ok h →
          ((stOf s.fir i).phase + 1 ≠ h.dec → exec (.stageConsume i olast) s = .next
              { s with
                nxt := { s.nxt with
                  st := s.nxt.st.set i ⟨(stOf s.fir i).hist ++ [⟨v.re, v.im⟩], (stOf s.fir i).phase + 1⟩ }
                path := [] })
            ∧ ((stOf s.fir i).phase + 1 = h.dec →
                (∀ y, firOutput s.par s.fir i ((stOf s.fir i).hist ++ [⟨v.re, v.im⟩]) = .ok y →
                  exec (.stageConsume i olast) s = .next
                    { s with
                      nxt := { s.nxt with st := s.nxt.st.set i ⟨(stOf s.fir i).hist ++ [⟨v.re, v.im⟩], 0⟩ }
                      path := [⟨y.re, y.im, olast⟩] })
                  ∧ ∀ e, firOutput s.par s.fir i ((stOf s.fir i).hist ++ [⟨v.re, v.im⟩]) = .error e →
                      ∃ t, exec (.stageConsume i olast) s = .next t ∧ t.raised = s.raised ++ [⟨e, s.cycle⟩] ∧ t.path = [])

/-- FIR_OUTPUT (R186, with R187 to R191): with D, K = 2U - odd and t from the stage's configuration, coefficients c(0), ...,
c(KD-1) in its cells, and accumulators that start at bias(t) and add c(kD+d) * x[n-kD-d] over the rows k of their parity and
all columns d, each part of the output is the clamped sum of the two accumulators, each shifted by t (floor division by 2^t)
and clamped; it goes on the path with the drawn last bit and nothing else changes. Premises: the fields and the cells are
written, and the accumulator-width check passes. -/
def Obligations.FirOutputComputesRoundedConvolution : Prop :=
  ∀ (i : Nat) (olast : Bool) (s : State) (d u t n : Nat) (o : Bool) (c : Nat → Int) (x : Int → Iq),
    (cfgOf s.fir i).dec = some d → (cfgOf s.fir i).opsm1 = some u → (cfgOf s.fir i).odd = some o →
    (cfgOf s.fir i).trunc = some t →
    (∀ m, m < (2 * (u + 1) - o.toNat) * d → memRead s.fir.mem (s.par.coefBase i + m) = some (c m)) →
    (stOf s.nxt i).hist.length = n + 1 →
    (∀ m : Int, m < 0 → x m = ⟨0, 0⟩) → (∀ m : Nat, m ≤ n → (stOf s.nxt i).hist[m]? = some (x m)) →
    (∀ a, s.par.accWidth = some a → ∀ lane ∈ [Iq.re, Iq.im], ∀ q < 2,
      bias t + ∑ k ∈ (Finset.range (2 * (u + 1) - o.toNat)).filter (fun k => k % 2 = q), ∑ e ∈ Finset.range d,
        |c (k * d + e) * lane (x ((n : Int) - (k * d + e : Nat)))| ≤ 2 ^ (a - 1) - 1) →
      let acc (lane : Iq → Int) (q : Nat) : Int :=
        bias t + ∑ k ∈ (Finset.range (2 * (u + 1) - o.toNat)).filter (fun k => k % 2 = q), ∑ e ∈ Finset.range d,
          c (k * d + e) * lane (x ((n : Int) - (k * d + e : Nat)))
      let part (lane : Iq → Int) : Int :=
        clamp (s.par.outWidth i)
          (clamp (s.par.outWidth i) (acc lane 0 / 2 ^ t) + clamp (s.par.outWidth i) (acc lane 1 / 2 ^ t))
      exec (.firOutput i olast) s = .next { s with path := [⟨part Iq.re, part Iq.im, olast⟩] }

/-- FIR_OUTPUT's faults in the order of R186 and R333: macc_trunc unwritten, then the first unwritten cell of the read range in
the order of rows and columns (R187), then an accumulator's bound (R192); each is raised and ends the take. -/
def Obligations.FirOutputFaultsInOrder : Prop :=
  ∀ (i : Nat) (olast : Bool) (s : State) (h : Shape), shapeOf s.fir i = .ok h →
    ((cfgOf s.fir i).trunc = none → exec (.firOutput i olast) s = .next
        { s with raised := s.raised ++ [⟨.readUnwrittenConfig i .trunc, s.cycle⟩], path := [] })
      ∧ ∀ t, (cfgOf s.fir i).trunc = some t →
          (∀ m, m < h.rows * h.dec → memRead s.fir.mem (s.par.coefBase i + m) = none →
              (∀ l, l < m → memRead s.fir.mem (s.par.coefBase i + l) ≠ none) →
              exec (.firOutput i olast) s = .next
                { s with raised := s.raised ++ [⟨.readUnwrittenCoef (s.par.coefBase i + m), s.cycle⟩], path := [] })
            ∧ ∀ coefs, readCoefs s.fir.mem (s.par.coefBase i) (h.rows * h.dec) = .ok coefs →
                accOverflows s.par.accWidth h t coefs (stOf s.nxt i).hist ((stOf s.nxt i).hist.length - 1) = true →
                exec (.firOutput i olast) s = .next
                  { s with
                    raised := s.raised ++
                      [⟨.accOverflow i (((stOf s.nxt i).hist.length - 1) / h.dec), s.cycle⟩]
                    path := [] }

/-- The second half of R192: when the accumulator-width check passes, every partial sum of an accumulator, over any of its
terms (so in any order of addition), lies in the ACC_W-bit signed range. -/
def Obligations.AccumulatorCheckBoundsPartialSums : Prop :=
  ∀ (a t n q : Nat) (h : Shape) (coefs : List Int) (hist : List Iq) (lane : Iq → Int) (terms : Finset Nat), 2 ≤ a →
    lane ∈ [Iq.re, Iq.im] → q < 2 → accOverflows (some a) h t coefs hist n = false →
    (∀ m ∈ terms, m < h.rows * h.dec ∧ (m / h.dec) % 2 = q) →
      IsSigned a (bias t + ∑ m ∈ terms, product coefs hist lane n m)

/-- R193, an inference of the spec: the bias before the shift rounds to the nearest multiple of 2^t, halves toward plus
infinity. -/
def Obligations.BiasedShiftRoundsHalfUp : Prop :=
  ∀ (v : Int) (t : Nat), 1 ≤ t → asr (v + bias t) t = ⌊(v : ℚ) / 2 ^ t + 1 / 2⌋

/-- R194 and R195: with t = 0 no bias and no shift applies; and for one accumulator value after shifting, the other pair
contributing 0, the source's three boundary values clamp without wrapping. -/
def Obligations.SaturationBoundaries : Prop :=
  (bias 0 = 0 ∧ ∀ (v w : Int) (ow : Nat), asr v 0 = v ∧ laneOutput ow 0 v w = clamp ow (clamp ow v + clamp ow w))
    ∧ ∀ ow : Nat, 2 ≤ ow →
        laneOutput ow 0 (2 ^ (ow - 1)) 0 = 2 ^ (ow - 1) - 1
          ∧ laneOutput ow 0 (2 ^ (ow - 1) - 1) 0 = 2 ^ (ow - 1) - 1
          ∧ laneOutput ow 0 (-2 ^ (ow - 1) - 1) 0 = -2 ^ (ow - 1)

/-- R199, an inference of the spec: where nothing saturates, the sum of the two rounded pairs differs from the once-rounded
sum by at most 1, agrees with it for t = 0, and can differ from it. -/
def Obligations.PairRoundingWithinOne : Prop :=
  (∀ (a0 a1 : Int) (t : Nat),
      asr (a0 + bias t) t + asr (a1 + bias t) t - ⌊((a0 + a1 : Int) : ℚ) / 2 ^ t + 1 / 2⌋ ∈ ({-1, 0, 1} : Set Int))
    ∧ (∀ a0 a1 : Int, asr (a0 + bias 0) 0 + asr (a1 + bias 0) 0 = a0 + a1)
    ∧ asr (1 + bias 1) 1 + asr (1 + bias 1) 1 = 2 ∧ ⌊((1 + 1 : Int) : ℚ) / 2 ^ 1 + 1 / 2⌋ = 1

/-- R187: only the cells COEF_BASE[i] .. COEF_BASE[i] + KD - 1 affect an output; with odd = 1 the row 2U - 1 is not among
them. -/
def Obligations.CellsOutsideRangeNeverMatter : Prop :=
  ∀ (p : Params) (f : Fir) (i : Nat) (hist : List Iq) (h : Shape) (mem : Memory), shapeOf f i = .ok h →
    (∀ m, m < h.rows * h.dec → memRead mem (p.coefBase i + m) = memRead f.mem (p.coefBase i + m)) →
      firOutput p { f with mem := mem } i hist = firOutput p f i hist

/-- R200 and the draw of R226: whatever FIR_OUTPUT puts on the path is one OW[i]-bit signed pair with the drawn last bit, for
every history, configuration and memory. -/
def Obligations.OutputFitsWidth : Prop :=
  ∀ (i : Nat) (olast : Bool) (s : State), ∃ t, exec (.firOutput i olast) s = .next t ∧ t.path.length ≤ 1
    ∧ ∀ y ∈ t.path, SampleFits (s.par.outWidth i) y ∧ y.last = olast

/-- R197: the lanes never mix: two histories with equal real parts give equal real parts of the output, and two with equal
imaginary parts equal imaginary parts; and both lanes are computed by the same operations with the same coefficients: the
history with its parts exchanged gives the output with its parts exchanged. -/
def Obligations.LanesNeverMix : Prop :=
  ∀ (p : Params) (f : Fir) (i : Nat) (hist hist' : List Iq) (y y' : Iq), firOutput p f i hist = .ok y →
    (firOutput p f i hist' = .ok y' →
      (hist.map Iq.re = hist'.map Iq.re → y.re = y'.re) ∧ (hist.map Iq.im = hist'.map Iq.im → y.im = y'.im))
      ∧ firOutput p f i (hist.map fun v => ⟨v.im, v.re⟩) = .ok ⟨y.im, y.re⟩

/-- R196, an inference of the spec: output j of a stage, computed at input n = jD + D - 1, reads an index below 0 exactly when
j < K - 1; such a read gives zero, so zeros before the inputs change no output; and an output whose window lies within the
inputs does not depend on older ones. -/
def Obligations.WarmUpOutputsReadZeroPrefix : Prop :=
  ∀ (p : Params) (f : Fir) (i : Nat) (h : Shape) (hist : List Iq) (y : Iq), shapeOf f i = .ok h → 1 ≤ h.dec → hist ≠ [] →
    (∀ j, hist.length = (j + 1) * h.dec →
        ((∃ m, m < h.rows * h.dec ∧ ((hist.length - 1 : Nat) : Int) - (m : Int) < 0) ↔ j < h.rows - 1))
      ∧ (∀ m, firOutput p f i (List.replicate m ⟨0, 0⟩ ++ hist) = .ok y ↔ firOutput p f i hist = .ok y)
      ∧ (h.rows * h.dec ≤ hist.length → ∀ older, firOutput p f i (older ++ hist) = .ok y ↔ firOutput p f i hist = .ok y)

/-! ## The control plane -/

/-- CFG_DECIMATION, CFG_OPS_M1, CFG_ODD_OPS and CFG_BYPASS (R292, R295, R301, R303 with R290, R120, R121 and R293), each
selected by its field code, with its bound and the stage configuration it stores: a stage code of no stage, then a value that does not fit, then in a cycle
with reset deasserted a write after the first take or in the cycle of a take, is the named fault and stores nothing; otherwise
the value is stored in the one field. -/
def Obligations.StructuralFieldWriteRule : Prop :=
  (∀ (r : CycleRecord) (ops : List Instr), decode r = .ok ops → Word.cfgWe r.w = true →
      (Word.cfgField r.w = 0 → .cfgDecimation (Word.cfgStage r.w) r.cfgValue ∈ ops)
        ∧ (Word.cfgField r.w = 1 → .cfgOpsM1 (Word.cfgStage r.w) r.cfgValue ∈ ops)
        ∧ (Word.cfgField r.w = 2 → .cfgOddOps (Word.cfgStage r.w) r.cfgValue ∈ ops)
        ∧ (Word.cfgField r.w = 4 → .cfgBypass (Word.cfgStage r.w) r.cfgValue ∈ ops))
  ∧ ∀ (s : State) (stage : BitVec 2) (v : Nat),
    ∀ c ∈ ([(.cfgDecimation stage v, .dec, 2 ^ s.par.decWidth, { cfgOf s.nxt stage.toNat with dec := some v }),
        (.cfgOpsM1 stage v, .opsm1, 2 ^ s.par.opsWidth, { cfgOf s.nxt stage.toNat with opsm1 := some v }),
        (.cfgOddOps stage v, .odd, 2, { cfgOf s.nxt stage.toNat with odd := some (decide (v = 1)) }),
        (.cfgBypass stage v, .bypass, 2, { cfgOf s.nxt stage.toNat with bypass := some (decide (v = 1)) })] :
          List (Instr × CfgField × Nat × StageCfg)),
      let faultsWith (k : FaultKind) : Prop := exec c.1 s = .next { s with raised := s.raised ++ [⟨k, s.cycle⟩] }
      (s.par.numStages ≤ stage.toNat → faultsWith (.configStageOutOfRange stage.toNat))
        ∧ (stage.toNat < s.par.numStages →
            (c.2.2.1 ≤ v → faultsWith (.configValueOutOfRange c.2.1 v))
              ∧ (v < c.2.2.1 →
                  (s.inReset = false → ¬ (s.fir.fresh = true ∧ s.doTake = false) →
                      faultsWith (.structuralWriteInFlight c.2.1 (some stage.toNat)))
                    ∧ ((s.inReset = true ∨ (s.fir.fresh = true ∧ s.doTake = false)) →
                        exec c.1 s = .next { s with nxt := { s.nxt with cfg := s.nxt.cfg.set stage.toNat c.2.2.2 } })))

/-- CFG_FIR_ENABLE (R296 with R290, R120 and R293), selected by field code 5: the stage code is ignored; a value above 1, then in a cycle with reset
deasserted a write after the first take or in the cycle of a take, is the named fault and stores nothing; otherwise the bit is
stored. (Which stage the record of the in-flight fault names is left open here: log entry 16.) -/
def Obligations.FirEnableWriteRule : Prop :=
  (∀ (r : CycleRecord) (ops : List Instr), decode r = .ok ops → Word.cfgWe r.w = true → Word.cfgField r.w = 5 →
      .cfgFirEnable (Word.cfgStage r.w) r.cfgValue ∈ ops)
  ∧ ∀ (s : State) (stage : BitVec 2) (v : Nat),
    (2 ≤ v → exec (.cfgFirEnable stage v) s = .next
        { s with raised := s.raised ++ [⟨.configValueOutOfRange .firEnable v, s.cycle⟩] })
      ∧ (v < 2 → s.inReset = false → ¬ (s.fir.fresh = true ∧ s.doTake = false) →
          ∃ named, exec (.cfgFirEnable stage v) s = .next
            { s with raised := s.raised ++ [⟨.structuralWriteInFlight .firEnable named, s.cycle⟩] })
      ∧ (v < 2 → (s.inReset = true ∨ (s.fir.fresh = true ∧ s.doTake = false)) →
          exec (.cfgFirEnable stage v) s = .next { s with nxt := { s.nxt with firEnable := decide (v = 1) } })

/-- CFG_MACC_TRUNC (R294 with R290, R120 and R121), selected by field code 3: a stage code of no stage, then a value that does not fit, then a write to
an active stage in a cycle with reset deasserted that is not idle, is the named fault and stores nothing; otherwise the amount
is stored. A stage is active when the block is enabled and its bypass is not 1; a cycle is idle when nothing is pending, every
phase is 0 and no take happens (R48). -/
def Obligations.MaccTruncWriteRule : Prop :=
  (∀ (r : CycleRecord) (ops : List Instr), decode r = .ok ops → Word.cfgWe r.w = true → Word.cfgField r.w = 3 →
      .cfgMaccTrunc (Word.cfgStage r.w) r.cfgValue ∈ ops)
  ∧ ∀ (s : State) (stage : BitVec 2) (v : Nat),
    let faultsWith (k : FaultKind) : Prop :=
      exec (.cfgMaccTrunc stage v) s = .next { s with raised := s.raised ++ [⟨k, s.cycle⟩] }
    let active := s.fir.firEnable = true ∧ (cfgOf s.fir stage.toNat).bypass ≠ some true
    let idle := s.fir.pending = [] ∧ (∀ st ∈ s.fir.st, st.phase = 0) ∧ s.doTake = false
    (s.par.numStages ≤ stage.toNat → faultsWith (.configStageOutOfRange stage.toNat))
      ∧ (stage.toNat < s.par.numStages →
          (2 ^ s.par.truncWidth ≤ v → faultsWith (.configValueOutOfRange .trunc v))
            ∧ (v < 2 ^ s.par.truncWidth →
                (s.inReset = false → active → ¬ idle → faultsWith (.truncWriteInFlight stage.toNat))
                  ∧ ((s.inReset = true ∨ ¬ active ∨ idle) → exec (.cfgMaccTrunc stage v) s = .next
                      { s with nxt := { s.nxt with
                          cfg := s.nxt.cfg.set stage.toNat { cfgOf s.nxt stage.toNat with trunc := some v } } })))

/-- R293 over a whole cycle: in a cycle with reset deasserted (after the first reset), a write of a structural field with a
legal stage code and value raises StructuralWriteInFlight with its field and stage, and the cycle stores nothing, unless the
path is fresh and no take happens in the cycle; where it is fresh and none happens, the field is stored unless another
operation of the cycle faults. (For fir_enable the stage that the record names is left open here: log entry 16.) -/
def Obligations.StructuralWriteInFlightFaults : Prop :=
  ∀ (s : State) (r : CycleRecord) (rest : List Record) (field : CfgField), s.par.WellFormed → NoFault s →
    s.records = .cycle r :: rest → Word.reserved r.w = false → Word.rst r.w = false → s.fir.unreset = false →
    Word.cfgWe r.w = true → fieldOfCode (Word.cfgField r.w) = some field → field ≠ .trunc →
    (field = .firEnable ∨ (Word.cfgStage r.w).toNat < s.par.numStages) → CfgFits s.par field r.cfgValue →
      let takes := Word.take r.w = true ∧ s.fir.inbuf ≠ [] ∧ s.fir.pending.length < s.par.pathCap
      ∃ t, step s = .next t
        ∧ (¬ (s.fir.fresh = true ∧ ¬ takes) →
            t.fir = { s.fir with faults := t.fir.faults }
              ∧ ∃ named, ⟨.structuralWriteInFlight field named, s.cycle⟩ ∈ t.fir.faults
                ∧ (field ≠ .firEnable → named = some (Word.cfgStage r.w).toNat))
        ∧ (s.fir.fresh = true → ¬ takes → NoFault t →
            t.fir.cfg = (storeCfg field (Word.cfgStage r.w).toNat r.cfgValue s.fir).cfg
              ∧ t.fir.firEnable = (storeCfg field (Word.cfgStage r.w).toNat r.cfgValue s.fir).firEnable)

/-- R305: the control plane is the only writer of the configuration and of the coefficient memory: a step without a
configuration write leaves every configuration field, and a step without a coefficient write every cell, as it was; no stage,
no reset and no fast cycle writes either. -/
def Obligations.OnlyControlPlaneWritesConfiguration : Prop :=
  ∀ (s t : State), step s = .next t →
    (∀ (r : CycleRecord) (rest : List Record), s.records = .cycle r :: rest →
        (Word.cfgWe r.w = false → t.fir.cfg = s.fir.cfg ∧ t.fir.firEnable = s.fir.firEnable)
          ∧ (Word.coefWe r.w = false → ∀ a, memRead t.fir.mem a = memRead s.fir.mem a))
      ∧ (∀ (e : Bool) (rest : List Record), s.records = .edge e :: rest →
          t.fir.cfg = s.fir.cfg ∧ t.fir.firEnable = s.fir.firEnable ∧ t.fir.mem = s.fir.mem)

/-- CFG_RESERVED (R125, R299): a configuration write with code 6 or 7 writes nothing and raises ReservedConfigField; over a
whole cycle it is recorded in reset cycles too, and the cycle changes nothing but the fault set. -/
def Obligations.ReservedConfigurationFieldFaults : Prop :=
  (∀ (code : BitVec 3) (stage : BitVec 2) (v : Nat) (s : State), exec (.cfgReserved code stage v) s = .next
      { s with raised := s.raised ++ [⟨.reservedConfigField code.toNat, s.cycle⟩] })
    ∧ ∀ (s : State) (r : CycleRecord) (rest : List Record), s.par.WellFormed → NoFault s → s.records = .cycle r :: rest →
        Word.reserved r.w = false → (Word.rst r.w = true ∨ s.fir.unreset = false) → Word.cfgWe r.w = true →
        (Word.cfgField r.w = 6 ∨ Word.cfgField r.w = 7) →
          ∃ t, step s = .next t ∧ t.fir = { s.fir with faults := t.fir.faults }
            ∧ ⟨.reservedConfigField (Word.cfgField r.w).toNat, s.cycle⟩ ∈ t.fir.faults

/-- COEF_WRITE (R297, R119): outside the hazard the coefficient, read as two's complement, is stored in its cell; that cell
then reads as the coefficient and every other cell as before; nothing else changes. -/
def Obligations.CoefficientWriteStores : Prop :=
  ∀ (s : State) (addr data : Nat), (s.inReset = true ∨ coefHazard (addr % 2 ^ s.par.lenLog2) s = false) →
    ∃ t, exec (.coefWrite addr data) s = .next t ∧ t = { s with nxt := { s.nxt with mem := t.nxt.mem } }
      ∧ memRead t.nxt.mem (addr % 2 ^ s.par.lenLog2) = some (BitVec.ofNat s.par.coefWidth data).toInt
      ∧ (∀ b, b ≠ addr % 2 ^ s.par.lenLog2 → memRead t.nxt.mem b = memRead s.nxt.mem b)
      ∧ (s.nxt.mem.wf → t.nxt.mem.wf)

/-- R298: a coefficient write in a cycle with reset deasserted faults with CoefWriteInFlight and writes nothing exactly when
some active stage's read range holds the address and the cycle is not idle; the range is [COEF_BASE[i], COEF_BASE[i] + KD)
when dec, opsm1 and odd are written, else every address. -/
def Obligations.CoefficientWriteHazard : Prop :=
  ∀ (s : State) (addr data : Nat), s.inReset = false →
    let a := addr % 2 ^ s.par.lenLog2
    let reads (i : Nat) : Prop :=
      ∀ d u o, (cfgOf s.fir i).dec = some d → (cfgOf s.fir i).opsm1 = some u → (cfgOf s.fir i).odd = some o →
        s.par.coefBase i ≤ a ∧ a < s.par.coefBase i + (2 * (u + 1) - o.toNat) * d
    let hazard : Prop :=
      (∃ i, i < s.par.numStages ∧ s.fir.firEnable = true ∧ (cfgOf s.fir i).bypass ≠ some true ∧ reads i)
        ∧ ¬ (s.fir.pending = [] ∧ (∀ st ∈ s.fir.st, st.phase = 0) ∧ s.doTake = false)
    (hazard → exec (.coefWrite addr data) s = .next { s with raised := s.raised ++ [⟨.coefWriteInFlight a, s.cycle⟩] })
      ∧ (¬ hazard → exec (.coefWrite addr data) s = .next
          { s with nxt := { s.nxt with mem := memWrite s.nxt.mem a (BitVec.ofNat s.par.coefWidth data).toInt } })

/-- STATUS_READ (R302, R86), selected by sts_rd: the value sampled is the OverflowFlag, 0 in a reset cycle; neither σ nor σ'
changes. -/
def Obligations.StatusReadSamplesFlag : Prop :=
  (∀ (r : CycleRecord) (ops : List Instr), decode r = .ok ops → (.statusRead ∈ ops ↔ Word.stsRd r.w = true))
  ∧ ∀ s : State,
    (s.inReset = false → exec .statusRead s = .next { s with ports := { s.ports with status := some s.fir.ovf } })
      ∧ (s.inReset = true → exec .statusRead s = .next { s with ports := { s.ports with status := some false } })

/-! ## The CommonEdgeGenerator -/

/-- CEG_FAST_EDGE (R152): the toggle bit holds, the fast register samples it, the combinational signal of the previous cycle
enters the shift register, which shifts by one; nothing else changes. It is the operation of the record E = 0. -/
def Obligations.FastEdgeRule : Prop :=
  decodeEdge false = .cegFastEdge
    ∧ ∀ s : State, 1 ≤ s.par.ratio → s.ceg.sr.length = s.par.ratio →
        ∃ g : Ceg, exec .cegFastEdge s = .next { s with ceg := g } ∧ g.t = s.ceg.t ∧ g.tq = s.ceg.t
          ∧ g.sr.length = s.par.ratio ∧ g.sr[0]? = some (s.ceg.t ^^ s.ceg.tq)
          ∧ ∀ k, 1 ≤ k → k < s.par.ratio → g.sr[k]? = s.ceg.sr[k - 1]?

/-- CEG_COMMON_EDGE (R153): as a fast edge, and the toggle bit flips; the fast register samples its value before the edge. -/
def Obligations.CommonEdgeRule : Prop :=
  decodeEdge true = .cegCommonEdge
    ∧ ∀ s : State, 1 ≤ s.par.ratio → s.ceg.sr.length = s.par.ratio →
        ∃ g : Ceg, exec .cegCommonEdge s = .next { s with ceg := g } ∧ g.t = !s.ceg.t ∧ g.tq = s.ceg.t
          ∧ g.sr.length = s.par.ratio ∧ g.sr[0]? = some (s.ceg.t ^^ s.ceg.tq)
          ∧ ∀ k, 1 ≤ k → k < s.par.ratio → g.sr[k]? = s.ceg.sr[k - 1]?

/-- R156 and R157, inferences of the spec from R152 to R155: driven by a well-formed clock pair from any power-on bits, after
the edge of fast cycle f the combinational signal is 1 exactly when N divides f; from fast cycle N on the output is 1 exactly
when N divides f, and before it the output shows the power-on bits. -/
def Obligations.GeneratorPulsesEveryNCycles : Prop :=
  ∀ (s : State) (f : Nat), s.par.WellFormed → s.ceg.sr.length = s.par.ratio →
    ∃ t, core.run (f + 1) { s with records := clockRecords s.par.ratio (f + 1), fast := 0 } = .next t
      ∧ commonEdgeSignal t.ceg = decide (f % s.par.ratio = 0)
      ∧ (s.par.ratio ≤ f → generatorOutput s.par.ratio t.ceg = decide (f % s.par.ratio = 0))
      ∧ (f + 2 ≤ s.par.ratio → some (generatorOutput s.par.ratio t.ceg) = s.ceg.sr[s.par.ratio - 2 - f]?)
      ∧ (f + 1 = s.par.ratio → generatorOutput s.par.ratio t.ceg = (s.ceg.t ^^ s.ceg.tq))

/-- R158, an inference of the spec: from fast cycle N on, any N fast cycles in a row hold exactly one pulse of the output, and
a pulse stands in a cycle whose number N divides. -/
def Obligations.OnePulseInNCycles : Prop :=
  ∀ (s : State) (f : Nat), s.par.WellFormed → s.ceg.sr.length = s.par.ratio → s.par.ratio ≤ f →
    (∃! k, k < s.par.ratio ∧ ∃ t,
      core.run (f + k + 1) { s with records := clockRecords s.par.ratio (f + k + 1), fast := 0 } = .next t
        ∧ generatorOutput s.par.ratio t.ceg = true)
      ∧ ∀ (k : Nat) (t : State),
          core.run (f + k + 1) { s with records := clockRecords s.par.ratio (f + k + 1), fast := 0 } = .next t →
          generatorOutput s.par.ratio t.ceg = true → (f + k) % s.par.ratio = 0
end

