-- ==== Sys2Proof/Laws/Arithmetic.lean ====
section
/-! SUPPORT. Ranges of the arithmetic primitives and of the operands, and the small lemmas of the accumulators. -/

namespace Sys2Proof.Machine

/-- A clamp gives a w-bit signed value. -/
theorem clamp_isSigned (w : Nat) (v : Int) : IsSigned w (clamp w v) := by
  have h : (1 : Int) ≤ ((2 ^ (w - 1) : Nat) : Int) := by exact_mod_cast Nat.one_le_two_pow
  unfold IsSigned clamp
  omega

/-- A clamp leaves a value that fits unchanged. -/
theorem clamp_of_isSigned {w : Nat} {v : Int} (h : IsSigned w v) : clamp w v = v := by
  unfold IsSigned at h
  unfold clamp
  omega

/-- A w-bit signed value is a w'-bit one for every wider w' (the widening of spec/43_cascade_and_bypass.md R225). -/
theorem IsSigned.widen {w w' : Nat} {v : Int} (h : IsSigned w v) (hw : w ≤ w') : IsSigned w' v := by
  have : (2 ^ (w - 1) : Nat) ≤ 2 ^ (w' - 1) := Nat.pow_le_pow_right (by omega) (by omega)
  unfold IsSigned at *
  omega

/-- The two's-complement value of a w-bit pattern is a w-bit signed value. -/
theorem sext_isSigned (w p : Nat) : IsSigned w (sext w p) := by
  have h₁ := BitVec.le_toInt (BitVec.ofNat w p)
  have h₂ := BitVec.toInt_lt (x := BitVec.ofNat w p)
  unfold IsSigned sext
  push_cast
  omega

@[simp] theorem asr_zero (v : Int) : asr v 0 = v := by simp [asr]

@[simp] theorem bias_zero : bias 0 = 0 := rfl

theorem asr_eq_ediv (v : Int) (t : Nat) : asr v t = v / 2 ^ t := by
  unfold asr
  rw [Int.fdiv_eq_ediv_of_nonneg _ (by positivity)]
  push_cast
  rfl

theorem bias_nonneg (t : Nat) : 0 ≤ bias t := by
  unfold bias
  split <;> simp

theorem inputAt_neg (hist : List Iq) {m : Int} (h : m < 0) : inputAt hist m = ⟨0, 0⟩ := if_pos h

theorem inputAt_nat (hist : List Iq) (m : Nat) : inputAt hist m = hist.getD m ⟨0, 0⟩ := by
  simp [inputAt]

/-- The coefficient sequence that readCoefs gives is the content of the cells, all written. -/
theorem readCoefs_ok {m : Memory} {base n : Nat} {cs : List Int} (h : readCoefs m base n = .ok cs) :
    cs.length = n ∧ ∀ t, t < n → memRead m (base + t) = some (cs.getD t 0) := by
  induction n generalizing base cs with
  | zero => simp_all [readCoefs]
  | succ n ih =>
    simp only [readCoefs, coefRead] at h
    split at h
    · cases h
    · rename_i c hc
      split at h
      · cases h
      · rename_i cs' hcs
        injection h with h
        subst h
        obtain ⟨hl, hv⟩ := ih hcs
        refine ⟨by simp [hl], fun t ht => ?_⟩
        cases t with
        | zero =>
          split at hc
          · rename_i v hv0
            injection hc with hc
            simp [hv0, hc]
          · cases hc
        | succ t =>
          have := hv t (by omega)
          rw [show base + (t + 1) = base + 1 + t by omega, this]
          simp

/-- Where every cell of a range is written, readCoefs gives their contents. -/
theorem readCoefs_of_written {m : Memory} {base n : Nat} {c : Nat → Int}
    (h : ∀ t, t < n → memRead m (base + t) = some (c t)) : readCoefs m base n = .ok ((List.range n).map c) := by
  induction n generalizing base c with
  | zero => rfl
  | succ n ih =>
    have h0 : coefRead m base = .ok (c 0) := by
      have := h 0 (by omega)
      simp only [Nat.add_zero] at this
      simp [coefRead, this]
    have hs := ih (base := base + 1) (c := fun t => c (t + 1)) fun t ht => by
      rw [show base + 1 + t = base + (t + 1) by omega]
      exact h (t + 1) (by omega)
    simp only [readCoefs, h0, hs, List.range_succ_eq_map, List.map_cons, List.map_map]
    rfl

/-- The first unwritten cell of a range is the fault of reading it. -/
theorem readCoefs_unwritten {m : Memory} {base n t : Nat} (ht : t < n) (hn : memRead m (base + t) = none)
    (hw : ∀ l, l < t → memRead m (base + l) ≠ none) : readCoefs m base n = .error (.readUnwrittenCoef (base + t)) := by
  induction n generalizing base t with
  | zero => omega
  | succ n ih =>
    cases t with
    | zero =>
      simp only [Nat.add_zero] at hn
      simp [readCoefs, coefRead, hn]
    | succ t =>
      have h0 : memRead m base ≠ none := by simpa using hw 0 (by omega)
      obtain ⟨v, hv⟩ := Option.ne_none_iff_exists'.1 h0
      have := ih (base := base + 1) (t := t) (by omega) (by rw [← hn]; congr 1; omega) fun l hl => by
        rw [show base + 1 + l = base + (l + 1) by omega]
        exact hw (l + 1) (by omega)
      simp only [readCoefs, coefRead, hv, this]
      congr 2
      omega

/-- The range a stage reads depends only on its configuration. -/
theorem readCoefs_congr {m m' : Memory} {base n : Nat} (h : ∀ t, t < n → memRead m' (base + t) = memRead m (base + t)) :
    readCoefs m' base n = readCoefs m base n := by
  induction n generalizing base with
  | zero => rfl
  | succ n ih =>
    have h0 : memRead m' base = memRead m base := by simpa using h 0 (by omega)
    have hs := ih (base := base + 1) fun t ht => by
      rw [show base + 1 + t = base + (t + 1) by omega]
      exact h (t + 1) (by omega)
    simp only [readCoefs, coefRead, h0, hs]

end Sys2Proof.Machine
end

