-- ==== Sys2Proof/Laws/Decode.lean ====
section
/-! SUPPORT. What the decoder answers, said once: which lines of the word select each row, and the operations of a record in
terms of its lines. -/

namespace Sys2Proof

/-- A record whose bit 15 is 0 decodes to the operations of the rows that its word selects, in the order of the map. -/
theorem decode_eq_selected_rows (r : CycleRecord) (h : Word.reserved r.w = false) :
    decode r = .ok ((opcodeMap.filter fun row => row.selects r.w).map fun row => row.operation r) := by
  simp only [decode, h, Bool.false_eq_true, if_false]
  congr 1
  induction opcodeMap with
  | nil => rfl
  | cons row rows ih => by_cases hs : row.selects r.w <;> simp [hs, ih]

/-- A masked word is a pattern exactly when it is so bit by bit. -/
theorem and_eq_iff_bits (w m p : Word) : w &&& m = p ↔ ∀ k, k < 16 → (w.getLsbD k && m.getLsbD k) = p.getLsbD k := by
  constructor
  · rintro rfl k _
    simp
  · intro h
    refine BitVec.eq_of_getLsbD_eq fun k hk => ?_
    simpa using h k hk

theorem forall_lt_sixteen (P : Nat → Prop) : (∀ k, k < 16 → P k) ↔
    P 0 ∧ P 1 ∧ P 2 ∧ P 3 ∧ P 4 ∧ P 5 ∧ P 6 ∧ P 7 ∧ P 8 ∧ P 9 ∧ P 10 ∧ P 11 ∧ P 12 ∧ P 13 ∧ P 14 ∧ P 15 := by
  constructor
  · intro h
    exact ⟨h 0 (by omega), h 1 (by omega), h 2 (by omega), h 3 (by omega), h 4 (by omega), h 5 (by omega), h 6 (by omega),
      h 7 (by omega), h 8 (by omega), h 9 (by omega), h 10 (by omega), h 11 (by omega), h 12 (by omega), h 13 (by omega),
      h 14 (by omega), h 15 (by omega)⟩
  · rintro ⟨h0, h1, h2, h3, h4, h5, h6, h7, h8, h9, h10, h11, h12, h13, h14, h15⟩ k hk
    interval_cases k <;> assumption

/-- The field code is c exactly when bits 9 to 7 are those of c. -/
theorem cfgField_eq_iff (w : Word) (c : BitVec 3) :
    Word.cfgField w = c ↔ w.getLsbD 7 = c.getLsbD 0 ∧ w.getLsbD 8 = c.getLsbD 1 ∧ w.getLsbD 9 = c.getLsbD 2 := by
  constructor
  · rintro rfl
    simp [Word.cfgField]
  · rintro ⟨h0, h1, h2⟩
    refine BitVec.eq_of_getLsbD_eq fun k hk => ?_
    interval_cases k
    · simpa [Word.cfgField] using h0
    · simpa [Word.cfgField] using h1
    · simpa [Word.cfgField] using h2

/-! Which lines select each row. -/

section Rows

variable (w : Word) (op : CycleRecord → Instr)

theorem selects_reset : (OpcodeRow.mk 0x0001 0x0001 op).selects w = Word.rst w := by
  rw [Bool.eq_iff_iff]
  simp [OpcodeRow.selects, and_eq_iff_bits, forall_lt_sixteen, Word.rst]

theorem selects_cfgDecimation : (OpcodeRow.mk 0x0040 0x03C0 op).selects w = (Word.cfgWe w && Word.cfgField w == 0) := by
  rw [Bool.eq_iff_iff]
  simp [OpcodeRow.selects, and_eq_iff_bits, forall_lt_sixteen, cfgField_eq_iff, Word.cfgWe]

theorem selects_cfgOpsM1 : (OpcodeRow.mk 0x00C0 0x03C0 op).selects w = (Word.cfgWe w && Word.cfgField w == 1) := by
  rw [Bool.eq_iff_iff]
  simp [OpcodeRow.selects, and_eq_iff_bits, forall_lt_sixteen, cfgField_eq_iff, Word.cfgWe]

theorem selects_cfgOddOps : (OpcodeRow.mk 0x0140 0x03C0 op).selects w = (Word.cfgWe w && Word.cfgField w == 2) := by
  rw [Bool.eq_iff_iff]
  simp [OpcodeRow.selects, and_eq_iff_bits, forall_lt_sixteen, cfgField_eq_iff, Word.cfgWe]

theorem selects_cfgMaccTrunc : (OpcodeRow.mk 0x01C0 0x03C0 op).selects w = (Word.cfgWe w && Word.cfgField w == 3) := by
  rw [Bool.eq_iff_iff]
  simp [OpcodeRow.selects, and_eq_iff_bits, forall_lt_sixteen, cfgField_eq_iff, Word.cfgWe]

theorem selects_cfgBypass : (OpcodeRow.mk 0x0240 0x03C0 op).selects w = (Word.cfgWe w && Word.cfgField w == 4) := by
  rw [Bool.eq_iff_iff]
  simp [OpcodeRow.selects, and_eq_iff_bits, forall_lt_sixteen, cfgField_eq_iff, Word.cfgWe]

theorem selects_cfgFirEnable : (OpcodeRow.mk 0x02C0 0x03C0 op).selects w = (Word.cfgWe w && Word.cfgField w == 5) := by
  rw [Bool.eq_iff_iff]
  simp [OpcodeRow.selects, and_eq_iff_bits, forall_lt_sixteen, cfgField_eq_iff, Word.cfgWe]

theorem selects_cfgReserved :
    (OpcodeRow.mk 0x0340 0x0340 op).selects w = (Word.cfgWe w && (Word.cfgField w == 6 || Word.cfgField w == 7)) := by
  rw [Bool.eq_iff_iff]
  simp only [OpcodeRow.selects, beq_iff_eq, and_eq_iff_bits, forall_lt_sixteen, Bool.and_eq_true, Bool.or_eq_true,
    cfgField_eq_iff, Word.cfgWe]
  cases w.getLsbD 6 <;> cases w.getLsbD 7 <;> cases w.getLsbD 8 <;> cases w.getLsbD 9 <;> simp

theorem selects_coefWrite : (OpcodeRow.mk 0x0020 0x0020 op).selects w = Word.coefWe w := by
  rw [Bool.eq_iff_iff]
  simp [OpcodeRow.selects, and_eq_iff_bits, forall_lt_sixteen, Word.coefWe]

theorem selects_statusRead : (OpcodeRow.mk 0x1000 0x1000 op).selects w = Word.stsRd w := by
  rw [Bool.eq_iff_iff]
  simp [OpcodeRow.selects, and_eq_iff_bits, forall_lt_sixteen, Word.stsRd]

theorem selects_srcXfer :
    (OpcodeRow.mk 0x0018 0x0019 op).selects w = (!Word.rst w && (Word.srcValid w && Word.srcReady w)) := by
  rw [Bool.eq_iff_iff]
  simp [OpcodeRow.selects, and_eq_iff_bits, forall_lt_sixteen, Word.rst, Word.srcValid, Word.srcReady]

theorem selects_srcStall :
    (OpcodeRow.mk 0x0008 0x0019 op).selects w = (!Word.rst w && (Word.srcValid w && !Word.srcReady w)) := by
  rw [Bool.eq_iff_iff]
  simp [OpcodeRow.selects, and_eq_iff_bits, forall_lt_sixteen, Word.rst, Word.srcValid, Word.srcReady]

theorem selects_pathTake : (OpcodeRow.mk 0x2000 0x2001 op).selects w = (!Word.rst w && Word.take w) := by
  rw [Bool.eq_iff_iff]
  simp [OpcodeRow.selects, and_eq_iff_bits, forall_lt_sixteen, Word.rst, Word.take]

theorem selects_sinkXfer :
    (OpcodeRow.mk 0x0006 0x0007 op).selects w = (!Word.rst w && (Word.sinkValid w && Word.sinkReady w)) := by
  rw [Bool.eq_iff_iff]
  simp [OpcodeRow.selects, and_eq_iff_bits, forall_lt_sixteen, Word.rst, Word.sinkValid, Word.sinkReady]

theorem selects_sinkStall :
    (OpcodeRow.mk 0x0002 0x0007 op).selects w = (!Word.rst w && (Word.sinkValid w && !Word.sinkReady w)) := by
  rw [Bool.eq_iff_iff]
  simp [OpcodeRow.selects, and_eq_iff_bits, forall_lt_sixteen, Word.rst, Word.sinkValid, Word.sinkReady]

theorem selects_srcOffer : (OpcodeRow.mk 0x4000 0x4001 op).selects w = (!Word.rst w && Word.offer w) := by
  rw [Bool.eq_iff_iff]
  simp [OpcodeRow.selects, and_eq_iff_bits, forall_lt_sixteen, Word.rst, Word.offer]

end Rows

/-! The operations of a record, line by line. -/

/-- The configuration write that the field code names. -/
def cfgOperation (r : CycleRecord) : Instr :=
  match (Word.cfgField r.w).toNat with
  | 0 => .cfgDecimation (Word.cfgStage r.w) r.cfgValue
  | 1 => .cfgOpsM1 (Word.cfgStage r.w) r.cfgValue
  | 2 => .cfgOddOps (Word.cfgStage r.w) r.cfgValue
  | 3 => .cfgMaccTrunc (Word.cfgStage r.w) r.cfgValue
  | 4 => .cfgBypass (Word.cfgStage r.w) r.cfgValue
  | 5 => .cfgFirEnable (Word.cfgStage r.w) r.cfgValue
  | _ => .cfgReserved (Word.cfgField r.w) (Word.cfgStage r.w) r.cfgValue

/-- The operation on the control plane's lines. -/
def controlOperations (r : CycleRecord) : List Instr :=
  (if Word.cfgWe r.w then [cfgOperation r] else [])
    ++ ((if Word.coefWe r.w then [.coefWrite r.coefAddr r.coefData] else [])
      ++ (if Word.stsRd r.w then [.statusRead] else []))

/-- The operations on the stream's lines in a cycle with reset deasserted. -/
def streamOperations (r : CycleRecord) : List Instr :=
  (if Word.srcValid r.w then [if Word.srcReady r.w then .srcXfer else .srcStall] else [])
    ++ ((if Word.take r.w then [.pathTake r.olast] else [])
      ++ ((if Word.sinkValid r.w then
            [if Word.sinkReady r.w then .sinkXfer r.sinkRe r.sinkIm r.sinkLast else .sinkStall] else [])
        ++ (if Word.offer r.w then [.srcOffer] else [])))

/-- The operations of the rows that a record selects. -/
def selectedOf (rows : List OpcodeRow) (r : CycleRecord) : List Instr :=
  rows.filterMap fun row => if row.selects r.w then some (row.operation r) else none

theorem selectedOf_append (rows rows' : List OpcodeRow) (r : CycleRecord) :
    selectedOf (rows ++ rows') r = selectedOf rows r ++ selectedOf rows' r := List.filterMap_append

theorem selectedOf_one (row : OpcodeRow) (r : CycleRecord) :
    selectedOf [row] r = if row.selects r.w then [row.operation r] else [] := by
  cases h : row.selects r.w <;> simp [selectedOf, h]

theorem selectedOf_two (row row' : OpcodeRow) (r : CycleRecord) (line choice : Bool) (h : row.selects r.w = (line && choice))
    (h' : row'.selects r.w = (line && !choice)) :
    selectedOf [row, row'] r = if line then [if choice then row.operation r else row'.operation r] else [] := by
  cases line <;> cases choice <;> simp_all [selectedOf]

/-- The rows of the configuration write port. -/
def cfgRows : List OpcodeRow := (opcodeMap.drop 1).take 7

theorem selectedOf_cfgRows (r : CycleRecord) : selectedOf cfgRows r = if Word.cfgWe r.w then [cfgOperation r] else [] := by
  have code : ∀ c : BitVec 3, c = 0 ∨ c = 1 ∨ c = 2 ∨ c = 3 ∨ c = 4 ∨ c = 5 ∨ c = 6 ∨ c = 7 := by decide
  simp only [selectedOf, cfgRows, opcodeMap, List.drop_succ_cons, List.drop_zero, List.take_succ_cons, List.take_zero,
    List.filterMap_cons, List.filterMap_nil, selects_cfgDecimation, selects_cfgOpsM1, selects_cfgOddOps, selects_cfgMaccTrunc,
    selects_cfgBypass, selects_cfgFirEnable, selects_cfgReserved, cfgOperation]
  cases Word.cfgWe r.w
  · simp
  · rcases code (Word.cfgField r.w) with h | h | h | h | h | h | h | h <;> simp [h]

/-- A record whose bit 15 is 0 decodes to its reset, its control operations and, where reset is deasserted, its stream
operations. -/
theorem decode_eq_operations (r : CycleRecord) (h : Word.reserved r.w = false) :
    decode r = .ok (if Word.rst r.w then .reset r.rready :: controlOperations r
      else controlOperations r ++ streamOperations r) := by
  have parts : opcodeMap = [⟨0x0001, 0x0001, fun r => .reset r.rready⟩] ++ (cfgRows
      ++ ([⟨0x0020, 0x0020, fun r => .coefWrite r.coefAddr r.coefData⟩]
      ++ ([⟨0x1000, 0x1000, fun _ => .statusRead⟩]
      ++ ([⟨0x0018, 0x0019, fun _ => .srcXfer⟩, ⟨0x0008, 0x0019, fun _ => .srcStall⟩]
      ++ ([⟨0x2000, 0x2001, fun r => .pathTake r.olast⟩]
      ++ ([⟨0x0006, 0x0007, fun r => .sinkXfer r.sinkRe r.sinkIm r.sinkLast⟩, ⟨0x0002, 0x0007, fun _ => .sinkStall⟩]
      ++ [⟨0x4000, 0x4001, fun _ => .srcOffer⟩])))))) := rfl
  have whole : decode r = .ok (selectedOf opcodeMap r) := by simp [decode, h, selectedOf]
  rw [whole, parts]
  simp only [selectedOf_append, selectedOf_cfgRows, selectedOf_one, selects_reset, selects_coefWrite, selects_statusRead,
    selects_pathTake, selects_srcOffer, controlOperations, streamOperations]
  rw [selectedOf_two _ _ r (!Word.rst r.w && Word.srcValid r.w) (Word.srcReady r.w)
      (by rw [selects_srcXfer, Bool.and_assoc]) (by rw [selects_srcStall, Bool.and_assoc]),
    selectedOf_two _ _ r (!Word.rst r.w && Word.sinkValid r.w) (Word.sinkReady r.w)
      (by rw [selects_sinkXfer, Bool.and_assoc]) (by rw [selects_sinkStall, Bool.and_assoc])]
  cases Word.rst r.w <;> simp

end Sys2Proof
end

