-- ==== Sys2Proof/Laws/State.lean ====
section
/-! SUPPORT. One lemma for each field of State and each named update of it, and for each field of the FIR block state and each
named update of that: no later proof unfolds a record update. -/

namespace Sys2Proof.Machine

/-! Updates of State. -/

@[simp] theorem write_par (s : State) (g : Fir → Fir) :
    (s.write g).par = s.par := rfl
@[simp] theorem write_records (s : State) (g : Fir → Fir) :
    (s.write g).records = s.records := rfl
@[simp] theorem write_cycle (s : State) (g : Fir → Fir) :
    (s.write g).cycle = s.cycle := rfl
@[simp] theorem write_fast (s : State) (g : Fir → Fir) :
    (s.write g).fast = s.fast := rfl
@[simp] theorem write_fir (s : State) (g : Fir → Fir) :
    (s.write g).fir = s.fir := rfl
@[simp] theorem write_w (s : State) (g : Fir → Fir) :
    (s.write g).w = s.w := rfl
@[simp] theorem write_nxt (s : State) (g : Fir → Fir) :
    (s.write g).nxt = g s.nxt := rfl
@[simp] theorem write_path (s : State) (g : Fir → Fir) :
    (s.write g).path = s.path := rfl
@[simp] theorem write_raised (s : State) (g : Fir → Fir) :
    (s.write g).raised = s.raised := rfl
@[simp] theorem write_ports (s : State) (g : Fir → Fir) :
    (s.write g).ports = s.ports := rfl
@[simp] theorem write_ceg (s : State) (g : Fir → Fir) :
    (s.write g).ceg = s.ceg := rfl

@[simp] theorem setPath_par (s : State) (p : List Sample) :
    (s.setPath p).par = s.par := rfl
@[simp] theorem setPath_records (s : State) (p : List Sample) :
    (s.setPath p).records = s.records := rfl
@[simp] theorem setPath_cycle (s : State) (p : List Sample) :
    (s.setPath p).cycle = s.cycle := rfl
@[simp] theorem setPath_fast (s : State) (p : List Sample) :
    (s.setPath p).fast = s.fast := rfl
@[simp] theorem setPath_fir (s : State) (p : List Sample) :
    (s.setPath p).fir = s.fir := rfl
@[simp] theorem setPath_w (s : State) (p : List Sample) :
    (s.setPath p).w = s.w := rfl
@[simp] theorem setPath_nxt (s : State) (p : List Sample) :
    (s.setPath p).nxt = s.nxt := rfl
@[simp] theorem setPath_path (s : State) (p : List Sample) :
    (s.setPath p).path = p := rfl
@[simp] theorem setPath_raised (s : State) (p : List Sample) :
    (s.setPath p).raised = s.raised := rfl
@[simp] theorem setPath_ports (s : State) (p : List Sample) :
    (s.setPath p).ports = s.ports := rfl
@[simp] theorem setPath_ceg (s : State) (p : List Sample) :
    (s.setPath p).ceg = s.ceg := rfl

@[simp] theorem drive_par (s : State) (g : Ports → Ports) :
    (s.drive g).par = s.par := rfl
@[simp] theorem drive_records (s : State) (g : Ports → Ports) :
    (s.drive g).records = s.records := rfl
@[simp] theorem drive_cycle (s : State) (g : Ports → Ports) :
    (s.drive g).cycle = s.cycle := rfl
@[simp] theorem drive_fast (s : State) (g : Ports → Ports) :
    (s.drive g).fast = s.fast := rfl
@[simp] theorem drive_fir (s : State) (g : Ports → Ports) :
    (s.drive g).fir = s.fir := rfl
@[simp] theorem drive_w (s : State) (g : Ports → Ports) :
    (s.drive g).w = s.w := rfl
@[simp] theorem drive_nxt (s : State) (g : Ports → Ports) :
    (s.drive g).nxt = s.nxt := rfl
@[simp] theorem drive_path (s : State) (g : Ports → Ports) :
    (s.drive g).path = s.path := rfl
@[simp] theorem drive_raised (s : State) (g : Ports → Ports) :
    (s.drive g).raised = s.raised := rfl
@[simp] theorem drive_ports (s : State) (g : Ports → Ports) :
    (s.drive g).ports = g s.ports := rfl
@[simp] theorem drive_ceg (s : State) (g : Ports → Ports) :
    (s.drive g).ceg = s.ceg := rfl

@[simp] theorem raise_par (s : State) (k : FaultKind) :
    (s.raise k).par = s.par := rfl
@[simp] theorem raise_records (s : State) (k : FaultKind) :
    (s.raise k).records = s.records := rfl
@[simp] theorem raise_cycle (s : State) (k : FaultKind) :
    (s.raise k).cycle = s.cycle := rfl
@[simp] theorem raise_fast (s : State) (k : FaultKind) :
    (s.raise k).fast = s.fast := rfl
@[simp] theorem raise_fir (s : State) (k : FaultKind) :
    (s.raise k).fir = s.fir := rfl
@[simp] theorem raise_w (s : State) (k : FaultKind) :
    (s.raise k).w = s.w := rfl
@[simp] theorem raise_nxt (s : State) (k : FaultKind) :
    (s.raise k).nxt = s.nxt := rfl
@[simp] theorem raise_path (s : State) (k : FaultKind) :
    (s.raise k).path = s.path := rfl
@[simp] theorem raise_raised (s : State) (k : FaultKind) :
    (s.raise k).raised = s.raised ++ [⟨k, s.cycle⟩] := rfl
@[simp] theorem raise_ports (s : State) (k : FaultKind) :
    (s.raise k).ports = s.ports := rfl
@[simp] theorem raise_ceg (s : State) (k : FaultKind) :
    (s.raise k).ceg = s.ceg := rfl

@[simp] theorem raiseOnPath_par (s : State) (k : FaultKind) :
    (s.raiseOnPath k).par = s.par := rfl
@[simp] theorem raiseOnPath_records (s : State) (k : FaultKind) :
    (s.raiseOnPath k).records = s.records := rfl
@[simp] theorem raiseOnPath_cycle (s : State) (k : FaultKind) :
    (s.raiseOnPath k).cycle = s.cycle := rfl
@[simp] theorem raiseOnPath_fast (s : State) (k : FaultKind) :
    (s.raiseOnPath k).fast = s.fast := rfl
@[simp] theorem raiseOnPath_fir (s : State) (k : FaultKind) :
    (s.raiseOnPath k).fir = s.fir := rfl
@[simp] theorem raiseOnPath_w (s : State) (k : FaultKind) :
    (s.raiseOnPath k).w = s.w := rfl
@[simp] theorem raiseOnPath_nxt (s : State) (k : FaultKind) :
    (s.raiseOnPath k).nxt = s.nxt := rfl
@[simp] theorem raiseOnPath_path (s : State) (k : FaultKind) :
    (s.raiseOnPath k).path = [] := rfl
@[simp] theorem raiseOnPath_raised (s : State) (k : FaultKind) :
    (s.raiseOnPath k).raised = s.raised ++ [⟨k, s.cycle⟩] := rfl
@[simp] theorem raiseOnPath_ports (s : State) (k : FaultKind) :
    (s.raiseOnPath k).ports = s.ports := rfl
@[simp] theorem raiseOnPath_ceg (s : State) (k : FaultKind) :
    (s.raiseOnPath k).ceg = s.ceg := rfl

@[simp] theorem latch_par (s : State) :
    (s.latch).par = s.par := rfl
@[simp] theorem latch_records (s : State) :
    (s.latch).records = s.records := rfl
@[simp] theorem latch_cycle (s : State) :
    (s.latch).cycle = s.cycle + 1 := rfl
@[simp] theorem latch_fast (s : State) :
    (s.latch).fast = s.fast := rfl
@[simp] theorem latch_fir (s : State) :
    (s.latch).fir = s.registered := rfl
@[simp] theorem latch_w (s : State) :
    (s.latch).w = 0 := rfl
@[simp] theorem latch_nxt (s : State) :
    (s.latch).nxt = s.registered := rfl
@[simp] theorem latch_path (s : State) :
    (s.latch).path = [] := rfl
@[simp] theorem latch_raised (s : State) :
    (s.latch).raised = [] := rfl
@[simp] theorem latch_ports (s : State) :
    (s.latch).ports = if s.raised = [] then s.ports else { s.ports with delivered := none } := rfl
@[simp] theorem latch_ceg (s : State) :
    (s.latch).ceg = s.ceg := rfl

@[simp] theorem openCycle_par (s : State) (r : CycleRecord) (rest : List Record) :
    (openCycle s r rest).par = s.par := rfl
@[simp] theorem openCycle_records (s : State) (r : CycleRecord) (rest : List Record) :
    (openCycle s r rest).records = rest := rfl
@[simp] theorem openCycle_cycle (s : State) (r : CycleRecord) (rest : List Record) :
    (openCycle s r rest).cycle = s.cycle := rfl
@[simp] theorem openCycle_fast (s : State) (r : CycleRecord) (rest : List Record) :
    (openCycle s r rest).fast = s.fast := rfl
@[simp] theorem openCycle_fir (s : State) (r : CycleRecord) (rest : List Record) :
    (openCycle s r rest).fir = s.fir := rfl
@[simp] theorem openCycle_w (s : State) (r : CycleRecord) (rest : List Record) :
    (openCycle s r rest).w = (completeRecord s r).w := rfl
@[simp] theorem openCycle_nxt (s : State) (r : CycleRecord) (rest : List Record) :
    (openCycle s r rest).nxt = if Word.rst r.w then s.fir else withOverflowDetection s.par s.fir := rfl
@[simp] theorem openCycle_path (s : State) (r : CycleRecord) (rest : List Record) :
    (openCycle s r rest).path = [] := rfl
@[simp] theorem openCycle_raised (s : State) (r : CycleRecord) (rest : List Record) :
    (openCycle s r rest).raised = [] := rfl
@[simp] theorem openCycle_ports (s : State) (r : CycleRecord) (rest : List Record) :
    (openCycle s r rest).ports = if Word.rst r.w || s.fir.unreset then Ports.silent else drivenPorts s.par s.fir := rfl
@[simp] theorem openCycle_ceg (s : State) (r : CycleRecord) (rest : List Record) :
    (openCycle s r rest).ceg = s.ceg := rfl

@[simp] theorem openEdge_par (s : State) (rest : List Record) :
    (openEdge s rest).par = s.par := rfl
@[simp] theorem openEdge_records (s : State) (rest : List Record) :
    (openEdge s rest).records = rest := rfl
@[simp] theorem openEdge_cycle (s : State) (rest : List Record) :
    (openEdge s rest).cycle = s.cycle := rfl
@[simp] theorem openEdge_fast (s : State) (rest : List Record) :
    (openEdge s rest).fast = s.fast + 1 := rfl
@[simp] theorem openEdge_fir (s : State) (rest : List Record) :
    (openEdge s rest).fir = s.fir := rfl
@[simp] theorem openEdge_w (s : State) (rest : List Record) :
    (openEdge s rest).w = s.w := rfl
@[simp] theorem openEdge_nxt (s : State) (rest : List Record) :
    (openEdge s rest).nxt = s.nxt := rfl
@[simp] theorem openEdge_path (s : State) (rest : List Record) :
    (openEdge s rest).path = s.path := rfl
@[simp] theorem openEdge_raised (s : State) (rest : List Record) :
    (openEdge s rest).raised = s.raised := rfl
@[simp] theorem openEdge_ports (s : State) (rest : List Record) :
    (openEdge s rest).ports = s.ports := rfl
@[simp] theorem openEdge_ceg (s : State) (rest : List Record) :
    (openEdge s rest).ceg = s.ceg := rfl

/-! Updates of the FIR block state. -/

@[simp] theorem withFaults_unreset (f : Fir) (fs : List FaultRec) :
    (withFaults f fs).unreset = f.unreset := rfl
@[simp] theorem withFaults_faults (f : Fir) (fs : List FaultRec) :
    (withFaults f fs).faults = f.faults ++ fs := rfl
@[simp] theorem withFaults_firEnable (f : Fir) (fs : List FaultRec) :
    (withFaults f fs).firEnable = f.firEnable := rfl
@[simp] theorem withFaults_cfg (f : Fir) (fs : List FaultRec) :
    (withFaults f fs).cfg = f.cfg := rfl
@[simp] theorem withFaults_mem (f : Fir) (fs : List FaultRec) :
    (withFaults f fs).mem = f.mem := rfl
@[simp] theorem withFaults_inbuf (f : Fir) (fs : List FaultRec) :
    (withFaults f fs).inbuf = f.inbuf := rfl
@[simp] theorem withFaults_prevReady (f : Fir) (fs : List FaultRec) :
    (withFaults f fs).prevReady = f.prevReady := rfl
@[simp] theorem withFaults_ovf (f : Fir) (fs : List FaultRec) :
    (withFaults f fs).ovf = f.ovf := rfl
@[simp] theorem withFaults_st (f : Fir) (fs : List FaultRec) :
    (withFaults f fs).st = f.st := rfl
@[simp] theorem withFaults_pending (f : Fir) (fs : List FaultRec) :
    (withFaults f fs).pending = f.pending := rfl
@[simp] theorem withFaults_offered (f : Fir) (fs : List FaultRec) :
    (withFaults f fs).offered = f.offered := rfl
@[simp] theorem withFaults_fresh (f : Fir) (fs : List FaultRec) :
    (withFaults f fs).fresh = f.fresh := rfl

@[simp] theorem setStage_unreset (i : Nat) (st : StageSt) (f : Fir) :
    (setStage i st f).unreset = f.unreset := rfl
@[simp] theorem setStage_faults (i : Nat) (st : StageSt) (f : Fir) :
    (setStage i st f).faults = f.faults := rfl
@[simp] theorem setStage_firEnable (i : Nat) (st : StageSt) (f : Fir) :
    (setStage i st f).firEnable = f.firEnable := rfl
@[simp] theorem setStage_cfg (i : Nat) (st : StageSt) (f : Fir) :
    (setStage i st f).cfg = f.cfg := rfl
@[simp] theorem setStage_mem (i : Nat) (st : StageSt) (f : Fir) :
    (setStage i st f).mem = f.mem := rfl
@[simp] theorem setStage_inbuf (i : Nat) (st : StageSt) (f : Fir) :
    (setStage i st f).inbuf = f.inbuf := rfl
@[simp] theorem setStage_prevReady (i : Nat) (st : StageSt) (f : Fir) :
    (setStage i st f).prevReady = f.prevReady := rfl
@[simp] theorem setStage_ovf (i : Nat) (st : StageSt) (f : Fir) :
    (setStage i st f).ovf = f.ovf := rfl
@[simp] theorem setStage_st (i : Nat) (st : StageSt) (f : Fir) :
    (setStage i st f).st = f.st.set i st := rfl
@[simp] theorem setStage_pending (i : Nat) (st : StageSt) (f : Fir) :
    (setStage i st f).pending = f.pending := rfl
@[simp] theorem setStage_offered (i : Nat) (st : StageSt) (f : Fir) :
    (setStage i st f).offered = f.offered := rfl
@[simp] theorem setStage_fresh (i : Nat) (st : StageSt) (f : Fir) :
    (setStage i st f).fresh = f.fresh := rfl

@[simp] theorem clearStream_unreset (p : Params) (f : Fir) :
    (clearStream p f).unreset = false := rfl
@[simp] theorem clearStream_faults (p : Params) (f : Fir) :
    (clearStream p f).faults = f.faults := rfl
@[simp] theorem clearStream_firEnable (p : Params) (f : Fir) :
    (clearStream p f).firEnable = f.firEnable := rfl
@[simp] theorem clearStream_cfg (p : Params) (f : Fir) :
    (clearStream p f).cfg = f.cfg := rfl
@[simp] theorem clearStream_mem (p : Params) (f : Fir) :
    (clearStream p f).mem = f.mem := rfl
@[simp] theorem clearStream_inbuf (p : Params) (f : Fir) :
    (clearStream p f).inbuf = [] := rfl
@[simp] theorem clearStream_prevReady (p : Params) (f : Fir) :
    (clearStream p f).prevReady = false := rfl
@[simp] theorem clearStream_ovf (p : Params) (f : Fir) :
    (clearStream p f).ovf = false := rfl
@[simp] theorem clearStream_st (p : Params) (f : Fir) :
    (clearStream p f).st = List.replicate p.numStages StageSt.start := rfl
@[simp] theorem clearStream_pending (p : Params) (f : Fir) :
    (clearStream p f).pending = [] := rfl
@[simp] theorem clearStream_offered (p : Params) (f : Fir) :
    (clearStream p f).offered = false := rfl
@[simp] theorem clearStream_fresh (p : Params) (f : Fir) :
    (clearStream p f).fresh = true := rfl

@[simp] theorem withOverflowDetection_unreset (p : Params) (f : Fir) :
    (withOverflowDetection p f).unreset = f.unreset := rfl
@[simp] theorem withOverflowDetection_faults (p : Params) (f : Fir) :
    (withOverflowDetection p f).faults = f.faults := rfl
@[simp] theorem withOverflowDetection_firEnable (p : Params) (f : Fir) :
    (withOverflowDetection p f).firEnable = f.firEnable := rfl
@[simp] theorem withOverflowDetection_cfg (p : Params) (f : Fir) :
    (withOverflowDetection p f).cfg = f.cfg := rfl
@[simp] theorem withOverflowDetection_mem (p : Params) (f : Fir) :
    (withOverflowDetection p f).mem = f.mem := rfl
@[simp] theorem withOverflowDetection_inbuf (p : Params) (f : Fir) :
    (withOverflowDetection p f).inbuf = f.inbuf := rfl
@[simp] theorem withOverflowDetection_prevReady (p : Params) (f : Fir) :
    (withOverflowDetection p f).prevReady = prevReadyNext p f := rfl
@[simp] theorem withOverflowDetection_ovf (p : Params) (f : Fir) :
    (withOverflowDetection p f).ovf = ovfNext p f := rfl
@[simp] theorem withOverflowDetection_st (p : Params) (f : Fir) :
    (withOverflowDetection p f).st = f.st := rfl
@[simp] theorem withOverflowDetection_pending (p : Params) (f : Fir) :
    (withOverflowDetection p f).pending = f.pending := rfl
@[simp] theorem withOverflowDetection_offered (p : Params) (f : Fir) :
    (withOverflowDetection p f).offered = f.offered := rfl
@[simp] theorem withOverflowDetection_fresh (p : Params) (f : Fir) :
    (withOverflowDetection p f).fresh = f.fresh := rfl

/-! A configuration store changes the configuration only. -/

@[simp] theorem storeCfg_unreset (field : CfgField) (i v : Nat) (f : Fir) :
    (storeCfg field i v f).unreset = f.unreset := by unfold storeCfg; split <;> rfl
@[simp] theorem storeCfg_faults (field : CfgField) (i v : Nat) (f : Fir) :
    (storeCfg field i v f).faults = f.faults := by unfold storeCfg; split <;> rfl
@[simp] theorem storeCfg_mem (field : CfgField) (i v : Nat) (f : Fir) :
    (storeCfg field i v f).mem = f.mem := by unfold storeCfg; split <;> rfl
@[simp] theorem storeCfg_inbuf (field : CfgField) (i v : Nat) (f : Fir) :
    (storeCfg field i v f).inbuf = f.inbuf := by unfold storeCfg; split <;> rfl
@[simp] theorem storeCfg_prevReady (field : CfgField) (i v : Nat) (f : Fir) :
    (storeCfg field i v f).prevReady = f.prevReady := by unfold storeCfg; split <;> rfl
@[simp] theorem storeCfg_ovf (field : CfgField) (i v : Nat) (f : Fir) :
    (storeCfg field i v f).ovf = f.ovf := by unfold storeCfg; split <;> rfl
@[simp] theorem storeCfg_st (field : CfgField) (i v : Nat) (f : Fir) :
    (storeCfg field i v f).st = f.st := by unfold storeCfg; split <;> rfl
@[simp] theorem storeCfg_pending (field : CfgField) (i v : Nat) (f : Fir) :
    (storeCfg field i v f).pending = f.pending := by unfold storeCfg; split <;> rfl
@[simp] theorem storeCfg_offered (field : CfgField) (i v : Nat) (f : Fir) :
    (storeCfg field i v f).offered = f.offered := by unfold storeCfg; split <;> rfl
@[simp] theorem storeCfg_fresh (field : CfgField) (i v : Nat) (f : Fir) :
    (storeCfg field i v f).fresh = f.fresh := by unfold storeCfg; split <;> rfl

theorem storeCfg_firEnable_field (i v : Nat) (f : Fir) :
    storeCfg .firEnable i v f = { f with firEnable := v == 1 } := rfl

theorem storeCfg_stage_field (field : CfgField) (i v : Nat) (f : Fir) (h : field ≠ .firEnable) :
    storeCfg field i v f = { f with cfg := f.cfg.set i ((cfgOf f i).write field v) } := if_neg h

/-! What the shared reads of σ do not depend on. -/

@[simp] theorem cfgOf_setStage (f : Fir) (i j : Nat) (st : StageSt) : cfgOf (setStage j st f) i = cfgOf f i := rfl

@[simp] theorem shapeOf_setStage (f : Fir) (i j : Nat) (st : StageSt) : shapeOf (setStage j st f) i = shapeOf f i := rfl

theorem stOf_setStage_same (f : Fir) (i : Nat) (st : StageSt) (h : i < f.st.length) : stOf (setStage i st f) i = st := by
  simp [stOf, h]

theorem stOf_setStage_other (f : Fir) (i j : Nat) (st : StageSt) (h : j ≠ i) :
    stOf (setStage j st f) i = stOf f i := by
  simp [stOf, h]

end Sys2Proof.Machine
end

