-- ==== Sys2Proof/Laws/Ops.lean ====
section
/-! SUPPORT. For each shared operation, what it can do, said once: the operations of the control plane, of the path, of a take,
of a cycle, and the step. -/

namespace Sys2Proof.Machine

/-- A sequence of operations answers as its first one and then the others. -/
theorem runOps_cons (i : Instr) (is : List Instr) {s t : State} (h : exec i s = .next t) :
    runOps (i :: is) s = runOps is t := by
  simp [runOps, h]

/-- Every operation answers a next state: no meaning of this model stops. -/
theorem exec_next (i : Instr) (s : State) : ∃ t, exec i s = .next t := by
  cases i <;> exact ⟨_, rfl⟩

/-- Every sequence of operations answers a next state. -/
theorem runOps_next (ops : List Instr) (s : State) : ∃ t, runOps ops s = .next t := by
  induction ops generalizing s with
  | nil => exact ⟨s, rfl⟩
  | cons i is ih =>
    obtain ⟨t, ht⟩ := exec_next i s
    rw [runOps_cons i is ht]
    exact ih t

/-! The control plane. -/

/-- A configuration write of a field that is not reserved raises its first failing check, or stores. -/
theorem writeCfg_cases (field : CfgField) (stage : BitVec 2) (v : Nat) (s : State) :
    (∃ k, cfgFault field stage.toNat v s = some k ∧ writeCfg field stage v s = s.raise k)
      ∨ (cfgFault field stage.toNat v s = none ∧ writeCfg field stage v s = s.write (storeCfg field stage.toNat v)) := by
  unfold writeCfg
  cases h : cfgFault field stage.toNat v s <;> simp

/-- A configuration write passes its checks exactly when the stage and the value are legal and there is no hazard. -/
theorem cfgFault_eq_none_iff (field : CfgField) (i v : Nat) (s : State) :
    cfgFault field i v s = none ↔
      (field = .firEnable ∨ i < s.par.numStages) ∧ CfgFits s.par field v
        ∧ (s.inReset = true ∨ cfgHazard field i s = none) := by
  unfold cfgFault
  split
  · rename_i h
    obtain ⟨h₁, h₂⟩ := h
    simp [h₁, Nat.not_lt.2 h₂]
  · rename_i h
    have hs : field = .firEnable ∨ i < s.par.numStages := by
      by_contra hc
      push Not at hc
      exact h hc
    split
    · simp_all
    · rename_i hf
      push Not at hf
      split <;> simp_all

/-- There is no hazard for a structural field exactly when the path is fresh and no take happens. -/
theorem cfgHazard_structural (field : CfgField) (i : Nat) (s : State) (h : field ≠ .trunc) :
    cfgHazard field i s = none ↔ s.fir.fresh = true ∧ s.doTake = false := by
  have hb : isStructural field = true := by cases field <;> simp_all [isStructural]
  unfold cfgHazard
  rw [if_pos hb]
  split <;> simp_all

/-- There is no hazard for macc_trunc exactly when the stage is inactive or the cycle idle. -/
theorem cfgHazard_trunc (i : Nat) (s : State) :
    cfgHazard .trunc i s = none ↔ stageActive s.fir i = false ∨ s.idle = true := by
  unfold cfgHazard isStructural
  cases stageActive s.fir i <;> cases s.idle <;> simp

/-! The path of a take. -/

/-- What an operation within a take can change: the stages of σ', the path (at most one sample) and the raised faults, which
only grow. -/
structure PathOnly (s t : State) : Prop where
  rest : t = { s with nxt := { s.nxt with st := t.nxt.st }, path := t.path, raised := t.raised }
  raised : ∃ fs, t.raised = s.raised ++ fs
  path : s.path.length ≤ 1 → t.path.length ≤ 1

theorem PathOnly.refl (s : State) : PathOnly s s := ⟨rfl, ⟨[], by simp⟩, id⟩

theorem PathOnly.trans {s t u : State} (h₁ : PathOnly s t) (h₂ : PathOnly t u) : PathOnly s u := by
  refine ⟨?_, ?_, fun h => h₂.path (h₁.path h)⟩
  · rw [h₂.rest, h₁.rest]
  · obtain ⟨fs, hf⟩ := h₁.raised
    obtain ⟨gs, hg⟩ := h₂.raised
    exact ⟨fs ++ gs, by rw [hg, hf, List.append_assoc]⟩

theorem PathOnly.raiseOnPath (s : State) (k : FaultKind) : PathOnly s (s.raiseOnPath k) :=
  ⟨rfl, ⟨[⟨k, s.cycle⟩], rfl⟩, fun _ => by simp⟩

theorem PathOnly.setPath (s : State) (p : List Sample) (h : p.length ≤ 1) : PathOnly s (s.setPath p) :=
  ⟨rfl, ⟨[], by simp⟩, fun _ => h⟩

theorem PathOnly.writeStage (s : State) (i : Nat) (st : StageSt) : PathOnly s (s.write (setStage i st)) :=
  ⟨rfl, ⟨[], by simp⟩, id⟩

/-- The faults of σ are not those of a cycle: an operation within a take leaves σ, the ports and the lines as they are. -/
theorem PathOnly.fir {s t : State} (h : PathOnly s t) : t.fir = s.fir := by rw [h.rest]
theorem PathOnly.par {s t : State} (h : PathOnly s t) : t.par = s.par := by rw [h.rest]
theorem PathOnly.cycle {s t : State} (h : PathOnly s t) : t.cycle = s.cycle := by rw [h.rest]

theorem passDisabled_pathOnly (s : State) : PathOnly s (passDisabled s) := by
  unfold passDisabled
  split
  · exact .raiseOnPath ..
  · exact .refl s

theorem bypassStage_pathOnly (i : Nat) (s : State) : PathOnly s (bypassStage i s) := by
  unfold bypassStage
  split
  · exact .refl s
  · split
    · exact .raiseOnPath ..
    · exact .refl s

theorem computeOutput_pathOnly (i : Nat) (olast : Bool) (hist : List Iq) (s : State) :
    PathOnly s (computeOutput i olast hist s) := by
  unfold computeOutput
  split
  · exact .raiseOnPath ..
  · exact .setPath _ _ (by simp)

theorem consumeSample_pathOnly (i : Nat) (olast : Bool) (s : State) : PathOnly s (consumeSample i olast s) := by
  unfold consumeSample
  split
  · exact .refl s
  · split
    · exact .raiseOnPath ..
    · dsimp only
      split
      · exact (PathOnly.writeStage ..).trans (computeOutput_pathOnly ..)
      · exact (PathOnly.writeStage ..).trans (.setPath _ _ (by simp))

theorem pathStage_pathOnly (olast : Bool) (s : State) (i : Nat) : PathOnly s (pathStage olast s i) := by
  unfold pathStage
  split
  · exact .refl s
  · split
    · exact .raiseOnPath ..
    · exact bypassStage_pathOnly i s
    · exact consumeSample_pathOnly i olast s

theorem foldl_pathStage_pathOnly (olast : Bool) (is : List Nat) (s : State) :
    PathOnly s (is.foldl (pathStage olast) s) := by
  induction is generalizing s with
  | nil => exact .refl s
  | cons i is ih => exact (pathStage_pathOnly olast s i).trans (ih _)

theorem runPath_pathOnly (olast : Bool) (s : State) : PathOnly s (runPath olast s) := by
  unfold runPath
  split
  · exact foldl_pathStage_pathOnly ..
  · exact passDisabled_pathOnly s

/-- With nothing on the path the remaining stages do nothing (spec/43_cascade_and_bypass.md R228). -/
theorem foldl_pathStage_nil (olast : Bool) (is : List Nat) (s : State) (h : s.path = []) :
    is.foldl (pathStage olast) s = s := by
  induction is with
  | nil => rfl
  | cons i is ih =>
    have : pathStage olast s i = s := by simp [pathStage, h]
    rw [List.foldl_cons, this, ih]

/-- What an enabled take does: the head leaves the input buffer, the path is no longer fresh, the stages may change, and at
most one output joins the pending queue. -/
theorem takeSample_cases (olast : Bool) (s : State) :
    (s.fir.inbuf = [] ∧ takeSample olast s = s)
      ∨ ∃ x q t, s.fir.inbuf = x :: q ∧ t = runPath olast (takeHead x s) ∧ PathOnly (takeHead x s) t
          ∧ t.path.length ≤ 1 ∧ takeSample olast s = collectOutputs t := by
  unfold takeSample
  cases h : s.fir.inbuf with
  | nil => exact .inl ⟨rfl, rfl⟩
  | cons x q =>
    have hp := runPath_pathOnly olast (takeHead x s)
    exact .inr ⟨x, q, _, rfl, rfl, hp, hp.path (by simp [takeHead]), rfl⟩

/-! A cycle and the step. -/

/-- σ at the end of a cycle: σ' as written, or σ with the cycle's faults. -/
theorem registered_cases (s : State) :
    (s.raised = [] ∧ s.registered = s.nxt) ∨ (s.raised ≠ [] ∧ s.registered = withFaults s.fir s.raised) := by
  unfold State.registered
  split <;> simp_all

/-- What a cycle of the FIR block can do. -/
theorem runCycle_next {s t : State} {r : CycleRecord} {rest : List Record} (h : runCycle s r rest = .next t) :
    s.fir.faults = [] ∧ ∃ ops, decode (completeRecord s r) = .ok ops ∧
      ((Word.rst r.w = false ∧ s.fir.unreset = true ∧ t = ((openCycle s r rest).raise (.notReset s.cycle)).latch)
        ∨ ((Word.rst r.w = true ∨ s.fir.unreset = false)
            ∧ ∃ u, runOps ops (openCycle s r rest) = .next u ∧ t = u.latch)) := by
  unfold runCycle at h
  split at h
  · cases h
  · rename_i hn
    refine ⟨not_not.1 hn, ?_⟩
    split at h
    · cases h
    · rename_i ops hops
      refine ⟨ops, hops, ?_⟩
      unfold runSelected at h
      split at h
      · rename_i hc
        simp only [Bool.and_eq_true, Bool.not_eq_true'] at hc
        injection h with h
        exact .inl ⟨hc.1, hc.2, h.symm⟩
      · rename_i hc
        obtain ⟨u, hu⟩ := runOps_next ops (openCycle s r rest)
        rw [hu] at h
        injection h with h
        refine .inr ⟨?_, u, hu, h.symm⟩
        cases hr : Word.rst r.w <;> simp_all

/-- What a fast cycle can do: the record is the one of the clock ratio, and the generator takes the edge. -/
theorem runEdge_next {s t : State} {e : Bool} {rest : List Record} (h : runEdge s e rest = .next t) :
    e = isCommonEdge s.par.ratio s.fast ∧ t = { openEdge s rest with ceg := fastEdge s.par.ratio e s.ceg } := by
  unfold runEdge at h
  split at h
  · rename_i he
    refine ⟨he, ?_⟩
    cases e <;> (injection h with h; exact h.symm)
  · cases h

/-- What a step can do: a cycle of the FIR block, or a fast cycle of the generator. -/
theorem step_next {s t : State} (h : step s = .next t) :
    s.par.WellFormed ∧
      ((∃ r rest, s.records = .cycle r :: rest ∧ runCycle s r rest = .next t)
        ∨ ∃ e rest, s.records = .edge e :: rest ∧ e = isCommonEdge s.par.ratio s.fast
            ∧ t = { openEdge s rest with ceg := fastEdge s.par.ratio e s.ceg }) := by
  unfold step at h
  split at h
  · cases h
  · rename_i hw
    refine ⟨hw, ?_⟩
    split at h
    · cases h
    · rename_i r rest hr
      exact .inl ⟨r, rest, hr, h⟩
    · rename_i e rest hr
      obtain ⟨he, h⟩ := runEdge_next h
      exact .inr ⟨e, rest, hr, he, h⟩

end Sys2Proof.Machine
end

