-- ==== Sys2Proof/Laws/Path.lean ====
section
/-! SUPPORT. The path of a take, operation by operation, is the path as one function (`refStage`, `refStages`, `refPath` of
Sys2Proof/Machine/Reference.lean). -/

namespace Sys2Proof.Machine

/-- Storing the state that a stage already has changes nothing. -/
theorem setStage_self (f g : Fir) (i : Nat) (h : g.st[i]? = f.st[i]?) : setStage i (stOf f i) g = g := by
  have : g.st.set i (stOf f i) = g.st := by
    by_cases hi : i < g.st.length
    · have hv : stOf f i = g.st[i] := by
        rw [List.getElem?_eq_getElem hi] at h
        simp [stOf, ← h]
      rw [hv, List.set_getElem_self]
    · exact List.set_eq_of_length_le (Nat.le_of_not_lt hi)
  unfold setStage
  rw [this]

/-- A stage that receives a sample and faults in no check does what refStage says. -/
theorem pathStage_of_ok {olast : Bool} {s : State} {v : Sample} {i : Nat} {out : Option Sample} {st : StageSt}
    (hp : s.path = [v]) (hs : s.nxt.st[i]? = s.fir.st[i]?) (h : refStage s.par s.fir olast i v = .ok (out, st)) :
    pathStage olast s i = (s.write (setStage i st)).setPath out.toList := by
  simp only [refStage] at h
  simp only [pathStage, hp]
  rcases hb : (cfgOf s.fir i).bypass with _ | _ | _ <;> simp only [hb] at h ⊢
  · cases h
  · simp only [consumeSample, hp]
    rcases hc : consumeChecks s.par s.fir i with e | sh <;> simp only [hc] at h ⊢
    · cases h
    · by_cases hd : (stOf s.fir i).phase + 1 = sh.dec
      · rw [if_pos hd] at h ⊢
        rcases hy : firOutput s.par s.fir i ((stOf s.fir i).hist ++ [v.iq]) with e | y <;> simp only [hy] at h
        · cases h
        · injection h with h
          injection h with h₁ h₂
          subst h₁ h₂
          simp only [computeOutput, write_par, write_fir, hy, Option.toList_some]
      · rw [if_neg hd] at h ⊢
        injection h with h
        injection h with h₁ h₂
        subst h₁ h₂
        rfl
  · simp only [bypassStage, hp]
    by_cases hn : s.par.outWidth i < s.par.inWidth i
    · rw [if_pos hn] at h
      cases h
    · rw [if_neg hn] at h ⊢
      injection h with h
      injection h with h₁ h₂
      subst h₁ h₂
      have : s.write (setStage i (stOf s.fir i)) = s := by
        unfold State.write
        rw [setStage_self _ _ _ hs]
      rw [this]
      unfold State.setPath
      rw [Option.toList_some, ← hp]

/-- A stage that receives a sample and faults raises the fault that refStage says and ends the path; of σ' only the stage states
may have changed. -/
theorem pathStage_of_error {olast : Bool} {s : State} {v : Sample} {i : Nat} {e : FaultKind} (hp : s.path = [v])
    (h : refStage s.par s.fir olast i v = .error e) :
    ∃ st, pathStage olast s i = (s.write fun f => { f with st := st }).raiseOnPath e := by
  simp only [refStage] at h
  simp only [pathStage, hp]
  rcases hb : (cfgOf s.fir i).bypass with _ | _ | _ <;> simp only [hb] at h ⊢
  · injection h with h
    subst h
    exact ⟨s.nxt.st, rfl⟩
  · simp only [consumeSample, hp]
    rcases hc : consumeChecks s.par s.fir i with e | sh <;> simp only [hc] at h ⊢
    · injection h with h
      subst h
      exact ⟨s.nxt.st, rfl⟩
    · by_cases hd : (stOf s.fir i).phase + 1 = sh.dec
      · rw [if_pos hd] at h ⊢
        rcases hy : firOutput s.par s.fir i ((stOf s.fir i).hist ++ [v.iq]) with e | y <;> simp only [hy] at h
        · injection h with h
          subst h
          simp only [computeOutput, write_par, write_fir, hy]
          exact ⟨_, rfl⟩
        · cases h
      · rw [if_neg hd] at h
        cases h
  · simp only [bypassStage, hp]
    by_cases hn : s.par.outWidth i < s.par.inWidth i
    · rw [if_pos hn] at h ⊢
      injection h with h
      subst h
      exact ⟨s.nxt.st, rfl⟩
    · rw [if_neg hn] at h
      cases h

/-- The stages `is`, each of them not yet run, do what refStages says where it faults in none. -/
theorem foldl_pathStage_of_ok {olast : Bool} {is : List Nat} {s : State} {v : Sample} {out : Option Sample}
    {sts : List StageSt} (hp : s.path = [v]) (hn : is.Nodup) (hs : ∀ i ∈ is, s.nxt.st[i]? = s.fir.st[i]?)
    (h : refStages s.par s.fir olast is v s.nxt.st = .ok (out, sts)) :
    is.foldl (pathStage olast) s = (s.write fun f => { f with st := sts }).setPath out.toList := by
  induction is generalizing s v with
  | nil =>
    injection h with h
    injection h with h₁ h₂
    subst h₁ h₂
    simp only [List.foldl_nil, Option.toList_some, ← hp]
    rfl
  | cons i is ih =>
    obtain ⟨hi, hn⟩ := List.nodup_cons.1 hn
    simp only [refStages] at h
    split at h
    · cases h
    · rename_i st hst
      injection h with h
      injection h with h₁ h₂
      subst h₁ h₂
      rw [List.foldl_cons, pathStage_of_ok hp (hs i List.mem_cons_self) hst, foldl_pathStage_nil _ _ _ rfl]
      rfl
    · rename_i u st hst
      rw [List.foldl_cons, pathStage_of_ok hp (hs i List.mem_cons_self) hst]
      refine (ih (s := (s.write (setStage i st)).setPath [u]) rfl hn (fun j hj => ?_) h).trans rfl
      have hij : i ≠ j := fun hc => hi (hc ▸ hj)
      simpa [List.getElem?_set, hij] using hs j (List.mem_cons_of_mem _ hj)

/-- The stages `is` raise the fault of refStages where there is one; of σ' only the stage states may have changed. -/
theorem foldl_pathStage_of_error {olast : Bool} {is : List Nat} {s : State} {v : Sample} {e : FaultKind} (hp : s.path = [v])
    (hn : is.Nodup) (hs : ∀ i ∈ is, s.nxt.st[i]? = s.fir.st[i]?)
    (h : refStages s.par s.fir olast is v s.nxt.st = .error e) :
    ∃ st, is.foldl (pathStage olast) s = (s.write fun f => { f with st := st }).raiseOnPath e := by
  induction is generalizing s v with
  | nil => cases h
  | cons i is ih =>
    obtain ⟨hi, hn⟩ := List.nodup_cons.1 hn
    simp only [refStages] at h
    split at h
    · rename_i hst
      injection h with h
      subst h
      obtain ⟨st, ht⟩ := pathStage_of_error hp hst
      rw [List.foldl_cons, ht, foldl_pathStage_nil _ _ _ rfl]
      exact ⟨st, rfl⟩
    · cases h
    · rename_i u st hst
      rw [List.foldl_cons, pathStage_of_ok hp (hs i List.mem_cons_self) hst]
      obtain ⟨st', ht⟩ := ih (s := (s.write (setStage i st)).setPath [u]) rfl hn (fun j hj => by
        have hij : i ≠ j := fun hc => hi (hc ▸ hj)
        simpa [List.getElem?_set, hij] using hs j (List.mem_cons_of_mem _ hj)) h
      rw [Option.toList_some, ht]
      exact ⟨st', rfl⟩

/-- The path with one sample on it, no stage yet run, does what refPath says where it does not fault. -/
theorem runPath_of_ok {olast : Bool} {s : State} {x : Sample} {out : Option Sample} {sts : List StageSt} (hp : s.path = [x])
    (hs : s.nxt.st = s.fir.st) (h : refPath s.par s.fir olast x = .ok (out, sts)) :
    runPath olast s = (s.write fun f => { f with st := sts }).setPath out.toList := by
  unfold refPath at h
  unfold runPath
  split at h
  · rename_i he
    rw [if_pos he]
    exact foldl_pathStage_of_ok hp List.nodup_range (fun i _ => by rw [hs]) (by rw [hs]; exact h)
  · rename_i he
    rw [if_neg he]
    unfold passDisabled
    split at h
    · cases h
    · rename_i hn
      injection h with h
      injection h with h₁ h₂
      subst h₁ h₂
      rw [if_neg hn, ← hs, Option.toList_some, ← hp]
      rfl

/-- The path raises the fault of refPath where there is one; of σ' only the stage states may have changed. -/
theorem runPath_of_error {olast : Bool} {s : State} {x : Sample} {e : FaultKind} (hp : s.path = [x])
    (hs : s.nxt.st = s.fir.st) (h : refPath s.par s.fir olast x = .error e) :
    ∃ st, runPath olast s = (s.write fun f => { f with st := st }).raiseOnPath e := by
  unfold refPath at h
  unfold runPath
  split at h
  · rename_i he
    rw [if_pos he]
    exact foldl_pathStage_of_error hp List.nodup_range (fun i _ => by rw [hs]) (by rw [hs]; exact h)
  · rename_i he
    rw [if_neg he]
    unfold passDisabled
    split at h
    · rename_i hn
      injection h with h
      subst h
      rw [if_pos hn]
      exact ⟨s.nxt.st, rfl⟩
    · cases h

end Sys2Proof.Machine
end

