-- ==== Sys2Proof/Laws/Cycle.lean ====
section
/-! SUPPORT. The lines of a completed record, and the groups of operations of one cycle: what the control operations and the
stream operations make of a cycle in progress. -/

namespace Sys2Proof

section Lines

variable (w : Word) (a b : Bool)

/-- The outputs are the only bits of the word that the block sets. -/
theorem withOutputs_getLsbD {k : Nat} (h₂ : k ≠ 2) (h₃ : k ≠ 3) : (Word.withOutputs w a b).getLsbD k = w.getLsbD k := by
  by_cases hk : k < 16
  · have : k = 0 ∨ k = 1 ∨ k = 4 ∨ k = 5 ∨ k = 6 ∨ k = 7 ∨ k = 8 ∨ k = 9 ∨ k = 10 ∨ k = 11 ∨ k = 12 ∨ k = 13
        ∨ k = 14 ∨ k = 15 := by omega
    rcases this with rfl | rfl | rfl | rfl | rfl | rfl | rfl | rfl | rfl | rfl | rfl | rfl | rfl | rfl <;>
      cases a <;> cases b <;> simp [Word.withOutputs]
  · simp [BitVec.getLsbD_of_ge, Nat.le_of_not_lt hk]

@[simp] theorem withOutputs_rst : Word.rst (Word.withOutputs w a b) = Word.rst w :=
  withOutputs_getLsbD w a b (by decide) (by decide)
@[simp] theorem withOutputs_sinkValid : Word.sinkValid (Word.withOutputs w a b) = Word.sinkValid w :=
  withOutputs_getLsbD w a b (by decide) (by decide)
@[simp] theorem withOutputs_srcReady : Word.srcReady (Word.withOutputs w a b) = Word.srcReady w :=
  withOutputs_getLsbD w a b (by decide) (by decide)
@[simp] theorem withOutputs_coefWe : Word.coefWe (Word.withOutputs w a b) = Word.coefWe w :=
  withOutputs_getLsbD w a b (by decide) (by decide)
@[simp] theorem withOutputs_cfgWe : Word.cfgWe (Word.withOutputs w a b) = Word.cfgWe w :=
  withOutputs_getLsbD w a b (by decide) (by decide)
@[simp] theorem withOutputs_stsRd : Word.stsRd (Word.withOutputs w a b) = Word.stsRd w :=
  withOutputs_getLsbD w a b (by decide) (by decide)
@[simp] theorem withOutputs_take : Word.take (Word.withOutputs w a b) = Word.take w :=
  withOutputs_getLsbD w a b (by decide) (by decide)
@[simp] theorem withOutputs_offer : Word.offer (Word.withOutputs w a b) = Word.offer w :=
  withOutputs_getLsbD w a b (by decide) (by decide)
@[simp] theorem withOutputs_reserved : Word.reserved (Word.withOutputs w a b) = Word.reserved w :=
  withOutputs_getLsbD w a b (by decide) (by decide)
@[simp] theorem withOutputs_cfgField : Word.cfgField (Word.withOutputs w a b) = Word.cfgField w := by
  refine BitVec.eq_of_getLsbD_eq fun k hk => ?_
  simp only [Word.cfgField, BitVec.getLsbD_extractLsb', hk, decide_true, Bool.true_and]
  exact withOutputs_getLsbD w a b (by omega) (by omega)
@[simp] theorem withOutputs_cfgStage : Word.cfgStage (Word.withOutputs w a b) = Word.cfgStage w := by
  refine BitVec.eq_of_getLsbD_eq fun k hk => ?_
  simp only [Word.cfgStage, BitVec.getLsbD_extractLsb', hk, decide_true, Bool.true_and]
  exact withOutputs_getLsbD w a b (by omega) (by omega)
@[simp] theorem withOutputs_sinkReady : Word.sinkReady (Word.withOutputs w a b) = a := by
  cases a <;> cases b <;> simp [Word.withOutputs, Word.sinkReady]
@[simp] theorem withOutputs_srcValid : Word.srcValid (Word.withOutputs w a b) = b := by
  cases a <;> cases b <;> simp [Word.withOutputs, Word.srcValid]

end Lines

namespace Machine

/-- A sequence of operations in two parts. -/
theorem runOps_append {ops ops' : List Instr} {s t : State} (h : runOps ops s = .next t) :
    runOps (ops ++ ops') s = runOps ops' t := by
  induction ops generalizing s with
  | nil =>
    injection h with h
    subst h
    rfl
  | cons i is ih =>
    obtain ⟨u, hu⟩ := exec_next i s
    rw [runOps_cons i is hu] at h
    rw [List.cons_append, runOps_cons i _ hu]
    exact ih h

/-- The configuration write that the lines name raises its first failing check, or stores its field. -/
theorem exec_cfgOperation (r : CycleRecord) (s : State) :
    exec (cfgOperation r) s = .next (match fieldOfCode (Word.cfgField r.w) with
      | none => s.raise (.reservedConfigField (Word.cfgField r.w).toNat)
      | some field => writeCfg field (Word.cfgStage r.w) r.cfgValue s) := by
  have code : ∀ c : BitVec 3, c = 0 ∨ c = 1 ∨ c = 2 ∨ c = 3 ∨ c = 4 ∨ c = 5 ∨ c = 6 ∨ c = 7 := by decide
  unfold cfgOperation fieldOfCode
  rcases code (Word.cfgField r.w) with h | h | h | h | h | h | h | h <;> rw [h] <;> rfl

/-- The fault of the configuration write on the lines of the cycle in progress is the one of the cycle's clear form. -/
theorem refCfgFault_eq (r : CycleRecord) (s : State) (h : Word.rst r.w = s.inReset) :
    refCfgFault s.par s.fir s.doTake r = match fieldOfCode (Word.cfgField r.w) with
      | none => some (.reservedConfigField (Word.cfgField r.w).toNat)
      | some field => cfgFault field (Word.cfgStage r.w).toNat r.cfgValue s := by
  unfold refCfgFault
  rcases fieldOfCode (Word.cfgField r.w) with _ | field
  · rfl
  · dsimp only
    unfold cfgFault
    rw [h]
    split
    · rfl
    · split
      · rfl
      · split
        · rfl
        · unfold refCfgHazard cfgHazard isStructural State.idle
          cases field <;> simp

/-- What a configuration write on the lines stores. -/
def cfgStore (r : CycleRecord) (f : Fir) : Fir :=
  match fieldOfCode (Word.cfgField r.w) with
  | none => f
  | some field => storeCfg field (Word.cfgStage r.w).toNat r.cfgValue f

/-- What a coefficient write on the lines stores. -/
def coefStore (p : Params) (r : CycleRecord) (f : Fir) : Fir :=
  { f with mem := memWrite f.mem (coefAddress p r.coefAddr) (coefValue p r.coefData) }

/-- The writes of the clear form are these stores. -/
theorem refWrites_eq (p : Params) (r : CycleRecord) (f : Fir) :
    refWrites p r f = (if Word.coefWe r.w then coefStore p r else id) ((if Word.cfgWe r.w then cfgStore r else id) f) := by
  unfold refWrites
  cases Word.cfgWe r.w <;> cases Word.coefWe r.w <;> rfl

/-- A check that fails is raised; else the store happens. -/
def State.raiseOr (s : State) (k : Option FaultKind) (store : Fir → Fir) : State :=
  match k with
  | some k => s.raise k
  | none => s.write store

/-- The configuration write of a cycle. -/
theorem exec_cfgOperation_raiseOr (r : CycleRecord) (s : State) (h : Word.rst r.w = s.inReset) :
    exec (cfgOperation r) s = .next (s.raiseOr (refCfgFault s.par s.fir s.doTake r) (cfgStore r)) := by
  rw [exec_cfgOperation, refCfgFault_eq r s h]
  unfold State.raiseOr cfgStore writeCfg
  cases fieldOfCode (Word.cfgField r.w) <;> rfl

/-- The coefficient write of a cycle. -/
theorem exec_coefWrite_raiseOr (r : CycleRecord) (s : State) (h : Word.rst r.w = s.inReset) :
    exec (.coefWrite r.coefAddr r.coefData) s
      = .next (s.raiseOr (refCoefFault s.par s.fir s.doTake r) (coefStore s.par r)) := by
  have hb : (!s.inReset && coefHazard (coefAddress s.par r.coefAddr) s)
      = (!Word.rst r.w && !(pathEmpty s.fir && !s.doTake) && (List.range s.par.numStages).any fun i =>
          stageActive s.fir i && inReadRange s.par s.fir i (coefAddress s.par r.coefAddr)) := by
    rw [h, Bool.and_assoc]
    rfl
  simp only [exec, execCoefWrite, refCoefFault, hb]
  split <;> rfl

section RaiseOr

variable (s : State) (k : Option FaultKind) (store : Fir → Fir)

@[simp] theorem raiseOr_par : (s.raiseOr k store).par = s.par := by cases k <;> rfl
@[simp] theorem raiseOr_records : (s.raiseOr k store).records = s.records := by cases k <;> rfl
@[simp] theorem raiseOr_cycle : (s.raiseOr k store).cycle = s.cycle := by cases k <;> rfl
@[simp] theorem raiseOr_fast : (s.raiseOr k store).fast = s.fast := by cases k <;> rfl
@[simp] theorem raiseOr_fir : (s.raiseOr k store).fir = s.fir := by cases k <;> rfl
@[simp] theorem raiseOr_w : (s.raiseOr k store).w = s.w := by cases k <;> rfl
@[simp] theorem raiseOr_path : (s.raiseOr k store).path = s.path := by cases k <;> rfl
@[simp] theorem raiseOr_ports : (s.raiseOr k store).ports = s.ports := by cases k <;> rfl
@[simp] theorem raiseOr_ceg : (s.raiseOr k store).ceg = s.ceg := by cases k <;> rfl
@[simp] theorem raiseOr_raised :
    (s.raiseOr k store).raised = s.raised ++ k.toList.map fun k => ⟨k, s.cycle⟩ := by
  cases k <;> simp [State.raiseOr]
@[simp] theorem raiseOr_doTake : (s.raiseOr k store).doTake = s.doTake := by cases k <;> rfl
@[simp] theorem raiseOr_inReset : (s.raiseOr k store).inReset = s.inReset := by cases k <;> rfl

/-- Where the check passes, the store happens. -/
theorem raiseOr_nxt : (s.raiseOr none store).nxt = store s.nxt := rfl

/-- Nothing else of the cycle in progress changes. -/
theorem raiseOr_eq :
    s.raiseOr k store = { s with nxt := (s.raiseOr k store).nxt, raised := (s.raiseOr k store).raised } := by
  cases k <;> rfl

end RaiseOr

/-- A line that selects at most one operation. -/
theorem runOps_line (line : Bool) (i : Instr) {s t : State} (h : exec i s = .next t) :
    runOps (if line then [i] else []) s = .next (if line then t else s) := by
  cases line
  · rfl
  · simp [runOps, h]

/-- The cycle in progress after the configuration write and the coefficient write of a cycle. -/
def afterWrites (r : CycleRecord) (s : State) : State :=
  let u := if Word.cfgWe r.w then s.raiseOr (refCfgFault s.par s.fir s.doTake r) (cfgStore r) else s
  if Word.coefWe r.w then u.raiseOr (refCoefFault s.par s.fir s.doTake r) (coefStore s.par r) else u

/-- The cycle in progress after a status read, where the line asks for one. -/
def afterStatus (r : CycleRecord) (s : State) : State :=
  if Word.stsRd r.w then s.drive fun d => { d with status := some (!s.inReset && s.fir.ovf) } else s

/-- The control operations of a cycle. -/
theorem runOps_controlOperations (r : CycleRecord) (s : State) (h : Word.rst r.w = s.inReset) :
    runOps (controlOperations r) s = .next (afterStatus r (afterWrites r s)) := by
  have h₁ := runOps_line (Word.cfgWe r.w) _ (exec_cfgOperation_raiseOr r s h)
  unfold controlOperations afterWrites
  rw [runOps_append h₁]
  generalize hu : (if Word.cfgWe r.w then s.raiseOr (refCfgFault s.par s.fir s.doTake r) (cfgStore r) else s) = u
  have hur : Word.rst r.w = u.inReset := by rw [h, ← hu]; split <;> simp
  have hk : refCoefFault u.par u.fir u.doTake r = refCoefFault s.par s.fir s.doTake r := by rw [← hu]; split <;> simp
  have hp : u.par = s.par := by rw [← hu]; split <;> simp
  have h₂ := runOps_line (Word.coefWe r.w) _ (exec_coefWrite_raiseOr r u hur)
  rw [hk, hp] at h₂
  rw [runOps_append h₂]
  exact runOps_line (Word.stsRd r.w) .statusRead rfl

/-- The faults of the control operations of a cycle, in their order. -/
def controlFaults (r : CycleRecord) (s : State) : List FaultKind :=
  (if Word.cfgWe r.w then (refCfgFault s.par s.fir s.doTake r).toList else [])
    ++ (if Word.coefWe r.w then (refCoefFault s.par s.fir s.doTake r).toList else [])

/-- The writes of a cycle change σ' and the raised faults only. -/
theorem afterWrites_eq (r : CycleRecord) (s : State) :
    afterWrites r s = { s with nxt := (afterWrites r s).nxt, raised := (afterWrites r s).raised } := by
  unfold afterWrites
  dsimp only
  split <;> split
  · rw [raiseOr_eq (s.raiseOr _ _), raiseOr_eq s]
  · rw [raiseOr_eq]
  · rw [raiseOr_eq]
  · rfl

/-- The writes of a cycle raise the first failing check of each. -/
theorem afterWrites_raised (r : CycleRecord) (s : State) :
    (afterWrites r s).raised = s.raised ++ (controlFaults r s).map fun k => ⟨k, s.cycle⟩ := by
  unfold afterWrites controlFaults
  dsimp only
  split <;> split <;> simp

/-- Where no check fails, the writes of a cycle happen. -/
theorem afterWrites_nxt (r : CycleRecord) (s : State) (h : controlFaults r s = []) :
    (afterWrites r s).nxt = refWrites s.par r s.nxt := by
  rw [refWrites_eq]
  unfold controlFaults at h
  unfold afterWrites
  generalize refCfgFault s.par s.fir s.doTake r = k at *
  generalize refCoefFault s.par s.fir s.doTake r = l at *
  generalize Word.cfgWe r.w = a at *
  generalize Word.coefWe r.w = b at *
  cases a <;> cases b <;> cases k <;> cases l <;> simp_all [State.raiseOr]

end Machine

end Sys2Proof
end

