-- ==== Sys2Proof/Laws/Memory.lean ====
section
/-! SUPPORT. The coefficient memory: a write keeps the canonical form, a read after a write, and the effect of a write on its
entries. -/

namespace Sys2Proof.Machine

@[simp] theorem memRead_nil (a : Nat) : memRead [] a = none := rfl

theorem memRead_cons (b : Nat) (v : Int) (m : Memory) (a : Nat) :
    memRead ((b, v) :: m) a = if a = b then some v else memRead m a := rfl

/-- Every entry of a written memory is the new one or an old one. -/
theorem mem_memWrite {m : Memory} {a : Nat} {v : Int} {c : Nat × Int} (h : c ∈ memWrite m a v) : c = (a, v) ∨ c ∈ m := by
  induction m with
  | nil => simpa [memWrite] using h
  | cons e m ih =>
    obtain ⟨b, u⟩ := e
    unfold memWrite at h
    split at h
    · simpa using h
    · split at h
      · exact (List.mem_cons.1 h).imp id (List.mem_cons_of_mem _)
      · rcases List.mem_cons.1 h with h | h
        · exact .inr (h ▸ List.mem_cons_self)
        · exact (ih h).imp id (List.mem_cons_of_mem _)

/-- A write keeps the canonical form. -/
theorem memWrite_wf {m : Memory} (a : Nat) (v : Int) (h : m.wf) : (memWrite m a v).wf := by
  induction m with
  | nil => exact List.pairwise_singleton _ _
  | cons e m ih =>
    obtain ⟨b, u⟩ := e
    obtain ⟨hb, hm⟩ := List.pairwise_cons.1 h
    unfold memWrite
    split
    · rename_i hab
      refine List.pairwise_cons.2 ⟨fun c hc => ?_, h⟩
      rcases List.mem_cons.1 hc with rfl | hc
      · exact hab
      · exact hab.trans (hb c hc)
    · split
      · rename_i hab
        subst hab
        exact List.pairwise_cons.2 ⟨hb, hm⟩
      · refine List.pairwise_cons.2 ⟨fun c hc => ?_, ih hm⟩
        rcases mem_memWrite hc with rfl | hc
        · show b < a
          omega
        · exact hb c hc

/-- The memory after reset has the canonical form. -/
theorem reset_memory_wf : State.reset.fir.mem.wf := List.Pairwise.nil

/-- A cell reads as what was written to it. -/
theorem memRead_memWrite_same (m : Memory) (a : Nat) (v : Int) : memRead (memWrite m a v) a = some v := by
  induction m with
  | nil => simp [memWrite, memRead]
  | cons e m ih =>
    obtain ⟨b, u⟩ := e
    unfold memWrite
    split
    · simp [memRead]
    · split
      · simp [memRead]
      · rename_i _ hab
        simp [memRead, hab, ih]

/-- A write leaves every other cell alone. -/
theorem memRead_memWrite_other (m : Memory) (a b : Nat) (v : Int) (h : b ≠ a) :
    memRead (memWrite m a v) b = memRead m b := by
  induction m with
  | nil => simp [memWrite, memRead, h, unlistedCell]
  | cons e m ih =>
    obtain ⟨c, u⟩ := e
    unfold memWrite
    split
    · simp [memRead, h]
    · split
      · rename_i _ hac
        subst hac
        simp [memRead, h]
      · simp only [memRead, ih]

/-- Two lists in canonical form that read alike are equal, so equal memories are equal data. -/
theorem memory_ext {m n : Memory} (hm : m.wf) (hn : n.wf) (h : ∀ a, memRead m a = memRead n a) : m = n := by
  induction m generalizing n with
  | nil =>
    cases n with
    | nil => rfl
    | cons e n => simpa [memRead, unlistedCell] using h e.1
  | cons e m ih =>
    obtain ⟨b, u⟩ := e
    have low : ∀ {c : Nat} {l : Memory}, (∀ x ∈ l, c < x.1) → memRead l c = none := by
      intro c l hl
      induction l with
      | nil => rfl
      | cons x l ihl =>
        have := hl x List.mem_cons_self
        simp only [memRead]
        rw [if_neg (by omega)]
        exact ihl fun y hy => hl y (List.mem_cons_of_mem _ hy)
    cases n with
    | nil => simpa [memRead, unlistedCell] using h b
    | cons e' n =>
      obtain ⟨c, w⟩ := e'
      obtain ⟨hb, hm'⟩ := List.pairwise_cons.1 hm
      obtain ⟨hc, hn'⟩ := List.pairwise_cons.1 hn
      have hbc : b = c := by
        by_contra hne
        rcases Nat.lt_or_gt_of_ne hne with hlt | hgt
        · have := h b
          simp only [memRead, if_true, if_neg hne] at this
          rw [low fun x hx => hlt.trans (hc x hx)] at this
          cases this
        · have := h c
          simp only [memRead, if_true, if_neg (Ne.symm hne)] at this
          rw [low fun x hx => Nat.lt_trans hgt (hb x hx)] at this
          cases this
      subst hbc
      have huw : u = w := by simpa [memRead] using h b
      subst huw
      congr 1
      refine ih hm' hn' fun a => ?_
      by_cases hab : a = b
      · subst hab
        rw [low hb, low hc]
      · simpa [memRead, hab] using h a

end Sys2Proof.Machine
end

