-- ==== Sys2Proof/Laws/PerInstr.lean ====
section
/-! SUPPORT. The statements made per operation: the record that the encoder writes for an operation carries the word that the
operation's row of spec/opcode_table.json gives. -/

namespace Sys2Proof.Laws

/-- A row of spec/opcode_table.json: its match and mask over the word W, or its generator record E. -/
inductive TableRow where
  | cycle (pattern mask : Word)
  | edge (e : Bool)

/-- The row of each operation, as spec/opcode_table.json writes it. -/
def tableRow : Instr → TableRow
  | .reset _ => .cycle 0x0001 0x0001
  | .sinkXfer _ _ _ => .cycle 0x0006 0x0007
  | .sinkStall => .cycle 0x0002 0x0007
  | .srcXfer => .cycle 0x0018 0x0019
  | .srcStall => .cycle 0x0008 0x0019
  | .pathTake _ => .cycle 0x2000 0x2001
  | .srcOffer => .cycle 0x4000 0x4001
  | .coefWrite _ _ => .cycle 0x0020 0x0020
  | .cfgDecimation _ _ => .cycle 0x0040 0x03C0
  | .cfgOpsM1 _ _ => .cycle 0x00C0 0x03C0
  | .cfgOddOps _ _ => .cycle 0x0140 0x03C0
  | .cfgMaccTrunc _ _ => .cycle 0x01C0 0x03C0
  | .cfgBypass _ _ => .cycle 0x0240 0x03C0
  | .cfgFirEnable _ _ => .cycle 0x02C0 0x03C0
  | .cfgReserved _ _ _ => .cycle 0x0340 0x0340
  | .statusRead => .cycle 0x1000 0x1000
  | .disabledPass => .cycle 0x2000 0x2001
  | .stageBypass _ => .cycle 0x2000 0x2001
  | .stageConsume _ _ => .cycle 0x2000 0x2001
  | .firOutput _ _ => .cycle 0x2000 0x2001
  | .cegFastEdge => .edge false
  | .cegCommonEdge => .edge true

/-- The record is one that the row selects. -/
def TableRow.Selects : TableRow → Record → Prop
  | .cycle pattern mask, .cycle r => r.w &&& mask = pattern
  | .edge e, .edge e' => e' = e
  | .cycle _ _, .edge _ => False
  | .edge _, .cycle _ => False

/-- The record that the encoder writes for a well-formed operation is one that the operation's row selects. -/
def EncodesItsRow.Statement (i : Instr) : Prop :=
  ∀ p : Params, i.WellFormed p → (tableRow i).Selects (encode i)

/-- The word of a configuration write whose code is below 6 is one of its row. -/
theorem cfgWord_and_mask : ∀ (code : BitVec 3) (stage : BitVec 2),
    cfgWord code stage &&& 0x03C0#16 = 0x0040#16 ||| (code.setWidth 16 <<< 7) := by decide

/-- The word of a configuration write with a reserved code is one of CFG_RESERVED. -/
theorem cfgWord_reserved : ∀ (code : BitVec 3) (stage : BitVec 2), code = 6 ∨ code = 7 →
    cfgWord code stage &&& 0x0340#16 = 0x0340#16 := by decide

theorem EncodesItsRow.reset (rready : Bool) : EncodesItsRow.Statement (.reset rready) :=
  fun _ _ => (by decide : (0x0001#16 : Word) &&& 0x0001#16 = 0x0001#16)

theorem EncodesItsRow.sinkXfer (re im : Nat) (last : Bool) : EncodesItsRow.Statement (.sinkXfer re im last) :=
  fun _ _ => (by decide : (0x0006#16 : Word) &&& 0x0007#16 = 0x0006#16)

theorem EncodesItsRow.sinkStall : EncodesItsRow.Statement .sinkStall :=
  fun _ _ => (by decide : (0x0002#16 : Word) &&& 0x0007#16 = 0x0002#16)

theorem EncodesItsRow.srcXfer : EncodesItsRow.Statement .srcXfer :=
  fun _ _ => (by decide : (0x0018#16 : Word) &&& 0x0019#16 = 0x0018#16)

theorem EncodesItsRow.srcStall : EncodesItsRow.Statement .srcStall :=
  fun _ _ => (by decide : (0x0008#16 : Word) &&& 0x0019#16 = 0x0008#16)

theorem EncodesItsRow.pathTake (olast : Bool) : EncodesItsRow.Statement (.pathTake olast) :=
  fun _ _ => (by decide : (0x2000#16 : Word) &&& 0x2001#16 = 0x2000#16)

theorem EncodesItsRow.srcOffer : EncodesItsRow.Statement .srcOffer :=
  fun _ _ => (by decide : (0x4000#16 : Word) &&& 0x4001#16 = 0x4000#16)

theorem EncodesItsRow.coefWrite (addr data : Nat) : EncodesItsRow.Statement (.coefWrite addr data) :=
  fun _ _ => (by decide : (0x0020#16 : Word) &&& 0x0020#16 = 0x0020#16)

theorem EncodesItsRow.cfgDecimation (stage : BitVec 2) (v : Nat) : EncodesItsRow.Statement (.cfgDecimation stage v) :=
  fun _ _ => (cfgWord_and_mask 0 stage).trans (by decide)

theorem EncodesItsRow.cfgOpsM1 (stage : BitVec 2) (v : Nat) : EncodesItsRow.Statement (.cfgOpsM1 stage v) :=
  fun _ _ => (cfgWord_and_mask 1 stage).trans (by decide)

theorem EncodesItsRow.cfgOddOps (stage : BitVec 2) (v : Nat) : EncodesItsRow.Statement (.cfgOddOps stage v) :=
  fun _ _ => (cfgWord_and_mask 2 stage).trans (by decide)

theorem EncodesItsRow.cfgMaccTrunc (stage : BitVec 2) (v : Nat) : EncodesItsRow.Statement (.cfgMaccTrunc stage v) :=
  fun _ _ => (cfgWord_and_mask 3 stage).trans (by decide)

theorem EncodesItsRow.cfgBypass (stage : BitVec 2) (v : Nat) : EncodesItsRow.Statement (.cfgBypass stage v) :=
  fun _ _ => (cfgWord_and_mask 4 stage).trans (by decide)

theorem EncodesItsRow.cfgFirEnable (stage : BitVec 2) (v : Nat) : EncodesItsRow.Statement (.cfgFirEnable stage v) :=
  fun _ _ => (cfgWord_and_mask 5 stage).trans (by decide)

theorem EncodesItsRow.cfgReserved (code : BitVec 3) (stage : BitVec 2) (v : Nat) :
    EncodesItsRow.Statement (.cfgReserved code stage v) := by
  intro p h
  refine cfgWord_reserved code stage ?_
  simp only [Instr.WellFormed, Instr.failedCheck] at h
  split at h
  · assumption
  · cases h

theorem EncodesItsRow.statusRead : EncodesItsRow.Statement .statusRead :=
  fun _ _ => (by decide : (0x1000#16 : Word) &&& 0x1000#16 = 0x1000#16)

theorem EncodesItsRow.disabledPass : EncodesItsRow.Statement .disabledPass :=
  fun _ _ => (by decide : (0x2000#16 : Word) &&& 0x2001#16 = 0x2000#16)

theorem EncodesItsRow.stageBypass (i : Nat) : EncodesItsRow.Statement (.stageBypass i) :=
  fun _ _ => (by decide : (0x2000#16 : Word) &&& 0x2001#16 = 0x2000#16)

theorem EncodesItsRow.stageConsume (i : Nat) (olast : Bool) : EncodesItsRow.Statement (.stageConsume i olast) :=
  fun _ _ => (by decide : (0x2000#16 : Word) &&& 0x2001#16 = 0x2000#16)

theorem EncodesItsRow.firOutput (i : Nat) (olast : Bool) : EncodesItsRow.Statement (.firOutput i olast) :=
  fun _ _ => (by decide : (0x2000#16 : Word) &&& 0x2001#16 = 0x2000#16)

theorem EncodesItsRow.cegFastEdge : EncodesItsRow.Statement .cegFastEdge := fun _ _ => rfl

theorem EncodesItsRow.cegCommonEdge : EncodesItsRow.Statement .cegCommonEdge := fun _ _ => rfl

end Sys2Proof.Laws
end

