-- ==== Sys2Proof/Laws/Run.lean ====
section
/-! SUPPORT. Runs: what one step on a record from outside can do, said once; the induction over a run; the clock duty, which
every run keeps; no cycle of a run starts in a faulted state; the observations of a finite run. -/

namespace Sys2Proof.Safety

open Sys2Proof.Machine

@[simp] theorem withRecord_par (s : State) (r : Record) : (withRecord s r).par = s.par := rfl
@[simp] theorem withRecord_records (s : State) (r : Record) : (withRecord s r).records = [r] := rfl
@[simp] theorem withRecord_cycle (s : State) (r : Record) : (withRecord s r).cycle = s.cycle := rfl
@[simp] theorem withRecord_fast (s : State) (r : Record) : (withRecord s r).fast = s.fast := rfl
@[simp] theorem withRecord_fir (s : State) (r : Record) : (withRecord s r).fir = s.fir := rfl
@[simp] theorem withRecord_w (s : State) (r : Record) : (withRecord s r).w = s.w := rfl
@[simp] theorem withRecord_nxt (s : State) (r : Record) : (withRecord s r).nxt = s.nxt := rfl
@[simp] theorem withRecord_path (s : State) (r : Record) : (withRecord s r).path = s.path := rfl
@[simp] theorem withRecord_raised (s : State) (r : Record) : (withRecord s r).raised = s.raised := rfl
@[simp] theorem withRecord_ports (s : State) (r : Record) : (withRecord s r).ports = s.ports := rfl
@[simp] theorem withRecord_ceg (s : State) (r : Record) : (withRecord s r).ceg = s.ceg := rfl

/-- What one step on a record can do: a cycle of the FIR block, or a fast cycle of the generator that keeps the clock duty. -/
theorem stepOn_next {s t : State} {r : Record} (h : stepOn s r = .next t) :
    s.par.WellFormed ∧
      ((∃ c, r = .cycle c ∧ runCycle (withRecord s r) c [] = .next t)
        ∨ ∃ e, r = .edge e ∧ e = isCommonEdge s.par.ratio s.fast
            ∧ t = { openEdge (withRecord s r) [] with ceg := fastEdge s.par.ratio e s.ceg }) := by
  obtain ⟨hw, ⟨c, rest, hr, h⟩ | ⟨e, rest, hr, he, h⟩⟩ := step_next h
  · injection hr with hr hrest
    subst hrest
    exact ⟨hw, .inl ⟨c, hr, h⟩⟩
  · injection hr with hr hrest
    subst hrest
    exact ⟨hw, .inr ⟨e, hr, he, h⟩⟩

/-- A step on a record keeps the clock duty: any other generator record is refused. -/
theorem stepOn_clockDuty {s t : State} {r : Record} (h : stepOn s r = .next t) : ClockDuty s r := by
  rintro e rfl
  obtain ⟨-, ⟨c, hc, -⟩ | ⟨e', he', he, -⟩⟩ := stepOn_next h
  · cases hc
  · cases he'
    exact he

/-- A cycle of the FIR block starts in a state that is not faulted (R332). -/
theorem stepOn_cycle_noFault {s t : State} {c : CycleRecord} (h : stepOn s (.cycle c) = .next t) : NoFault s := by
  obtain ⟨-, ⟨c', -, hs⟩ | ⟨e, he, -⟩⟩ := stepOn_next h
  · unfold runCycle at hs
    split at hs
    · cases hs
    · rename_i hn
      exact not_not.1 hn
  · cases he

variable {inputs : Nat → Record} {states : Nat → State} {length : ℕ∞}

/-- What holds at power-on and is kept by every step holds of every state of a run. -/
theorem IsRun.invariant (h : IsRun inputs states length) {P : State → Prop} (start : ∀ s, AtPowerOn s → P s)
    (keep : ∀ s t r, P s → stepOn s r = .next t → P t) : ∀ n : Nat, n ≤ length → P (states n)
  | 0, _ => start _ h.start
  | n + 1, hn =>
    have hlt : (n : ℕ∞) < length := lt_of_lt_of_le (by exact_mod_cast n.lt_succ_self) hn
    keep _ _ _ (h.invariant start keep n hlt.le) (h.steps n hlt)

/-- Every run keeps the clock duty. -/
theorem IsRun.clockDuty (h : IsRun inputs states length) (n : Nat) (hn : n < length) : ClockDuty (states n) (inputs n) :=
  stepOn_clockDuty (h.steps n hn)

/-- No cycle of a run starts in a faulted state. -/
theorem IsRun.noFault (h : IsRun inputs states length) {n : Nat} (hn : n < length) {c : CycleRecord}
    (hc : inputs n = .cycle c) : NoFault (states n) :=
  stepOn_cycle_noFault (hc ▸ h.steps n hn)

/-- A run of the machine is admitted where its producer keeps the hold duty. -/
theorem IsRun.isAdmitted (h : IsRun inputs states length)
    (hold : ∀ (n m : Nat) (r r' : CycleRecord), m < length → inputs n = .cycle r → Stalls (states n) r →
      IsNextCycle inputs n m r' → HoldDuty r r') : IsAdmitted inputs states length where
  toIsRun := h
  clock := h.clockDuty
  hold := hold

/-- The observations over consecutive steps are those of each step, and the run ends normally where its last state is not
faulted. -/
theorem observeRun_of_steps (k n : Nat)
    (h : ∀ i, k ≤ i → i < k + n → stepOn (states i) (inputs i) = .next (states (i + 1))) :
    observeRun ((List.range' k n).map inputs) (states k)
      = ((List.range' k n).map fun i => observe (inputs i) (states i) (states (i + 1)), decide (NoFault (states (k + n)))) := by
  induction n generalizing k with
  | zero => rfl
  | succ n ih =>
    have tail := ih (k + 1) fun i hi hin => h i (Nat.le_of_succ_le hi) (by omega)
    have last : k + 1 + n = k + (n + 1) := by omega
    simp only [List.range'_succ, List.map_cons, observeRun, h k le_rfl (by omega), tail, last]

/-- The observations of a finite run (R386). -/
theorem IsRun.observeRun {n : Nat} (h : IsRun inputs states n) :
    observeRun ((List.range' 0 n).map inputs) (states 0)
      = ((List.range' 0 n).map fun i => observe (inputs i) (states i) (states (i + 1)), decide (NoFault (states n))) := by
  have := observeRun_of_steps 0 n fun i _ hi => h.steps i (by exact_mod_cast (by omega : i < n))
  rwa [Nat.zero_add] at this

end Sys2Proof.Safety
end

