-- ==== Sys2Proof/Machine/Trace.lean ====
section
/-! DEFINITION. The trace syntax and the pseudo-operations (spec/30_encoding.md R140, R141) as functions that give records. -/

namespace Sys2Proof.Machine

/-! One line of a trace (R140): each item sets its bits and data fields of the record of the cycle. -/

/-- Set bits of W. -/
def traceSet (bits : Word) (r : CycleRecord) : CycleRecord := { r with w := r.w ||| bits }

/-- `RST rready=<b>`. -/
def traceRst (rready : Bool) (r : CycleRecord) : CycleRecord := { traceSet 0x0001 r with rready := rready }

/-- `IN <re>,<im>` or `IN <re>,<im>,L`. -/
def traceIn (p : Params) (re im : Int) (last : Bool) (r : CycleRecord) : CycleRecord :=
  { traceSet 0x0002 r with sinkRe := pattern p.sinkWidth re, sinkIm := pattern p.sinkWidth im, sinkLast := last }

/-- `RDY`. -/
def traceRdy (r : CycleRecord) : CycleRecord := traceSet 0x0010 r

/-- `COEF <a> <- <v>`. -/
def traceCoef (p : Params) (a : Nat) (v : Int) (r : CycleRecord) : CycleRecord :=
  { traceSet 0x0020 r with coefAddr := a, coefData := pattern p.coefWidth v }

/-- The field code of a configuration field (R122). -/
def fieldCode : CfgField → BitVec 3
  | .dec => 0
  | .opsm1 => 1
  | .odd => 2
  | .trunc => 3
  | .bypass => 4
  | .firEnable => 5

/-- `CFG s<i>.<field> <- <v>`, or `CFG fir_enable <- <b>` with i = 0. Of a stage number i >= 4, which the 2-bit cfg_stage cannot
carry, the low two bits are set: R140 is silent there (DESIGN CHOICE, log entry 34). -/
def traceCfg (field : CfgField) (i v : Nat) (r : CycleRecord) : CycleRecord :=
  { traceSet (cfgWord (fieldCode field) (BitVec.ofNat 2 i)) r with cfgValue := v }

/-- `STS`. -/
def traceSts (r : CycleRecord) : CycleRecord := traceSet 0x1000 r

/-- `take`. -/
def traceTake (r : CycleRecord) : CycleRecord := traceSet 0x2000 r

/-- `offer`. -/
def traceOffer (r : CycleRecord) : CycleRecord := traceSet 0x4000 r

/-- `olast=<b>`. -/
def traceOlast (b : Bool) (r : CycleRecord) : CycleRecord := { r with olast := b }

/-- The record of a trace line with the given items; no item is the empty cycle `-`. A draw that no item states is 0, the
convention of spec/95_test_vectors.md section 0; of two items that set the same lines, the strobes and codes are or-ed and the
later data stand (DESIGN CHOICE, log entry 34). -/
def traceLine (items : List (CycleRecord → CycleRecord)) : Record :=
  .cycle (items.foldl (fun r item => item r) CycleRecord.empty)

/-! The pseudo-operations (R141). -/

/-- `BOOT`, with the draw of its cycle. -/
def pseudoBoot (rready : Bool) : List Record := [traceLine [traceRst rready]]

/-- `LOADCOEFS s<i> [v0, v1, ...]`: one coefficient write a cycle, from COEF_BASE[i] on; from cell 0 on for a stage number that
no stage has (DESIGN CHOICE, log entry 34). -/
def pseudoLoadCoefs (p : Params) (i : Nat) (vs : List Int) : List Record :=
  vs.zipIdx.map fun v => traceLine [traceCoef p (p.coefBase i + v.2) v.1]

/-- `CONFIG s<i> D=<d> L=<l> t=<t>`, which requires l >= 1; for l = 0, which R141 excludes, opsm1 is 0 (DESIGN CHOICE, log
entry 34). -/
def pseudoConfig (i d l t : Nat) : List Record :=
  [traceLine [traceCfg .dec i d],
   traceLine [traceCfg .opsm1 i ((l + 1) / 2 - 1)],
   traceLine [traceCfg .odd i (l % 2)],
   traceLine [traceCfg .trunc i t],
   traceLine [traceCfg .bypass i 0]]

/-- `ENABLE`. -/
def pseudoEnable : List Record := [traceLine [traceCfg .firEnable 0 1]]

/-- `WAIT <n>`. -/
def pseudoWait (n : Nat) : List Record := List.replicate n (traceLine [])

/-- The control plane's side of the coefficient-layout contract (spec/45_control_plane.md R300): load the hardware-ordered
sequence that the external procedure LAYOUT gives for a stage of L = `operations` rows and decimation d. The odd-operations
flag is the one that CONFIG writes for L (R141; log entry 21). -/
def pseudoLoadLayout (p : Params) (i : Nat) (taps : List Int) (operations d : Nat) : List Record :=
  pseudoLoadCoefs p i (Config.layout taps operations d (operations % 2 == 1) p.numCells).ordered

end Sys2Proof.Machine
end

