-- ==== Sys2Proof/Tests/Slice0.lean ====
section
/-! SUPPORT. Tests: the checks of WellFormed and of the parameters, one word for every operation written out from the opcode
map, single steps whose expected values are those of spec/95_test_vectors.md, and for every statement with premises a state
and operands that meet them. -/

open Sys2Proof Sys2Proof.Machine Sys2Proof.Safety

namespace Sys2Proof.Tests

/-! ## Well-formedness -/

theorem test_wf_sinkRe : (Instr.sinkXfer 65536 0 false).failedCheck Params.p0 = some .sinkRealPattern := by decide
theorem test_wf_sinkIm : (Instr.sinkXfer 65535 65536 false).failedCheck Params.p0 = some .sinkImagPattern := by decide
theorem test_wf_coefAddr : (Instr.coefWrite 16 0).failedCheck Params.p0 = some .coefAddressPattern := by decide
theorem test_wf_coefData : (Instr.coefWrite 15 0x40000).failedCheck Params.p0 = some .coefDataPattern := by decide
theorem test_wf_cfgValue : (Instr.cfgDecimation 0 16).failedCheck Params.p0 = some .cfgValuePattern := by decide
theorem test_wf_cfgCode : (Instr.cfgReserved 5 0 0).failedCheck Params.p0 = some .cfgCodeNotReserved := by decide
theorem test_wf_stage : (Instr.stageConsume 1 false).failedCheck Params.p0 = some .noSuchStage := by decide
theorem test_wf_accepts : (Instr.coefWrite 15 0x3FFFF).WellFormed Params.p0
    ∧ (Instr.cfgReserved 7 3 15).WellFormed Params.p0 := by decide

/-! The parameters of program P2 of spec/95_test_vectors.md, and one parameter set for each check of R10. -/

/-- P2's parameters: three stages. -/
def p2 : Params := { Params.p0 with stages := [⟨12, 16, 0⟩, ⟨16, 16, 4⟩, ⟨16, 16, 8⟩] }

theorem test_params_accept : Params.p0.WellFormed ∧ p2.WellFormed := by decide
theorem test_params_stageCount :
    { Params.p0 with stages := [⟨12, 16, 0⟩, ⟨16, 16, 8⟩] }.failedCheck = some .stageCount := by decide
theorem test_params_inputWidth : { Params.p0 with stages := [⟨1, 16, 0⟩] }.failedCheck = some (.inputWidth 0) := by decide
theorem test_params_outputWidth : { Params.p0 with stages := [⟨16, 1, 0⟩] }.failedCheck = some (.outputWidth 0) := by decide
theorem test_params_coefWidth : { Params.p0 with coefWidth := 1 }.failedCheck = some .coefficientWidth := by decide
theorem test_params_junction : { p2 with stages := [⟨12, 16, 0⟩, ⟨15, 16, 4⟩, ⟨16, 16, 8⟩] }.failedCheck
    = some (.junctionNarrows 0) := by decide
theorem test_params_coefBase : { p2 with stages := [⟨12, 16, 0⟩, ⟨16, 16, 4⟩, ⟨16, 16, 16⟩] }.failedCheck
    = some (.coefBaseOutside 2) := by decide
theorem test_params_coefBaseZero : { Params.p0 with stages := [⟨16, 16, 1⟩] }.failedCheck = some .coefBaseNotZero := by decide
theorem test_params_decWidth : { Params.p0 with decWidth := 0 }.failedCheck = some .decimationFieldWidth := by decide
theorem test_params_opsWidth : { Params.p0 with opsWidth := 0 }.failedCheck = some .operationsFieldWidth := by decide
theorem test_params_truncWidth : { Params.p0 with truncWidth := 0 }.failedCheck = some .truncationFieldWidth := by decide
theorem test_params_accWidth : { Params.p0 with accWidth := some 1 }.failedCheck = some .accumulatorWidth := by decide
theorem test_params_inDepth : { Params.p0 with inDepth := 0 }.failedCheck = some .inputDepth := by decide
theorem test_params_pathCap : { Params.p0 with pathCap := 0 }.failedCheck = some .pathCapacity := by decide
theorem test_params_ratio : { Params.p0 with ratio := 0 }.failedCheck = some .clockRatio := by decide

/-! ## Decoding: one word for every operation, written out from the fields of R110 and the opcode map of R123 -/

/-- The operations of a record with the word w and the side fields of an example. -/
def ops (w : Word) : Except DecodeError (List Instr) :=
  decode { w := w, sinkRe := 5, sinkIm := 65531, sinkLast := true, coefAddr := 3, coefData := 9, cfgValue := 7, rready := true,
           olast := true }

theorem test_decode_reset : ops 0x0001 = .ok [.reset true] := by decide
theorem test_decode_sinkXfer : ops 0x0006 = .ok [.sinkXfer 5 65531 true] := by decide
theorem test_decode_sinkStall : ops 0x0002 = .ok [.sinkStall] := by decide
theorem test_decode_srcXfer : ops 0x001C = .ok [.srcXfer] := by decide
theorem test_decode_srcStall : ops 0x0008 = .ok [.srcStall] := by decide
theorem test_decode_pathTake : ops 0x2000 = .ok [.pathTake true] := by decide
theorem test_decode_srcOffer : ops 0x4004 = .ok [.srcOffer] := by decide
theorem test_decode_coefWrite : ops 0x0024 = .ok [.coefWrite 3 9] := by decide
theorem test_decode_cfgDecimation : ops 0x0844 = .ok [.cfgDecimation 2 7] := by decide
theorem test_decode_cfgOpsM1 : ops 0x08C4 = .ok [.cfgOpsM1 2 7] := by decide
theorem test_decode_cfgOddOps : ops 0x0944 = .ok [.cfgOddOps 2 7] := by decide
theorem test_decode_cfgMaccTrunc : ops 0x09C4 = .ok [.cfgMaccTrunc 2 7] := by decide
theorem test_decode_cfgBypass : ops 0x0644 = .ok [.cfgBypass 1 7] := by decide
theorem test_decode_cfgFirEnable : ops 0x02C4 = .ok [.cfgFirEnable 0 7] := by decide
theorem test_decode_cfgReserved : ops 0x0344 = .ok [.cfgReserved 6 0 7] ∧ ops 0x03C4 = .ok [.cfgReserved 7 0 7] := by decide
theorem test_decode_statusRead : ops 0x1004 = .ok [.statusRead] := by decide
theorem test_decode_several : ops 0x01FC = .ok [.cfgMaccTrunc 0 7, .coefWrite 3 9, .srcXfer] := by decide
theorem test_decode_bit15 : ops 0x8000 = .error .reservedBit15 := by decide
theorem test_decode_edges : decodeRecord (.edge false) = .ok [.cegFastEdge]
    ∧ decodeRecord (.edge true) = .ok [.cegCommonEdge] := by decide

/-- The words of spec/opcode_table.json; the four internal rows have the word of PATH_TAKE (R123). -/
theorem test_decode_table : decodeTableWord 16 0x2000 = some (.pathTake false) ∧ decodeTableWord 16 0x0340 = some (.cfgReserved 6 0 0)
    ∧ decodeTableWord 16 0x0008 = some .srcStall ∧ decodeTableWord 8 0 = some .cegFastEdge
    ∧ decodeTableWord 8 1 = some .cegCommonEdge := by decide

/-! ## States -/

/-- The state of an outcome that is a next state. -/
def after : Host.Outcome State Fault Refusal → Option State
  | .next t => some t
  | .fault _ => none
  | .refused _ => none

/-- The machine between two cycles, before cycle 15, with the FIR block f. -/
def idle (p : Params) (f : Fir) : State := State.idleWith p f ⟨false, false, List.replicate p.ratio false⟩ 15 Ports.silent

/-- A record with the word w. -/
def word (w : Word) : Record := .cycle (CycleRecord.ofWord w)

/-- What one cycle with the record r makes of the FIR block f. -/
def firAfter (p : Params) (f : Fir) (r : Record) : Option Fir := (after (step (withRecord (idle p f) r))).map State.fir

/-- The faults that one cycle with the record r records. -/
def faultsAfter (p : Params) (f : Fir) (r : Record) : Option (List FaultKind) :=
  (firAfter p f r).map fun g => g.faults.map FaultRec.kind

/-- P1 of spec/95_test_vectors.md before its cycle c15: output 0 is offered, the fourth input is buffered. -/
def p1 : Fir :=
  { Fir.afterReset Params.p0 with
    firEnable := true
    cfg := [⟨some 2, some 0, some false, some 1, some false⟩]
    mem := [(0, 1), (1, 2), (2, 3), (3, 4)]
    inbuf := [⟨4, -4, false⟩]
    prevReady := true
    st := [⟨[⟨1, -1⟩, ⟨2, -2⟩, ⟨3, -3⟩], 1⟩]
    pending := [⟨2, -2, false⟩]
    offered := true
    fresh := false }

/-- The prefix Q of spec/95_test_vectors.md section 2.7, then `IN 1,1`. -/
def q : Fir :=
  { Fir.afterReset Params.p0 with
    firEnable := true
    cfg := [⟨some 1, some 0, some true, some 0, some false⟩]
    mem := [(0, 1)]
    inbuf := [⟨1, 1, false⟩]
    prevReady := true }

/-- Q, `IN 1,1`, `take`, `offer`. -/
def qTaken : Fir :=
  { q with inbuf := [], st := [⟨[⟨1, 1⟩], 0⟩], pending := [⟨1, 1, false⟩], offered := true, fresh := false }

/-- Q before `COEF 0 <- 1`, then `IN 1,1`: the stage is configured, its cell unwritten. -/
def qNoCoef : Fir := { q with mem := [] }

/-- P2 before its cycle c17: stages 0 and 2 hold one sample of a group of two; stage 1 is bypassed. -/
def p2Fir : Fir :=
  { Fir.afterReset p2 with
    firEnable := true
    cfg := [⟨some 2, some 0, some true, some 0, some false⟩, ⟨none, none, none, none, some true⟩,
            ⟨some 2, some 0, some true, some 1, some false⟩]
    mem := [(0, 1), (1, 1), (8, 1), (9, 1)]
    inbuf := [⟨5, -2, false⟩]
    prevReady := true
    st := [⟨[⟨1, 0⟩, ⟨2, 0⟩, ⟨3, 0⟩], 1⟩, StageSt.start, ⟨[⟨3, 0⟩], 1⟩]
    fresh := false }

/-- The disabled block with the given input buffer and pending output, output valid as there is one (P3). -/
def p3 (inbuf pending : List Sample) (ovf : Bool) : Fir :=
  { Fir.afterReset Params.p0 with
    inbuf := inbuf, prevReady := true, ovf := ovf, pending := pending, offered := !pending.isEmpty, fresh := false }

/-- P0 with a 12-bit output (V-FLT-6 and V-FLT-7). -/
def pNarrow : Params := { Params.p0 with stages := [⟨16, 12, 0⟩] }

/-! ## Single steps, with the values of spec/95_test_vectors.md -/

/-- V-RST-1 c3: reset discards the buffered and the pending sample and the offered one on the sink. -/
theorem test_reset_discards :
    firAfter Params.p0 (p3 [⟨3, 4, false⟩] [⟨1, 2, false⟩] true)
        (.cycle { CycleRecord.ofWord 0x0013 with sinkRe := 9, sinkIm := 9 })
      = some (Fir.afterReset Params.p0) := by decide

/-- P1 c11: `IN 1,-1`. -/
theorem test_sinkXfer : (firAfter Params.p0 (Fir.afterReset Params.p0)
    (traceLine [traceIn Params.p0 1 (-1) false])).map Fir.inbuf = some [⟨1, -1, false⟩] := by decide

/-- P3 c3: the buffer is full, ready falls and the flag is set at the end of the cycle. -/
theorem test_sinkStall : (firAfter Params.p0 (p3 [⟨5, 5, false⟩, ⟨6, 6, false⟩] [] false)
    (traceLine [traceIn Params.p0 7 7 false])).map (fun f => (f.inbuf, f.ovf))
      = some ([⟨5, 5, false⟩, ⟨6, 6, false⟩], true) := by decide

/-- P1 c15: output 0 is transferred, the take computes output 1 = (10, -10), which is offered. -/
theorem test_srcXfer_take_offer :
    firAfter Params.p0 p1 (word 0x6010) = some
      { p1 with inbuf := [], st := [⟨[⟨1, -1⟩, ⟨2, -2⟩, ⟨3, -3⟩, ⟨4, -4⟩], 0⟩], pending := [⟨10, -10, false⟩] } := by decide

/-- P1 c15: the block drives the patterns of (2, -2). -/
theorem test_srcXfer_data : (after (step (withRecord (idle Params.p0 p1) (word 0x6010)))).map (fun t => (t.ports.src, t.ports.delivered))
    = some (some ⟨2, 65534, false⟩, some ⟨2, 65534, false⟩) := by decide

/-- P3 c5: a stall holds the offer while a take appends behind it. -/
theorem test_srcStall : (firAfter Params.p0 (p3 [⟨6, 6, false⟩] [⟨5, 5, false⟩] true) (word 0x2000)).map
    (fun f => (f.pending, f.offered, f.ovf)) = some ([⟨5, 5, false⟩, ⟨6, 6, false⟩], true, true) := by decide

/-- V-DIS-1 c2 and c3 in one cycle: the disabled block passes (5, -7) with its last bit, and offers it. -/
theorem test_disabledPass : (firAfter Params.p0 (p3 [⟨5, -7, true⟩] [] false) (word 0x6000)).map
    (fun f => (f.inbuf, f.pending, f.offered)) = some ([], [⟨5, -7, true⟩], true) := by decide

/-- P2 c17: stage 0 gives (8, -2), stage 1 passes it, stage 2 gives (6, -1). -/
theorem test_cascade : (firAfter p2 p2Fir (word 0x6000)).map (fun f => (f.st, f.pending)) = some
    ([⟨[⟨1, 0⟩, ⟨2, 0⟩, ⟨3, 0⟩, ⟨5, -2⟩], 0⟩, StageSt.start, ⟨[⟨3, 0⟩, ⟨8, -2⟩], 0⟩], [⟨6, -1, false⟩]) := by decide

/-- R226: the output's last bit is the draw. -/
theorem test_olast : (firAfter Params.p0 p1 (.cycle { CycleRecord.ofWord 0x2000 with olast := true })).map Fir.pending
    = some [⟨2, -2, false⟩, ⟨10, -10, true⟩] := by decide

/-- `COEF 3 <- -1` carries 0x3FFFF and stores -1 (section 2.1). -/
theorem test_coefWrite : (firAfter Params.p0 (Fir.afterReset Params.p0)
    (.cycle { CycleRecord.ofWord 0x0020 with coefAddr := 3, coefData := 0x3FFFF })).map Fir.mem = some [(3, -1)] := by decide

/-- P2 c4: a coefficient write and a macc_trunc write share a cycle. -/
theorem test_cfgMaccTrunc : (firAfter p2 (Fir.afterReset p2)
    (traceLine [traceCfg .trunc 0 0, traceCoef p2 9 1])).map (fun f => ((cfgOf f 0).trunc, f.mem))
      = some (some 0, [(9, 1)]) := by decide

/-- P2 c7, c8 and c11, and V-BYP-1: each write stores its field. -/
theorem test_cfg_fields :
    (firAfter p2 (Fir.afterReset p2) (traceLine [traceCfg .dec 2 2])).map (fun f => (cfgOf f 2).dec) = some (some 2)
      ∧ (firAfter p2 (Fir.afterReset p2) (traceLine [traceCfg .opsm1 2 0])).map (fun f => (cfgOf f 2).opsm1) = some (some 0)
      ∧ (firAfter p2 (Fir.afterReset p2) (traceLine [traceCfg .odd 2 1])).map (fun f => (cfgOf f 2).odd) = some (some true)
      ∧ (firAfter p2 (Fir.afterReset p2) (traceLine [traceCfg .bypass 1 1])).map (fun f => (cfgOf f 1).bypass)
          = some (some true)
      ∧ (firAfter p2 (Fir.afterReset p2) (traceLine [traceCfg .firEnable 0 1])).map Fir.firEnable = some true := by decide

/-- V-CFG-3 c10: a structural write in a reset cycle while streaming is accepted. -/
theorem test_cfg_in_reset : firAfter Params.p0 qTaken (traceLine [traceRst false, traceCfg .dec 0 2]) = some
    { Fir.afterReset Params.p0 with firEnable := true, mem := [(0, 1)], cfg := [⟨some 2, some 0, some true, some 0, some false⟩] } := by
  decide

/-- P3 c6: the status read samples the flag. V-OVF-1 c4: a reset cycle reads 0. -/
theorem test_statusRead :
    (after (step (withRecord (idle Params.p0 (p3 [] [] true)) (word 0x1000)))).map (fun t => t.ports.status) = some (some true)
      ∧ (after (step (withRecord (idle Params.p0 (p3 [] [] true)) (word 0x1001)))).map (fun t => t.ports.status)
          = some (some false) := by decide

/-- V-CEG-3 f = 0 and V-CEG-1 f = 1. -/
theorem test_ceg_edges : fastEdge 4 true ⟨false, true, [true, true, false, true]⟩ = ⟨true, false, [true, true, true, false]⟩
    ∧ fastEdge 3 false ⟨true, false, [false, false, false]⟩ = ⟨true, true, [true, false, false]⟩ := by decide

/-- V-RND-1: the rounding bias, for t = 1 and t = 2. -/
theorem test_rounding : laneOutput 16 1 (-5 + bias 1) (bias 1) = -2 ∧ laneOutput 16 2 (-6 + bias 2) (bias 2) = -1
    ∧ laneOutput 16 2 (5 + bias 2) (bias 2) = 1 := by decide

/-- V-SRC-1 output j = 5: (6, 66). -/
theorem test_boxcar :
    (firLane 16 ⟨2, 6⟩ 0 (List.replicate 12 1) ((List.range 12).map fun n => ⟨((n + 1) % 2 : Nat), n⟩) Iq.re 11,
     firLane 16 ⟨2, 6⟩ 0 (List.replicate 12 1) ((List.range 12).map fun n => ⟨((n + 1) % 2 : Nat), n⟩) Iq.im 11) = (6, 66) := by
  decide

/-! Faults: section 2.7, one per code. -/

theorem test_flt_1 : faultsAfter Params.p0 { Fir.afterReset Params.p0 with unreset := true } (word 0x0002) = some [.notReset 15] := by
  decide
theorem test_flt_2 : faultsAfter Params.p0 { q with cfg := [StageCfg.unwritten] } (word 0x2000)
    = some [.readUnwrittenConfig 0 .bypass] := by decide
theorem test_flt_3 : faultsAfter Params.p0 qNoCoef (word 0x2000) = some [.readUnwrittenCoef 0] := by decide
theorem test_flt_4 : faultsAfter Params.p0 { q with cfg := [⟨some 0, some 0, some true, none, some false⟩] } (word 0x2000)
    = some [.zeroDecimation 0] := by decide
theorem test_flt_5 : faultsAfter Params.p0 { q with cfg := [⟨some 3, some 2, some false, none, some false⟩] } (word 0x2000)
    = some [.coefRangeExceedsMemory 0 18] := by decide
theorem test_flt_6 : faultsAfter pNarrow { q with cfg := [⟨none, none, none, none, some true⟩] } (word 0x2000)
    = some [.bypassNarrowing 0 16 12] := by decide
theorem test_flt_7 : faultsAfter pNarrow (p3 [⟨1, 1, false⟩] [] false) (word 0x2000) = some [.disabledNarrowing 16 12] := by decide
theorem test_flt_8 : faultsAfter { Params.p0 with accWidth := some 8 }
    { q with mem := [(0, 100)], inbuf := [⟨2, 0, false⟩] } (word 0x2000) = some [.accOverflow 0 0] := by decide
theorem test_flt_9b : faultsAfter Params.p0 q (traceLine [traceTake, traceCfg .dec 0 2])
    = some [.structuralWriteInFlight .dec (some 0)] := by decide
theorem test_flt_10 : faultsAfter Params.p0 q (traceLine [traceTake, traceCoef Params.p0 0 2]) = some [.coefWriteInFlight 0] := by
  decide
theorem test_flt_12 : faultsAfter Params.p0 q (word 0x0340) = some [.reservedConfigField 6] := by decide
theorem test_flt_13 : faultsAfter Params.p0 q (traceLine [traceCfg .dec 1 1]) = some [.configStageOutOfRange 1] := by decide
theorem test_flt_14 : faultsAfter Params.p0 q (traceLine [traceCfg .dec 0 16]) = some [.configValueOutOfRange .dec 16] := by decide

/-- V-FLT-15: both faults are recorded, the transfer is discarded, and the next cycle, a reset, has no step. -/
theorem test_flt_15 :
    firAfter Params.p0 qTaken (traceLine [traceRdy, traceCfg .trunc 0 1, traceCoef Params.p0 0 3]) = some
        { qTaken with faults := [⟨.truncWriteInFlight 0, 15⟩, ⟨.coefWriteInFlight 0, 15⟩] }
      ∧ firAfter Params.p0 { qTaken with faults := [⟨.truncWriteInFlight 0, 15⟩] } (word 0x0001) = none := by decide

/-- withFetchWord: the word's own row runs as the first one after reset. -/
theorem test_withFetchWord :
    (after (step (State.reset.withFetchWord 16 0x0018))).map (fun t => (t.fir.pending, t.ports.delivered))
        = some ([], some ⟨0, 0, false⟩)
      ∧ (after (step (State.reset.withFetchWord 16 0x2000))).map (fun t => t.fir.pending) = some [zeroSample]
      ∧ (after (step (State.reset.withFetchWord 8 1))).map State.ceg = some ⟨true, false, [false, false, false]⟩
      ∧ (after (step (State.reset.withFetchWord 8 0))).map State.fast = some 2 := by decide

/-! ## Witnesses: for every statement with premises, a state and operands that meet them, one for each clause -/

/-- P1 before c15 with the record r to run. -/
def p1With (r : Record) : State := withRecord (idle Params.p0 p1) r

/-- R151: fast cycle 0 begins with a common edge, and fast cycle 1 of N = 3 does not. -/
theorem test_clock_ratio : step (p1With (.edge false)) = .refused (.clockRatio 0)
    ∧ step { p1With (.edge true) with fast := 1 } = .refused (.clockRatio 1) := ⟨rfl, rfl⟩

/-- A cycle in progress: σ and σ' are f, the word w is on the lines, the samples are on the path. -/
def within (p : Params) (f : Fir) (w : Word) (path : List Sample) : State := { idle p f with w := w, path := path }

theorem witness_EncodeThenDecode :
    ((Instr.cfgReserved 7 3 15).WellFormed Params.p0 ∧ (Instr.cfgReserved 7 3 15).isInternal = false)
      ∧ (Instr.firOutput 2 true).WellFormed p2 ∧ (Instr.firOutput 2 true).isInternal = true := by decide

theorem witness_ReservedBitSpellsNoCycle :
    (p1With (word 0x8000)).par.WellFormed ∧ (p1With (word 0x8000)).records = .cycle (CycleRecord.ofWord 0x8000) :: []
      ∧ Word.reserved (CycleRecord.ofWord 0x8000).w = true ∧ NoFault (p1With (word 0x8000)) := by decide

/-- The records of V-RST-1 c3 and of a plain reset agree outside the stream lines; both write, read and reset. -/
theorem witness_ResetCycleIgnoresStreamLines :
    Word.rst 0x1073 = true ∧ ops 0x1073 = .ok [.reset true, .cfgDecimation 0 7, .coefWrite 3 9, .statusRead]
      ∧ Word.coefWe 0x1073 = true ∧ Word.cfgWe 0x1073 = true ∧ Word.stsRd 0x1073 = true
      ∧ (0x7073#16 : Word) &&& 0x9FE1#16 = (0x1061#16 : Word) &&& 0x9FE1#16 := by decide

theorem witness_OneConfigurationWritePerCycle :
    ops 0x0064 = .ok [.cfgDecimation 0 7, .coefWrite 3 9] ∧ ops 0x0000 = .ok [] := by decide

/-- A reset before anything else, one operation after the first reset, and an edge. -/
theorem witness_StepRunsDecodedOperations :
    (p1With (word 0x1000)).par.WellFormed ∧ (p1With (word 0x1000)).records = .cycle (CycleRecord.ofWord 0x1000) :: []
      ∧ NoFault (p1With (word 0x1000)) ∧ p1.unreset = false
      ∧ decode (completeRecord (p1With (word 0x1000)) (CycleRecord.ofWord 0x1000)) = .ok [.statusRead, .srcStall]
      ∧ decode (completeRecord State.reset (CycleRecord.ofWord 0x2000)) = .ok [.pathTake false]
      ∧ Word.rst (CycleRecord.ofWord 0x0001).w = true
      ∧ decode (completeRecord (p1With (word 0x0001)) (CycleRecord.ofWord 0x0001)) = .ok [.reset false]
      ∧ (p1With (.edge true)).records = .edge true :: [] ∧ true = decide ((p1With (.edge true)).fast % Params.p0.ratio = 0)
      ∧ true ≠ decide (1 % Params.p0.ratio = 0) := by decide

theorem witness_CycleRefinesReference :
    (p1With (word 0x6010)).par.WellFormed ∧ NoFault (p1With (word 0x6010))
      ∧ (p1With (word 0x6010)).records = .cycle (CycleRecord.ofWord 0x6010) :: []
      ∧ Word.reserved (CycleRecord.ofWord 0x6010).w = false := by decide

/-- A faulted state; a normal state whose step faults (V-FLT-15); a normal state whose step does not. -/
theorem witness_FaultsAreStickyAndFinal :
    ¬ NoFault (withRecord (idle Params.p0 { q with faults := [⟨.zeroDecimation 0, 9⟩] }) (word 0x0001))
      ∧ NoFault (withRecord (idle Params.p0 qTaken) (word 0x01F0)) ∧ qTaken.unreset = false
      ∧ (after (step (withRecord (idle Params.p0 qTaken) (word 0x01F0)))).map (fun t => decide (NoFault t)) = some false
      ∧ (after (step (p1With (word 0x6010)))).map (fun t => decide (NoFault t)) = some true := by decide

theorem witness_ParameterChecksAreElaboration :
    ¬ { idle Params.p0 p1 with par := { Params.p0 with pathCap := 0 } }.par.WellFormed := by decide

/-- P1 before c15 meets the invariant, and its cycle c15 answers a next state. -/
theorem witness_StepKeepsInvariant : Inv (p1With (word 0x6010)) ∧ ∃ t, step (p1With (word 0x6010)) = .next t := by
  refine ⟨⟨by decide, by decide, ⟨by decide, by decide, by decide, by decide⟩, fun _ => ⟨by decide, by decide, by decide,
    by decide, by decide, by decide, by decide, ?_, ?_⟩, ⟨by decide, by decide, by decide⟩⟩, ⟨_, rfl⟩⟩
  · intro i hi
    have h0 : i = 0 := Nat.lt_one_iff.1 hi
    subst h0
    exact .inr ⟨2, by decide, by decide, by decide⟩
  · intro i hi
    have h0 : i = 0 := Nat.lt_one_iff.1 hi
    subst h0
    decide

theorem witness_StepKeepsParameters : ∃ t, step (p1With (word 0x6010)) = .next t := ⟨_, rfl⟩

theorem witness_AgentsAreIndependent :
    ((p1With (word 0x6010)).records = .cycle (CycleRecord.ofWord 0x6010) :: [] ∧ ∃ t, step (p1With (word 0x6010)) = .next t)
      ∧ (p1With (.edge true)).par.WellFormed ∧ (p1With (.edge true)).records = .edge true :: []
      ∧ true = decide ((p1With (.edge true)).fast % Params.p0.ratio = 0) :=
  ⟨⟨rfl, ⟨_, rfl⟩⟩, by decide, rfl, by decide⟩

theorem witness_ResetMeetsInvariant : Params.p0.WellFormed ∧ (⟨true, false, [true, false, true]⟩ : Ceg).sr.length = Params.p0.ratio := by
  decide

theorem witness_PowerOnThenResetGivesResetState : Params.p0.WellFormed ∧ p2.WellFormed := by decide

/-- A reset cycle with a configuration write and a coefficient write; one whose write faults; one without writes. -/
theorem witness_ResetCycleRule :
    (p1With (word 0x1061)).par.WellFormed ∧ NoFault (p1With (word 0x1061))
      ∧ (p1With (word 0x1061)).records = .cycle (CycleRecord.ofWord 0x1061) :: []
      ∧ Word.reserved 0x1061 = false ∧ Word.rst 0x1061 = true ∧ Word.stsRd 0x1061 = true
      ∧ Word.cfgWe 0x1061 = true ∧ Word.coefWe 0x1061 = true ∧ fieldOfCode (Word.cfgField 0x1061) = some .dec
      ∧ refCfgFault Params.p0 p1 false (CycleRecord.ofWord 0x1061) = none
      ∧ refCfgFault Params.p0 p1 false (CycleRecord.ofWord 0x0461) = some (.configStageOutOfRange 1)
      ∧ Word.cfgWe 0x0001 = false := by decide

theorem witness_HeldResetChangesNothing :
    (idle Params.p0 p1).par.WellFormed ∧ NoFault (idle Params.p0 p1)
      ∧ ∃ t u, step (withRecord (idle Params.p0 p1) (encode (.reset true))) = .next t
        ∧ step (withRecord t (encode (.reset false))) = .next u :=
  ⟨by decide, by decide, _, _, rfl, rfl⟩

theorem witness_ReleaseOfReset :
    (idle Params.p0 p1).par.WellFormed ∧ NoFault (idle Params.p0 p1) ∧ Word.rst (CycleRecord.ofWord 0x6012).w = false
      ∧ ∃ t u, step (withRecord (idle Params.p0 p1) (encode (.reset true))) = .next t
        ∧ step (withRecord t (.cycle (CycleRecord.ofWord 0x6012))) = .next u :=
  ⟨by decide, by decide, by decide, _, _, rfl, rfl⟩

/-- P1 before its first reset, with a cycle that is no reset (V-FLT-1) and with a reset; and P1 after it. -/
theorem witness_CycleBeforeFirstResetFaults :
    (State.powerOn Params.p0 p1 ⟨true, true, [true, true, true]⟩).par.WellFormed
      ∧ NoFault (State.powerOn Params.p0 p1 ⟨true, true, [true, true, true]⟩)
      ∧ (State.powerOn Params.p0 p1 ⟨true, true, [true, true, true]⟩).fir.unreset = true
      ∧ Word.rst 0x0002 = false ∧ Word.reserved 0x0002 = false ∧ Word.rst 0x0001 = true ∧ Word.reserved 0x0001 = false
      ∧ (after (step (withRecord (State.powerOn Params.p0 p1 ⟨true, true, [true, true, true]⟩) (word 0x0001)))).map
          (fun t => decide (NoFault t)) = some true
      ∧ NoFault (p1With (word 0x6010)) ∧ (p1With (word 0x6010)).fir.unreset = false
      ∧ ((after (step (p1With (word 0x6010)))).isSome = true) := by decide

theorem witness_SourceTransferHandsOutHead :
    (within Params.p0 p1 0x0018 []).fir.pending = ⟨2, -2, false⟩ :: []
      ∧ (within Params.p0 p1 0x0018 []).nxt.pending = ⟨2, -2, false⟩ :: [] := by decide

/-- V-STR-1 c2 to c4: (3, 4) stalls, is held, and is transferred when ready is high. -/
theorem witness_SinkStallChangesNothing :
    let held := { CycleRecord.ofWord 0x4006 with sinkRe := 3, sinkIm := 4 }
    HoldDuty { CycleRecord.ofWord 0x0002 with sinkRe := 3, sinkIm := 4 } held ∧ Word.rst held.w = false
      ∧ Word.sinkReady held.w = true ∧ decode held = .ok [.sinkXfer 3 4 false, .srcOffer] := by decide

/-! An infinite run: the disabled block of P0 with, after one reset, a record in which the producer, the path, the offer and the
consumer all go on; from its state 4 on every cycle takes, transfers in and transfers out one sample of zeros. -/

/-- The records of the run. -/
def streaming : Nat → Record
  | 0 => word 0x0001
  | _ + 1 => word 0x6012

/-- The state of the run before cycle number c, from c = 4 on. -/
def steady (c : Nat) : State :=
  State.idleWith Params.p0
    { Fir.afterReset Params.p0 with
      inbuf := [zeroSample], prevReady := true, pending := [zeroSample], offered := true, fresh := false }
    ⟨false, false, [false, false, false]⟩ c
    ⟨some true, some true, some ⟨0, 0, false⟩, some false, some ⟨0, 0, false⟩, none⟩

/-- The states of the run: each the one that its record makes of the one before. -/
def streamingStates : Nat → State
  | 0 => State.powerOn Params.p0 (Fir.afterReset Params.p0) ⟨false, false, [false, false, false]⟩
  | n + 1 => (after (stepOn (streamingStates n) (streaming n))).getD State.reset

theorem stepOn_steady (c : Nat) : stepOn (steady c) (word 0x6012) = .next (steady (c + 1)) := by
  have selected : decode (completeRecord (withRecord (steady c) (word 0x6012)) (CycleRecord.ofWord 0x6012))
      = .ok [.srcXfer, .pathTake false, .sinkXfer 0 0 false, .srcOffer] := by
    show decode (completeRecord (withRecord (steady 0) (word 0x6012)) (CycleRecord.ofWord 0x6012)) = _
    decide
  have legal : (withRecord (steady c) (word 0x6012)).par.failedCheck = none := by
    show Params.p0.failedCheck = none
    decide
  have queued : (withRecord (steady c) (word 0x6012)).records = [.cycle (CycleRecord.ofWord 0x6012)] := rfl
  unfold stepOn step
  rw [legal, queued]
  dsimp only
  rw [runCycle, if_neg (fun h => h rfl), selected]
  rfl

theorem streamingStates_steady : ∀ n, streamingStates (n + 4) = steady (n + 4)
  | 0 => by decide
  | n + 1 => by
    rw [streamingStates, streamingStates_steady n, show streaming (n + 4) = word 0x6012 from rfl, stepOn_steady]
    rfl

theorem streaming_isRun : IsRun streaming streamingStates ⊤ where
  start := ⟨_, _, _, by decide, by decide, rfl⟩
  steps n _ := by
    match n with
    | 0 | 1 | 2 | 3 => rfl
    | n + 4 =>
      rw [streamingStates_steady n, show n + 4 + 1 = (n + 1) + 4 from rfl, streamingStates_steady (n + 1)]
      exact stepOn_steady (n + 4)

/-- From its state 4 on, every cycle of the run is one with the word 0x6012 from a steady state. -/
theorem streaming_cycle {P : State → CycleRecord → Prop} (n : Nat)
    (h : ∀ c, P (steady c) (CycleRecord.ofWord 0x6012)) : SomeCycleFrom streaming streamingStates n P :=
  ⟨n + 4, _, Nat.le_add_right n 4, rfl, streamingStates_steady n ▸ h _⟩

/-- The run is admitted: its one record holds its sample. -/
theorem streaming_isAdmitted : IsAdmitted streaming streamingStates ⊤ :=
  streaming_isRun.isAdmitted fun n m r r' _ hn hs hm => by
    match n, m with
    | 0, _ => cases hn; exact absurd hs.2.1 (by decide)
    | _ + 1, 0 => exact absurd hm.1 (by omega)
    | _ + 1, _ + 1 => cases hn; cases hm.2.1; decide

/-- The run is fair: in it takes happen for ever, and nothing pending waits without an offer. -/
theorem streaming_fair : Fair streaming streamingStates where
  cycles n := streaming_cycle n fun _ => trivial
  takes n _ := streaming_cycle n fun _ => ⟨by decide, by decide, rfl⟩
  offers n h := by
    have := (h (n + 4) _ (Nat.le_add_right n 4) rfl).2
    rw [streamingStates_steady n] at this
    cases this

theorem witness_StallHoldsAndOfferRaisesValid :
    (within Params.p0 p1 0x4008 []).nxt.pending ≠ [] ∧ (within Params.p0 q 0x4000 []).nxt.pending = []
      ∧ IsAdmitted streaming streamingStates ⊤ ∧ Fair streaming streamingStates
      ∧ EveryCycleFrom streaming streamingStates 4 (fun s _ => s.fir.pending ≠ []) := by
  refine ⟨by decide, by decide, streaming_isAdmitted, streaming_fair, fun m _ hm _ => ?_⟩
  obtain ⟨k, rfl⟩ := Nat.exists_eq_add_of_le' hm
  rw [streamingStates_steady k]
  exact List.cons_ne_nil _ _

/-- A disabled block with one buffered sample; an empty buffer; a full pending queue. -/
theorem witness_TakeOfDisabledBlockPassesSample :
    (within Params.p0 (p3 [⟨5, -7, true⟩] [] false) 0x2000 []).fir.inbuf = ⟨5, -7, true⟩ :: []
      ∧ (within Params.p0 (p3 [⟨5, -7, true⟩] [] false) 0x2000 []).nxt.inbuf = ⟨5, -7, true⟩ :: []
      ∧ (within Params.p0 (p3 [⟨5, -7, true⟩] [] false) 0x2000 []).fir.pending.length < Params.p0.pathCap
      ∧ (p3 [⟨5, -7, true⟩] [] false).firEnable = false ∧ Params.p0.sinkWidth ≤ Params.p0.sourceWidth
      ∧ (within Params.p0 (p3 [] [] false) 0x2000 []).fir.inbuf = []
      ∧ Params.p0.pathCap ≤ (p3 [⟨1, 1, false⟩] [⟨2, 2, false⟩, ⟨3, 3, false⟩] false).pending.length := by decide

/-- P1's take computes an output, P2's before c15 computes none (stage 0's group opens), and a cell unwritten faults. -/
theorem witness_TakeRunsPath :
    (p1.inbuf = ⟨4, -4, false⟩ :: [] ∧ p1.pending.length < Params.p0.pathCap
        ∧ refPath Params.p0 p1 false ⟨4, -4, false⟩
            = .ok (some ⟨10, -10, false⟩, [⟨[⟨1, -1⟩, ⟨2, -2⟩, ⟨3, -3⟩, ⟨4, -4⟩], 0⟩]))
      ∧ (refPath p2 { p2Fir with st := List.replicate 3 StageSt.start } false ⟨5, -2, false⟩
            = .ok (none, [⟨[⟨5, -2⟩], 1⟩, StageSt.start, StageSt.start]))
      ∧ qNoCoef.inbuf = ⟨1, 1, false⟩ :: [] ∧ qNoCoef.pending.length < Params.p0.pathCap
      ∧ refPath Params.p0 qNoCoef false ⟨1, 1, false⟩ = .error (.readUnwrittenCoef 0) := by decide

/-- P0's one stage bypassed, a sample buffered. -/
def bypassed : Fir := { q with cfg := [⟨none, none, none, none, some true⟩] }

theorem witness_TakeOfBypassedStagesIsIdentity :
    bypassed.inbuf = ⟨1, 1, false⟩ :: [] ∧ bypassed.pending.length < Params.p0.pathCap ∧ bypassed.firEnable = true
      ∧ ∀ i, i < Params.p0.numStages → (cfgOf bypassed i).bypass = some true ∧ Params.p0.inWidth i ≤ Params.p0.outWidth i := by
  decide

theorem witness_TakeIgnoresWritesOfItsCycle : ∃ t, exec (.pathTake false) (within Params.p0 p1 0x2000 []) = .next t ∧ t.nxt.pending.length = 2 :=
  ⟨_, rfl, by decide⟩

theorem witness_AtMostOneOutputPerTake : ∃ t, exec (.pathTake false) (within p2 p2Fir 0x2000 []) = .next t
    ∧ t.nxt.pending = [⟨6, -1, false⟩] := ⟨_, rfl, by decide⟩

/-- P3 c3, where ready falls and the flag becomes set, and P3 c7, a reset. -/
theorem witness_OverflowFlagRule :
    NoFault (withRecord (idle Params.p0 (p3 [⟨5, 5, false⟩, ⟨6, 6, false⟩] [] false)) (word 0x0002))
      ∧ (∃ t, step (withRecord (idle Params.p0 (p3 [⟨5, 5, false⟩, ⟨6, 6, false⟩] [] false)) (word 0x0002)) = .next t ∧ NoFault t
          ∧ Word.rst 0x0002 = false)
      ∧ ∃ t, step (withRecord (idle Params.p0 (p3 [⟨5, 5, false⟩, ⟨6, 6, false⟩] [] false)) (word 0x0001)) = .next t ∧ NoFault t
          ∧ Word.rst 0x0001 = true :=
  ⟨by decide, ⟨_, rfl, by decide, by decide⟩, ⟨_, rfl, by decide, by decide⟩⟩

/-- P3 c5: the offer is held while a take happens. -/
theorem witness_OfferedOutputIsHeld :
    ∃ t, step (withRecord (idle Params.p0 (p3 [⟨6, 6, false⟩] [⟨5, 5, false⟩] true)) (word 0x2000)) = .next t
      ∧ Word.rst 0x2000 = false ∧ Word.srcReady 0x2000 = false
      ∧ (p3 [⟨6, 6, false⟩] [⟨5, 5, false⟩] true).offered = true
      ∧ (p3 [⟨6, 6, false⟩] [⟨5, 5, false⟩] true).pending = ⟨5, 5, false⟩ :: [] :=
  ⟨_, rfl, by decide, by decide, by decide, by decide⟩

/-- P3 c5 with an offered output, and a reset cycle of the same state. -/
theorem witness_DrivenOutputs :
    NoFault (withRecord (idle Params.p0 (p3 [⟨6, 6, false⟩] [⟨5, 5, false⟩] true)) (word 0x2000))
      ∧ Params.p0.WellFormed
      ∧ Word.reserved 0x2000 = false ∧ Word.rst 0x2000 = false ∧ Word.reserved 0x0001 = false ∧ Word.rst 0x0001 = true
      ∧ (p3 [⟨6, 6, false⟩] [⟨5, 5, false⟩] true).unreset = false
      ∧ (p3 [⟨6, 6, false⟩] [⟨5, 5, false⟩] true).offered = true
      ∧ (p3 [⟨6, 6, false⟩] [⟨5, 5, false⟩] true).pending = ⟨5, 5, false⟩ :: [] := by decide

theorem witness_DisabledPassKeepsSample :
    Params.p0.sinkWidth ≤ Params.p0.sourceWidth ∧ pNarrow.sourceWidth < pNarrow.sinkWidth
      ∧ (Fir.afterReset Params.p0).firEnable = false := by decide

theorem witness_StageBypassKeepsSample :
    (within Params.p0 bypassed 0x2000 [⟨1, 1, false⟩]).path = [⟨1, 1, false⟩] ∧ Params.p0.inWidth 0 ≤ Params.p0.outWidth 0
      ∧ pNarrow.outWidth 0 < pNarrow.inWidth 0 ∧ (cfgOf bypassed 0).bypass = some true := by decide

theorem witness_StageReceivingNothingIsIdle : (within Params.p0 q 0x2000 []).path = [] := by decide

/-- One configuration for each of the checks: each field unwritten in turn, D = 0, a range of 18 cells in 16, and one that
ends exactly at the end of the memory. -/
theorem witness_ConsumeChecksInOrder :
    (within Params.p0 q 0x2000 [⟨1, 1, false⟩]).path = [⟨1, 1, false⟩]
      ∧ (cfgOf { q with cfg := [StageCfg.unwritten] } 0).dec = none
      ∧ (cfgOf { q with cfg := [⟨some 1, none, none, none, none⟩] } 0).opsm1 = none
      ∧ (cfgOf { q with cfg := [⟨some 1, some 0, none, none, none⟩] } 0).odd = none
      ∧ (cfgOf { q with cfg := [⟨some 0, some 0, some true, none, none⟩] } 0).dec = some 0
      ∧ 2 ^ Params.p0.lenLog2 < Params.p0.coefBase 0 + (2 * (2 + 1) - false.toNat) * 3
      ∧ Params.p0.coefBase 0 + (2 * (7 + 1) - false.toNat) * 1 ≤ 2 ^ Params.p0.lenLog2 := by decide

/-- A stage that cannot consume (D = 0); the first sample of a group of two; the last, with an output; the last, with its
output at an unwritten cell. -/
theorem witness_StageConsumeRule :
    (within Params.p0 p1 0x2000 [⟨4, -4, false⟩]).path = [⟨4, -4, false⟩] ∧ (cfgOf p1 0).bypass = some false
      ∧ consumeChecks Params.p0 { q with cfg := [⟨some 0, some 0, some true, none, some false⟩] } 0 = .error (.zeroDecimation 0)
      ∧ consumeChecks Params.p0 p1 0 = .ok ⟨2, 2⟩
      ∧ (stOf { p1 with st := [StageSt.start] } 0).phase + 1 ≠ 2 ∧ (stOf p1 0).phase + 1 = 2
      ∧ firOutput Params.p0 p1 0 ((stOf p1 0).hist ++ [⟨4, -4⟩]) = .ok ⟨10, -10⟩
      ∧ firOutput Params.p0 { p1 with mem := [(0, 1)] } 0 ((stOf p1 0).hist ++ [⟨4, -4⟩]) = .error (.readUnwrittenCoef 1) := by
  decide

/-- P1 after its fourth input: the history holds four pairs and the group is complete. -/
def p1Full : Fir := { p1 with st := [⟨[⟨1, -1⟩, ⟨2, -2⟩, ⟨3, -3⟩, ⟨4, -4⟩], 0⟩] }

/-- FIR_OUTPUT for P1's output 1, with an accumulator of 6 bits: the bound of each pair is 1 + 4 + 6 = 11. -/
theorem witness_FirOutputComputesRoundedConvolution :
    let c : Nat → Int := fun m => (m : Int) + 1
    let x : Int → Iq := fun m => if m < 0 then ⟨0, 0⟩ else ⟨m + 1, -(m + 1)⟩
    let s := within { Params.p0 with accWidth := some 6 } p1Full 0x2000 []
    (cfgOf s.fir 0).dec = some 2 ∧ (cfgOf s.fir 0).opsm1 = some 0 ∧ (cfgOf s.fir 0).odd = some false
      ∧ (cfgOf s.fir 0).trunc = some 1
      ∧ (∀ m, m < (2 * (0 + 1) - false.toNat) * 2 → memRead s.fir.mem (s.par.coefBase 0 + m) = some (c m))
      ∧ (stOf s.nxt 0).hist.length = 3 + 1 ∧ (∀ m : Int, m < 0 → x m = ⟨0, 0⟩)
      ∧ (∀ m : Nat, m ≤ 3 → (stOf s.nxt 0).hist[m]? = some (x m))
      ∧ ∀ a, s.par.accWidth = some a → ∀ lane ∈ [Iq.re, Iq.im], ∀ r < 2,
          bias 1 + ∑ k ∈ (Finset.range (2 * (0 + 1) - false.toNat)).filter (fun k => k % 2 = r), ∑ e ∈ Finset.range 2,
            |c (k * 2 + e) * lane (x ((3 : Int) - (k * 2 + e : Nat)))| ≤ 2 ^ (a - 1) - 1 := by
  refine ⟨by decide, by decide, by decide, by decide, ?_, by decide, fun m hm => if_pos hm, ?_, ?_⟩
  · decide
  · intro m hm
    obtain rfl | rfl | rfl | rfl : m = 0 ∨ m = 1 ∨ m = 2 ∨ m = 3 := by omega
    all_goals decide
  · intro a ha
    obtain rfl : a = 6 := (Option.some.inj ha).symm
    decide

/-- Each fault of FIR_OUTPUT: macc_trunc unwritten, the second cell unwritten, a bound of 200 in 8 bits. -/
theorem witness_FirOutputFaultsInOrder :
    shapeOf p1Full 0 = .ok ⟨2, 2⟩
      ∧ (cfgOf { p1Full with cfg := [⟨some 2, some 0, some false, none, some false⟩] } 0).trunc = none
      ∧ (cfgOf p1Full 0).trunc = some 1
      ∧ memRead [(0, 1)] (Params.p0.coefBase 0 + 1) = none ∧ (∀ l, l < 1 → memRead [(0, 1)] (Params.p0.coefBase 0 + l) ≠ none)
      ∧ readCoefs p1Full.mem (Params.p0.coefBase 0) (2 * 2) = .ok [1, 2, 3, 4]
      ∧ accOverflows (some 4) ⟨2, 2⟩ 1 [1, 2, 3, 4] (stOf p1Full 0).hist ((stOf p1Full 0).hist.length - 1) = true := by decide

/-- The bound of P1's output 1 is 11: it fits 5 bits and not 4. The terms are pair 1's second one. -/
theorem witness_AccumulatorCheckBoundsPartialSums :
    2 ≤ 5 ∧ Iq.im ∈ [Iq.re, Iq.im] ∧ accOverflows (some 5) ⟨2, 2⟩ 1 [1, 2, 3, 4] (stOf p1Full 0).hist 3 = false
      ∧ ∀ m ∈ ({3} : Finset Nat), m < 2 * 2 ∧ (m / 2) % 2 = 1 :=
  ⟨by decide, List.mem_cons_of_mem _ List.mem_cons_self, by decide, by decide⟩

theorem witness_BiasedShiftRoundsHalfUp : 1 ≤ 1 := by decide

theorem witness_SaturationBoundaries : 2 ≤ 2 := by decide

/-- A memory that differs from P1's outside stage 0's range. -/
theorem witness_CellsOutsideRangeNeverMatter :
    shapeOf p1Full 0 = .ok ⟨2, 2⟩
      ∧ ∀ m, m < 2 * 2 → memRead (p1Full.mem ++ [(4, 9)]) (Params.p0.coefBase 0 + m) = memRead p1Full.mem (Params.p0.coefBase 0 + m) := by
  decide

/-- Two histories with equal real parts and two with equal imaginary parts. -/
theorem witness_LanesNeverMix :
    firOutput Params.p0 p1Full 0 [⟨1, -1⟩, ⟨2, -2⟩] = .ok ⟨2, -2⟩ ∧ firOutput Params.p0 p1Full 0 [⟨1, 9⟩, ⟨2, 9⟩] = .ok ⟨2, 14⟩
      ∧ ([⟨1, -1⟩, ⟨2, -2⟩] : List Iq).map Iq.re = ([⟨1, 9⟩, ⟨2, 9⟩] : List Iq).map Iq.re
      ∧ ([⟨1, -1⟩, ⟨2, -2⟩] : List Iq).map Iq.im = ([⟨7, -1⟩, ⟨7, -2⟩] : List Iq).map Iq.im
      ∧ firOutput Params.p0 p1Full 0 [⟨7, -1⟩, ⟨7, -2⟩] = .ok ⟨11, -2⟩ := by decide

/-- P1, where K = D = 2: the history of output 0, which reads the zero prefix, and that of output 1, which does not. -/
theorem witness_WarmUpOutputsReadZeroPrefix :
    shapeOf p1 0 = .ok ⟨2, 2⟩ ∧ (p1Full.st.map fun s => s.hist.length) = [(1 + 1) * 2] ∧ [(⟨1, -1⟩ : Iq), ⟨2, -2⟩].length = (0 + 1) * 2
      ∧ [(⟨1, -1⟩ : Iq), ⟨2, -2⟩] ≠ [] := by decide

/-- A fresh path and no take in the cycle, a reset cycle of a path that is not fresh, a path that is not fresh, and the cycle
of the first take; the last stage of three and the first code of no stage; the largest value of each field and the first that
does not fit. -/
theorem witness_StructuralFieldWriteRule :
    (2 : BitVec 2).toNat < p2.numStages ∧ p2.numStages ≤ (3 : BitVec 2).toNat ∧ (within Params.p0 q 0x0040 []).fir.fresh = true
      ∧ (within Params.p0 qTaken 0x0040 []).inReset = false
      ∧ ¬ (qTaken.fresh = true ∧ (within Params.p0 qTaken 0x0040 []).doTake = false)
      ∧ (within Params.p0 q 0x2040 []).inReset = false ∧ ¬ (q.fresh = true ∧ (within Params.p0 q 0x2040 []).doTake = false)
      ∧ 2 ^ p2.decWidth ≤ 16 ∧ 2 ^ p2.opsWidth ≤ 8 ∧ 2 ≤ 2
      ∧ (within Params.p0 q 0x0040 []).doTake = false ∧ (within Params.p0 qTaken 0x0041 []).inReset = true
      ∧ 15 < 2 ^ p2.decWidth ∧ 7 < 2 ^ p2.opsWidth ∧ 1 < 2
      ∧ decode (CycleRecord.ofWord 0x0040) = .ok [.cfgDecimation 0 0] ∧ decode (CycleRecord.ofWord 0x00C0) = .ok [.cfgOpsM1 0 0]
      ∧ decode (CycleRecord.ofWord 0x0140) = .ok [.cfgOddOps 0 0] ∧ decode (CycleRecord.ofWord 0x0240) = .ok [.cfgBypass 0 0] := by
  decide

theorem witness_FirEnableWriteRule :
    1 < 2 ∧ 2 ≤ 2 ∧ (within Params.p0 q 0x02C0 []).fir.fresh = true ∧ (within Params.p0 q 0x02C0 []).doTake = false
      ∧ (within Params.p0 qTaken 0x02C1 []).inReset = true ∧ (within Params.p0 qTaken 0x02C0 []).inReset = false
      ∧ ¬ (qTaken.fresh = true ∧ (within Params.p0 qTaken 0x02C0 []).doTake = false)
      ∧ decode (CycleRecord.ofWord 0x02C0) = .ok [.cfgFirEnable 0 0] := by decide

/-- An active stage in an idle cycle (V-CFG-2 c12), and in a cycle that is not idle (V-FLT-11). -/
theorem witness_MaccTruncWriteRule :
    (0 : BitVec 2).toNat < Params.p0.numStages ∧ Params.p0.numStages ≤ (1 : BitVec 2).toNat ∧ 15 < 2 ^ Params.p0.truncWidth
      ∧ 2 ^ Params.p0.truncWidth ≤ 16
      ∧ ({ qTaken with pending := [] }.pending = [] ∧ (∀ st ∈ qTaken.st, st.phase = 0)
          ∧ (within Params.p0 { qTaken with pending := [] } 0x01C0 []).doTake = false)
      ∧ qTaken.firEnable = true ∧ (cfgOf qTaken 0).bypass ≠ some true ∧ (cfgOf bypassed 0).bypass = some true
      ∧ (within Params.p0 qTaken 0x01C1 []).inReset = true ∧ (within Params.p0 qTaken 0x01C0 []).inReset = false
      ∧ qTaken.pending ≠ [] ∧ decode (CycleRecord.ofWord 0x01C0) = .ok [.cfgMaccTrunc 0 0] := by decide

/-- After the first take (V-FLT-9), in the cycle of the first take (V-FLT-9b), and before it. -/
theorem witness_StructuralWriteInFlightFaults :
    (withRecord (idle Params.p0 qTaken) (word 0x0040)).par.WellFormed ∧ NoFault (withRecord (idle Params.p0 qTaken) (word 0x0040))
      ∧ Word.reserved 0x0040 = false ∧ Word.rst 0x0040 = false ∧ qTaken.unreset = false ∧ Word.cfgWe 0x0040 = true
      ∧ fieldOfCode (Word.cfgField 0x0040) = some .dec ∧ (Word.cfgStage 0x0040).toNat < Params.p0.numStages
      ∧ CfgFits Params.p0 .dec 0 ∧ qTaken.fresh = false
      ∧ fieldOfCode (Word.cfgField 0x22C0) = some .firEnable ∧ CfgFits Params.p0 .firEnable 1
      ∧ Word.take 0x22C0 = true ∧ q.inbuf ≠ [] ∧ q.pending.length < Params.p0.pathCap ∧ q.fresh = true
      ∧ Word.take 0x0040 = false
      ∧ (after (step (withRecord (idle Params.p0 q) (word 0x0040)))).map (fun t => decide (NoFault t)) = some true := by decide

/-- A cycle with a take and no write, one with both writes, and a fast cycle. -/
theorem witness_OnlyControlPlaneWritesConfiguration :
    (∃ t, step (p1With (word 0x6010)) = .next t) ∧ Word.cfgWe 0x6010 = false ∧ Word.coefWe 0x6010 = false
      ∧ ∃ t, step (p1With (.edge true)) = .next t := ⟨⟨_, rfl⟩, by decide, by decide, ⟨_, rfl⟩⟩

theorem witness_ReservedConfigurationFieldFaults :
    (p1With (word 0x0340)).par.WellFormed ∧ NoFault (p1With (word 0x0340)) ∧ Word.reserved 0x0340 = false ∧ p1.unreset = false
      ∧ Word.cfgWe 0x0340 = true ∧ Word.cfgField 0x0340 = 6 ∧ Word.cfgWe 0x03C1 = true ∧ Word.cfgField 0x03C1 = 7
      ∧ Word.rst 0x03C1 = true := by decide

/-- No hazard: outside the range (V-CFG-4), and in a reset cycle. -/
theorem witness_CoefficientWriteStores :
    coefHazard (4 % 2 ^ Params.p0.lenLog2) (within Params.p0 p1 0x0020 []) = false
      ∧ (within Params.p0 p1 0x0021 []).inReset = true ∧ (within Params.p0 p1 0x0020 []).nxt.mem.wf := by decide

/-- The last cell of the range, the first one after it, and a stage whose range is unwritten, in cycles that are not idle. -/
theorem witness_CoefficientWriteHazard :
    (within Params.p0 p1 0x0020 []).inReset = false ∧ p1.firEnable = true ∧ (cfgOf p1 0).bypass ≠ some true ∧ p1.pending ≠ []
      ∧ coefHazard 3 (within Params.p0 p1 0x0020 []) = true ∧ coefHazard 4 (within Params.p0 p1 0x0020 []) = false
      ∧ coefHazard 15 (within Params.p0 { p1 with cfg := [StageCfg.unwritten] } 0x0020 []) = true := by decide

theorem witness_StatusReadSamplesFlag :
    (within Params.p0 q 0x1000 []).inReset = false ∧ (within Params.p0 q 0x1001 []).inReset = true
      ∧ decode (CycleRecord.ofWord 0x1000) = .ok [.statusRead] ∧ decode (CycleRecord.ofWord 0x0000) = .ok [] := by decide

theorem witness_FastEdgeRule :
    1 ≤ (idle Params.p0 q).par.ratio ∧ (idle Params.p0 q).ceg.sr.length = (idle Params.p0 q).par.ratio := by decide

theorem witness_CommonEdgeRule :
    1 ≤ (idle p2 p2Fir).par.ratio ∧ (idle p2 p2Fir).ceg.sr.length = (idle p2 p2Fir).par.ratio := by decide

/-- N = 3 and N = 1; fast cycles before N - 1, N - 1 and N. -/
theorem witness_GeneratorPulsesEveryNCycles :
    (idle Params.p0 q).par.WellFormed ∧ (idle Params.p0 q).ceg.sr.length = (idle Params.p0 q).par.ratio
      ∧ Params.p0.ratio ≤ 3 ∧ 1 + 2 ≤ Params.p0.ratio ∧ 2 + 1 = Params.p0.ratio
      ∧ { Params.p0 with ratio := 1 }.WellFormed := by decide

theorem witness_OnePulseInNCycles :
    (idle Params.p0 q).par.WellFormed ∧ (idle Params.p0 q).ceg.sr.length = (idle Params.p0 q).par.ratio ∧ Params.p0.ratio ≤ 3
      ∧ ∃ t, core.run (3 + 0 + 1) { idle Params.p0 q with records := clockRecords Params.p0.ratio (3 + 0 + 1), fast := 0 } = .next t
          ∧ generatorOutput Params.p0.ratio t.ceg = true :=
  ⟨by decide, by decide, by decide, _, rfl, by decide⟩

end Sys2Proof.Tests
end

section
/-! SUPPORT. The reset rules of spec/10_state.md R49: no operation of a cycle changes σ or sets unreset in σ', RESET clears it, and
a cycle before the first reset raises NotReset. -/

namespace Sys2Proof.Proofs

open Sys2Proof.Machine Sys2Proof.Safety

/-! No operation sets unreset. -/

/-- From s to t, within one cycle, σ stays as it is and unreset is not set in σ'. -/
structure KeepsReset (s t : State) : Prop where
  fir : t.fir = s.fir
  unreset : s.nxt.unreset = false → t.nxt.unreset = false

theorem KeepsReset.refl (s : State) : KeepsReset s s := ⟨rfl, id⟩

theorem KeepsReset.trans {s t u : State} (h₁ : KeepsReset s t) (h₂ : KeepsReset t u) : KeepsReset s u :=
  ⟨h₂.fir.trans h₁.fir, h₂.unreset ∘ h₁.unreset⟩

/-- The operations of a take's path write the stages of σ' only. -/
theorem KeepsReset.ofPathOnly {s t : State} (h : PathOnly s t) : KeepsReset s t :=
  ⟨h.fir, fun hs => by rw [h.rest]; exact hs⟩

theorem KeepsReset.ite {c : Prop} [Decidable c] {s t u : State} (ht : KeepsReset s t) (hu : KeepsReset s u) :
    KeepsReset s (if c then t else u) := by
  split
  · exact ht
  · exact hu

theorem writeCfg_keepsReset (field : CfgField) (stage : BitVec 2) (v : Nat) (s : State) :
    KeepsReset s (writeCfg field stage v s) := by
  obtain ⟨k, -, h⟩ | ⟨-, h⟩ := writeCfg_cases field stage v s <;> rw [h]
  · exact ⟨rfl, id⟩
  · exact ⟨rfl, (storeCfg_unreset field stage.toNat v s.nxt).trans⟩

theorem takeSample_keepsReset (olast : Bool) (s : State) : KeepsReset s (takeSample olast s) := by
  obtain ⟨-, h⟩ | ⟨x, -, t, -, -, hpath, -, h⟩ := takeSample_cases olast s <;> rw [h]
  · exact .refl s
  · have head : KeepsReset s (takeHead x s) := ⟨rfl, id⟩
    have collect : KeepsReset t (collectOutputs t) := ⟨rfl, id⟩
    exact (head.trans (.ofPathOnly hpath)).trans collect

/-- No operation changes σ or sets unreset. -/
theorem exec_keepsReset {i : Instr} {s t : State} (h : exec i s = .next t) : KeepsReset s t := by
  cases i <;> (injection h with h; subst h)
  case reset => exact ⟨rfl, fun _ => rfl⟩
  case sinkXfer | sinkStall | srcXfer | srcStall => exact ⟨rfl, id⟩
  case pathTake olast => exact .ite (takeSample_keepsReset olast s) (.refl s)
  case srcOffer => exact .ite (.refl s) ⟨rfl, id⟩
  case coefWrite => exact .ite ⟨rfl, id⟩ ⟨rfl, id⟩
  case cfgDecimation | cfgOpsM1 | cfgOddOps | cfgMaccTrunc | cfgBypass | cfgFirEnable => exact writeCfg_keepsReset ..
  case cfgReserved | statusRead | cegFastEdge | cegCommonEdge => exact ⟨rfl, id⟩
  case disabledPass => exact .ofPathOnly (passDisabled_pathOnly s)
  case stageBypass i => exact .ofPathOnly (bypassStage_pathOnly i s)
  case stageConsume i olast => exact .ofPathOnly (consumeSample_pathOnly i olast s)
  case firOutput i olast => exact .ofPathOnly (computeOutput_pathOnly i olast _ s)

/-- No sequence of operations changes σ or sets unreset. -/
theorem runOps_keepsReset {ops : List Instr} {s t : State} (h : runOps ops s = .next t) : KeepsReset s t := by
  induction ops generalizing s with
  | nil =>
    injection h with h
    exact h ▸ .refl s
  | cons i is ih =>
    obtain ⟨u, hu⟩ := exec_next i s
    rw [runOps_cons i is hu] at h
    exact (exec_keepsReset hu).trans (ih h)

/-! The end of a cycle. -/

/-- Where neither σ nor σ' has unreset set, the registers do not load it, faulting cycle or not. -/
theorem registered_unreset {s : State} (hf : s.fir.unreset = false) (hn : s.nxt.unreset = false) :
    s.registered.unreset = false := by
  obtain ⟨-, h⟩ | ⟨-, h⟩ := registered_cases s <;> rw [h]
  · exact hn
  · exact hf

/-- A cycle that ends without a fault raised none and loads σ'. -/
theorem registered_of_noFault {s : State} (h : s.registered.faults = []) : s.registered = s.nxt := by
  obtain ⟨-, h'⟩ | ⟨hr, h'⟩ := registered_cases s
  · exact h'
  · rw [h', withFaults_faults] at h
    exact absurd (List.append_eq_nil_iff.1 h).2 hr

/-- A cycle that raises one fault and no other loads σ with that fault. -/
theorem registered_raise {s : State} (k : FaultKind) (h : s.raised = []) :
    (s.raise k).registered = withFaults s.fir [⟨k, s.cycle⟩] := by
  simp [State.registered, h]

/-! The cycles of R49. -/

/-- A step of a well-formed machine whose next record is a cycle's runs that cycle. -/
theorem step_of_cycle {s : State} {r : CycleRecord} {rest : List Record} (hw : s.par.WellFormed)
    (hr : s.records = .cycle r :: rest) : step s = runCycle s r rest := by
  simp [step, hw, hr]

/-- The operations of a completed record in a reset cycle: RESET, then those of the control plane. -/
theorem decode_completeRecord_of_reset (s : State) {r : CycleRecord} (hres : Word.reserved r.w = false)
    (hrst : Word.rst r.w = true) :
    decode (completeRecord s r) = .ok (.reset r.rready :: controlOperations (completeRecord s r)) := by
  rw [decode_eq_operations _ (by simpa [completeRecord] using hres), if_pos (by simpa [completeRecord] using hrst)]
  rfl

/-- Before the first reset a cycle with reset deasserted performs no operation and raises NotReset. -/
theorem runCycle_before_reset {s : State} {r : CycleRecord} (rest : List Record) (hf : NoFault s)
    (hres : Word.reserved r.w = false) (hrst : Word.rst r.w = false) (hu : s.fir.unreset = true) :
    runCycle s r rest = .next ((openCycle s r rest).raise (.notReset s.cycle)).latch := by
  have hd := decode_eq_operations (completeRecord s r) (by simpa [completeRecord] using hres)
  simp [runCycle, hf, hd, runSelected, hrst, hu]

/-- A reset cycle that raises no fault clears unreset. -/
theorem runCycle_reset_clears_unreset {s t : State} {r : CycleRecord} {rest : List Record} (hres : Word.reserved r.w = false)
    (hrst : Word.rst r.w = true) (h : runCycle s r rest = .next t) (ht : NoFault t) : t.fir.unreset = false := by
  obtain ⟨-, ops, hops, ⟨hrst', -, -⟩ | ⟨-, u, hu, rfl⟩⟩ := runCycle_next h
  · simp [hrst] at hrst'
  · rw [decode_completeRecord_of_reset s hres hrst] at hops
    injection hops with hops
    obtain ⟨v, hv⟩ := exec_next (.reset r.rready) (openCycle s r rest)
    have cleared : v.nxt.unreset = false := by
      injection hv with hv
      rw [← hv]
      rfl
    rw [← hops, runOps_cons _ _ hv] at hu
    rw [latch_fir, registered_of_noFault ht]
    exact (runOps_keepsReset hu).unreset cleared

/-- A cycle does not set unreset. -/
theorem runCycle_keeps_unreset {s t : State} {r : CycleRecord} {rest : List Record} (hs : s.fir.unreset = false)
    (h : runCycle s r rest = .next t) : t.fir.unreset = false := by
  obtain ⟨-, ops, -, ⟨-, hu, -⟩ | ⟨-, u, hu, rfl⟩⟩ := runCycle_next h
  · simp [hs] at hu
  · have keeps := runOps_keepsReset hu
    have opened : (openCycle s r rest).nxt.unreset = false := by
      rw [openCycle_nxt]
      split <;> exact hs
    exact registered_unreset (by rw [keeps.fir]; exact hs) (keeps.unreset opened)

/-- A step does not set unreset: neither a cycle nor a fast cycle of the generator does. -/
theorem step_keeps_unreset {s t : State} (hs : s.fir.unreset = false) (h : step s = .next t) : t.fir.unreset = false := by
  obtain ⟨-, ⟨r, rest, -, hc⟩ | ⟨e, rest, -, -, rfl⟩⟩ := step_next h
  · exact runCycle_keeps_unreset hs hc
  · exact hs

/-- Settles O18: NotReset is the one fault of a cycle before the first reset, RESET clears unreset, and no operation sets it. -/
theorem cycleBeforeFirstResetFaults : Obligations.CycleBeforeFirstResetFaults := by
  unfold Obligations.CycleBeforeFirstResetFaults
  refine ⟨fun _ _ _ => rfl, fun s r rest hw hf hr hres hu => ⟨fun hrst => ?_, fun hrst t h ht => ?_⟩,
    fun s t _ hs h => step_keeps_unreset hs h⟩
  · refine ⟨_, (step_of_cycle hw hr).trans (runCycle_before_reset rest hf hres hrst hu), ?_⟩
    exact registered_raise (.notReset s.cycle) (openCycle_raised s r rest)
  · rw [step_of_cycle hw hr] at h
    exact runCycle_reset_clears_unreset hres hrst h ht

end Sys2Proof.Proofs
end

section
/-! SUPPORT. The cycle record of spec/30_encoding.md: a word with bit 15 set spells no cycle (R124), a reset cycle reads the
control plane's lines only (R126), a reserved configuration code faults in every cycle (R125), a coefficient write stores in its cell
(R119). -/

namespace Sys2Proof.Proofs

open Sys2Proof.Machine Sys2Proof.Safety

/-! Bit 15 (R124). -/

theorem decode_of_reserved {r : CycleRecord} (h : Word.reserved r.w = true) : decode r = .error .reservedBit15 := by
  simp [decode, h]

/-- A cycle whose word has bit 15 set is refused, unless the block has faulted already. -/
theorem runCycle_of_reserved (s : State) {r : CycleRecord} (rest : List Record) (h : Word.reserved r.w = true) :
    runCycle s r rest = if s.fir.faults ≠ [] then .fault .faulted else .refused (.reservedBit15 s.cycle) := by
  have hd : decode (completeRecord s r) = .error .reservedBit15 := decode_of_reserved (by simpa [completeRecord] using h)
  unfold runCycle
  rw [hd]

/-- Settles O3: the decoder refuses the word, so the cycle has an outcome that is no next state. -/
theorem reservedBitSpellsNoCycle : Obligations.ReservedBitSpellsNoCycle := by
  unfold Obligations.ReservedBitSpellsNoCycle
  intro s r rest hw hr h
  rw [step_of_cycle hw hr, runCycle_of_reserved s rest h]
  refine ⟨decode_of_reserved h, fun t => ?_, fun hf => if_neg (not_not.2 hf)⟩
  split <;> exact nofun

/-! The coefficient write (R119, R297). -/

/-- A coefficient write in a reset cycle or without a hazard stores the coefficient in its cell. -/
theorem exec_coefWrite_of_noHazard {s : State} (addr data : Nat)
    (h : s.inReset = true ∨ coefHazard (coefAddress s.par addr) s = false) :
    exec (.coefWrite addr data) s = .next
      (s.write fun f => { f with mem := memWrite f.mem (coefAddress s.par addr) (coefValue s.par data) }) := by
  have pass : (!s.inReset && coefHazard (coefAddress s.par addr) s) = false := by
    rcases h with h | h <;> simp [h]
  simp [exec, execCoefWrite, pass]

/-- Settles O54: the state after the write is the one with the memory written, of which the memory's own rules speak. -/
theorem coefficientWriteStores : Obligations.CoefficientWriteStores := by
  unfold Obligations.CoefficientWriteStores
  intro s addr data h
  exact ⟨_, exec_coefWrite_of_noHazard addr data h, rfl, memRead_memWrite_same .., fun b => memRead_memWrite_other _ _ b _,
    memWrite_wf _ _⟩

/-! The operations of a cycle that runs them. -/

/-- The output bits that the block drives are no lines of the control plane. -/
theorem controlOperations_completeRecord (s : State) (r : CycleRecord) :
    controlOperations (completeRecord s r) = controlOperations r := by
  simp [controlOperations, cfgOperation, completeRecord]

/-- A reset cycle runs RESET and the control plane's operations. -/
theorem runCycle_of_reset {s : State} {r : CycleRecord} (rest : List Record) (hf : NoFault s)
    (hres : Word.reserved r.w = false) (hrst : Word.rst r.w = true) :
    runCycle s r rest = closeCycle (runOps (.reset r.rready :: controlOperations r) (openCycle s r rest)) := by
  have hd := decode_completeRecord_of_reset s hres hrst
  rw [controlOperations_completeRecord] at hd
  simp [runCycle, hf, hd, runSelected, hrst]

/-- A cycle with reset deasserted, after the first reset, runs the control plane's operations and then those of the stream. -/
theorem runCycle_of_running {s : State} {r : CycleRecord} (rest : List Record) (hf : NoFault s)
    (hres : Word.reserved r.w = false) (hrst : Word.rst r.w = false) (hu : s.fir.unreset = false) :
    runCycle s r rest
      = closeCycle (runOps (controlOperations r ++ streamOperations (completeRecord s r)) (openCycle s r rest)) := by
  have hd := decode_eq_operations (completeRecord s r) (by simpa [completeRecord] using hres)
  rw [if_neg (by simp [completeRecord, hrst]), controlOperations_completeRecord] at hd
  simp [runCycle, hf, hd, runSelected, hu]

/-! The faults of a cycle only grow (spec/60_exceptions.md R330). -/

theorem writeCfg_raised_subset (field : CfgField) (stage : BitVec 2) (v : Nat) (s : State) :
    s.raised ⊆ (writeCfg field stage v s).raised := by
  obtain ⟨k, -, h⟩ | ⟨-, h⟩ := writeCfg_cases field stage v s
  · rw [h]
    exact List.subset_append_left ..
  · rw [h]
    exact List.Subset.refl _

theorem pathOnly_raised_subset {s t : State} (h : PathOnly s t) : s.raised ⊆ t.raised :=
  let ⟨fs, hfs⟩ := h.raised
  hfs ▸ List.subset_append_left _ fs

theorem takeSample_raised_subset (olast : Bool) (s : State) : s.raised ⊆ (takeSample olast s).raised := by
  obtain ⟨-, h⟩ | ⟨x, -, t, -, -, hpath, -, h⟩ := takeSample_cases olast s
  · rw [h]
    exact List.Subset.refl _
  · rw [h]
    exact (pathOnly_raised_subset hpath :)

/-- No operation drops a fault that the cycle has raised. -/
theorem exec_raised_subset {i : Instr} {s t : State} (h : exec i s = .next t) : s.raised ⊆ t.raised := by
  cases i <;> (injection h with h; subst h)
  case reset | sinkXfer | sinkStall | srcXfer | srcStall => exact List.Subset.refl _
  case pathTake olast =>
    split
    · exact takeSample_raised_subset olast s
    · exact List.Subset.refl _
  case srcOffer => split <;> exact List.Subset.refl _
  case coefWrite =>
    split
    · exact List.subset_append_left ..
    · exact List.Subset.refl _
  case cfgDecimation | cfgOpsM1 | cfgOddOps | cfgMaccTrunc | cfgBypass | cfgFirEnable => exact writeCfg_raised_subset ..
  case cfgReserved => exact List.subset_append_left ..
  case statusRead | cegFastEdge | cegCommonEdge => exact List.Subset.refl _
  case disabledPass => exact pathOnly_raised_subset (passDisabled_pathOnly s)
  case stageBypass i => exact pathOnly_raised_subset (bypassStage_pathOnly i s)
  case stageConsume i olast => exact pathOnly_raised_subset (consumeSample_pathOnly i olast s)
  case firOutput i olast => exact pathOnly_raised_subset (computeOutput_pathOnly i olast _ s)

/-- No sequence of operations drops a fault that the cycle has raised. -/
theorem runOps_raised_subset {ops : List Instr} {s t : State} (h : runOps ops s = .next t) : s.raised ⊆ t.raised := by
  induction ops generalizing s with
  | nil =>
    injection h with h
    exact h ▸ List.Subset.refl s.raised
  | cons i is ih =>
    obtain ⟨u, hu⟩ := exec_next i s
    rw [runOps_cons i is hu] at h
    exact List.Subset.trans (exec_raised_subset hu) (ih h)

/-- A cycle that raised a fault ends in σ with its faults added (R332). -/
theorem latch_fir_of_raised {s : State} {k : FaultRec} (h : k ∈ s.raised) : s.latch.fir = withFaults s.fir s.raised := by
  obtain ⟨hn, -⟩ | ⟨-, hr⟩ := registered_cases s
  · simp [hn] at h
  · exact hr

/-! The reserved codes (R125, R299). -/

/-- On the control plane's lines a configuration write with a reserved code is CFG_RESERVED, and comes first. -/
theorem controlOperations_of_reservedCode {r : CycleRecord} (hwe : Word.cfgWe r.w = true)
    (hcode : Word.cfgField r.w = 6 ∨ Word.cfgField r.w = 7) :
    ∃ ops, controlOperations r = .cfgReserved (Word.cfgField r.w) (Word.cfgStage r.w) r.cfgValue :: ops := by
  have hop : cfgOperation r = .cfgReserved (Word.cfgField r.w) (Word.cfgStage r.w) r.cfgValue := by
    rcases hcode with h | h <;> simp [cfgOperation, h]
  rw [controlOperations, if_pos hwe, hop]
  exact ⟨_, rfl⟩

/-- Operations that begin with CFG_RESERVED leave its fault among those of the cycle. -/
theorem reservedConfigField_mem_of_runOps {code : BitVec 3} {stage : BitVec 2} {v : Nat} {ops : List Instr} {s t : State}
    (h : runOps (.cfgReserved code stage v :: ops) s = .next t) :
    ⟨.reservedConfigField code.toNat, s.cycle⟩ ∈ t.raised := by
  have raised : runOps ops (s.raise (.reservedConfigField code.toNat)) = .next t := h
  exact runOps_raised_subset raised (by simp)

/-- Every cycle after power-on that writes a reserved code, reset cycle or not, ends by latching a cycle in progress that has
σ unchanged and the fault raised. -/
theorem runCycle_of_reservedCode {s : State} {r : CycleRecord} (rest : List Record) (hf : NoFault s)
    (hres : Word.reserved r.w = false) (hrun : Word.rst r.w = true ∨ s.fir.unreset = false) (hwe : Word.cfgWe r.w = true)
    (hcode : Word.cfgField r.w = 6 ∨ Word.cfgField r.w = 7) :
    ∃ u : State, runCycle s r rest = .next u.latch ∧ u.fir = s.fir
      ∧ ⟨.reservedConfigField (Word.cfgField r.w).toNat, s.cycle⟩ ∈ u.raised := by
  obtain ⟨ops, hops⟩ := controlOperations_of_reservedCode hwe hcode
  cases hrst : Word.rst r.w
  · have hu := hrun.resolve_left (by simp [hrst])
    rw [runCycle_of_running rest hf hres hrst hu, hops, List.cons_append]
    obtain ⟨u, hu⟩ := runOps_next (.cfgReserved (Word.cfgField r.w) (Word.cfgStage r.w) r.cfgValue
      :: (ops ++ streamOperations (completeRecord s r))) (openCycle s r rest)
    exact ⟨u, by rw [hu]; rfl, (runOps_keepsReset hu).fir, (reservedConfigField_mem_of_runOps hu :)⟩
  · rw [runCycle_of_reset rest hf hres hrst, hops]
    obtain ⟨u, hu⟩ := runOps_next (.reset r.rready :: .cfgReserved (Word.cfgField r.w) (Word.cfgStage r.w) r.cfgValue :: ops)
      (openCycle s r rest)
    refine ⟨u, by rw [hu]; rfl, (runOps_keepsReset hu).fir, ?_⟩
    rw [runOps_cons _ _ rfl] at hu
    exact (reservedConfigField_mem_of_runOps hu :)

/-- Settles O53: the fault that CFG_RESERVED raises stays raised to the end of the cycle, which then loads σ with its faults. -/
theorem reservedConfigurationFieldFaults : Obligations.ReservedConfigurationFieldFaults := by
  unfold Obligations.ReservedConfigurationFieldFaults
  refine ⟨fun _ _ _ _ => rfl, fun s r rest hw hf hr hres hrun hwe hcode => ?_⟩
  obtain ⟨u, hu, hfir, hmem⟩ := runCycle_of_reservedCode rest hf hres hrun hwe hcode
  have faulted : u.latch.fir = withFaults s.fir u.raised := hfir ▸ latch_fir_of_raised hmem
  refine ⟨u.latch, (step_of_cycle hw hr).trans hu, ?_, ?_⟩ <;> rw [faulted]
  · rfl
  · exact List.mem_append_right _ hmem

/-! The lines that a reset cycle reads (R126). -/

/-- Two words agree on the lines that keep a meaning in a reset cycle. -/
structure SameControlLines (w w' : Word) : Prop where
  rst : Word.rst w' = Word.rst w
  coefWe : Word.coefWe w' = Word.coefWe w
  cfgWe : Word.cfgWe w' = Word.cfgWe w
  cfgField : Word.cfgField w' = Word.cfgField w
  cfgStage : Word.cfgStage w' = Word.cfgStage w
  stsRd : Word.stsRd w' = Word.stsRd w
  reserved : Word.reserved w' = Word.reserved w

/-- Words that are equal under a mask agree on every bit of it. -/
theorem getLsbD_eq_of_and_eq {w w' m : Word} (h : w' &&& m = w &&& m) {k : Nat} (hk : m.getLsbD k = true) :
    w'.getLsbD k = w.getLsbD k := by
  simpa [hk] using congrArg (·.getLsbD k) h

/-- Words that are equal under a mask agree on every field of bits within it. -/
theorem extractLsb'_eq_of_and_eq {w w' m : Word} (h : w' &&& m = w &&& m) {start len : Nat}
    (hm : ∀ k, k < len → m.getLsbD (start + k) = true) : w'.extractLsb' start len = w.extractLsb' start len := by
  refine BitVec.eq_of_getLsbD_eq fun k hk => ?_
  simp only [BitVec.getLsbD_extractLsb', getLsbD_eq_of_and_eq h (hm k hk)]

/-- Mask 0x9FE1 holds every such line. -/
theorem sameControlLines_of_masked {w w' : Word} (h : w' &&& 0x9FE1#16 = w &&& 0x9FE1#16) : SameControlLines w w' where
  rst := getLsbD_eq_of_and_eq h (by decide)
  coefWe := getLsbD_eq_of_and_eq h (by decide)
  cfgWe := getLsbD_eq_of_and_eq h (by decide)
  cfgField := extractLsb'_eq_of_and_eq h (by decide)
  cfgStage := extractLsb'_eq_of_and_eq h (by decide)
  stsRd := getLsbD_eq_of_and_eq h (by decide)
  reserved := getLsbD_eq_of_and_eq h (by decide)

/-- The control plane's operations are those of its lines and data. -/
theorem controlOperations_congr {r r' : CycleRecord} (h : SameControlLines r.w r'.w) (ha : r'.coefAddr = r.coefAddr)
    (hd : r'.coefData = r.coefData) (hv : r'.cfgValue = r.cfgValue) : controlOperations r' = controlOperations r := by
  simp [controlOperations, cfgOperation, h.coefWe, h.cfgWe, h.cfgField, h.cfgStage, h.stsRd, ha, hd, hv]

/-! The operations of a reset cycle. -/

theorem isConfigWrite_cfgOperation (r : CycleRecord) : isConfigWrite (cfgOperation r) = true := by
  unfold cfgOperation
  split <;> rfl

theorem isStreamOperation_cfgOperation (r : CycleRecord) : isStreamOperation (cfgOperation r) = false := by
  unfold cfgOperation
  split <;> rfl

theorem mem_controlOperations {r : CycleRecord} {i : Instr} :
    i ∈ controlOperations r ↔ (Word.cfgWe r.w = true ∧ i = cfgOperation r)
      ∨ (Word.coefWe r.w = true ∧ i = .coefWrite r.coefAddr r.coefData) ∨ (Word.stsRd r.w = true ∧ i = .statusRead) := by
  simp [controlOperations]

/-- Neither RESET nor an operation of the control plane is a stream operation. -/
theorem isStreamOperation_of_mem_resetOperations {r : CycleRecord} {i : Instr}
    (h : i ∈ Instr.reset r.rready :: controlOperations r) : isStreamOperation i = false := by
  rcases List.mem_cons.1 h with rfl | h
  · rfl
  · obtain ⟨-, rfl⟩ | ⟨-, rfl⟩ | ⟨-, rfl⟩ := mem_controlOperations.1 h
    · exact isStreamOperation_cfgOperation r
    · rfl
    · rfl

/-- A record with reset asserted that decodes selects RESET and the control plane's operations. -/
theorem decode_ok_of_reset {r : CycleRecord} {ops : List Instr} (hrst : Word.rst r.w = true) (h : decode r = .ok ops) :
    ops = .reset r.rready :: controlOperations r := by
  cases hres : Word.reserved r.w
  · rw [decode_eq_operations r hres, if_pos hrst] at h
    injection h with h
    exact h.symm
  · rw [decode_of_reserved hres] at h
    cases h

/-! In a reset cycle the operations read no bit of the word but rst. -/

/-- The cycle in progress with another word on the lines. -/
def withWord (s : State) (w : Word) : State := { s with w := w }

/-- In a reset cycle a configuration write's checks read the operands only. -/
theorem writeCfg_withWord (field : CfgField) (stage : BitVec 2) (v : Nat) {s : State} {w : Word} (hs : s.inReset = true)
    (hw : Word.rst w = true) : writeCfg field stage v (withWord s w) = withWord (writeCfg field stage v s) w := by
  have reset : (withWord s w).inReset = true := hw
  have fault : cfgFault field stage.toNat v (withWord s w) = cfgFault field stage.toNat v s := by
    unfold cfgFault
    rw [hs, reset]
    rfl
  unfold writeCfg
  rw [fault]
  split <;> rfl

/-- In a reset cycle an operation that is not of the stream does the same whatever else is on the lines. -/
theorem exec_withWord {i : Instr} {s t : State} {w : Word} (hi : isStreamOperation i = false) (hs : s.inReset = true)
    (hw : Word.rst w = true) (h : exec i s = .next t) : exec i (withWord s w) = .next (withWord t w) := by
  have reset : (withWord s w).inReset = true := hw
  cases i
  case sinkXfer | sinkStall | srcXfer | srcStall | pathTake | srcOffer => cases hi
  case disabledPass | stageBypass | stageConsume | firOutput => cases hi
  case coefWrite addr data =>
    rw [exec_coefWrite_of_noHazard addr data (.inl hs)] at h
    injection h with h
    rw [exec_coefWrite_of_noHazard addr data (.inl reset), ← h]
    rfl
  case statusRead =>
    injection h with h
    subst h
    simp only [exec, execStatusRead, reset, hs]
    rfl
  case reset | cfgReserved | cegFastEdge | cegCommonEdge =>
    injection h with h
    subst h
    rfl
  case cfgDecimation | cfgOpsM1 | cfgOddOps | cfgMaccTrunc | cfgBypass | cfgFirEnable =>
    injection h with h
    subst h
    exact congrArg _ (writeCfg_withWord _ _ _ hs hw)

/-- A reset cycle stays one through its operations: the same word is still on the lines. -/
theorem exec_inReset {i : Instr} {s t : State} (hi : isStreamOperation i = false) (hs : s.inReset = true)
    (h : exec i s = .next t) : t.inReset = true := by
  have same := exec_withWord (w := s.w) hi hs hs h
  have : t = withWord t s.w := by
    rw [show withWord s s.w = s from rfl, h] at same
    injection same
  rw [this]
  exact hs

/-- In a reset cycle operations that are not of the stream do the same whatever else is on the lines. -/
theorem runOps_withWord {ops : List Instr} {s t : State} {w : Word} (hops : ∀ i ∈ ops, isStreamOperation i = false)
    (hs : s.inReset = true) (hw : Word.rst w = true) (h : runOps ops s = .next t) :
    runOps ops (withWord s w) = .next (withWord t w) := by
  induction ops generalizing s with
  | nil =>
    injection h with h
    subst h
    rfl
  | cons i is ih =>
    obtain ⟨hi, his⟩ := List.forall_mem_cons.1 hops
    obtain ⟨u, hu⟩ := exec_next i s
    rw [runOps_cons i is hu] at h
    rw [runOps_cons i is (exec_withWord hi hs hw hu)]
    exact ih his (exec_inReset hi hs hu) h

/-- Two records with reset asserted open the same cycle, but for the word on its lines. -/
theorem openCycle_of_reset (s : State) {r r' : CycleRecord} (rest : List Record) (hr : Word.rst r.w = true)
    (hr' : Word.rst r'.w = true) :
    openCycle s r' rest = withWord (openCycle s r rest) (completeRecord s r').w := by
  simp [openCycle, withWord, hr, hr']

/-- Two records of a reset cycle that agree on the control plane's lines and data and on the draw of ready give the same
cycle. -/
theorem runCycle_reset_congr (s : State) {r r' : CycleRecord} (rest : List Record) (hrst : Word.rst r.w = true)
    (h : SameControlLines r.w r'.w) (hops : controlOperations r' = controlOperations r) (hready : r'.rready = r.rready) :
    runCycle s r' rest = runCycle s r rest := by
  by_cases hf : NoFault s
  case neg => simp [runCycle, hf]
  cases hres : Word.reserved r.w
  case true => rw [runCycle_of_reserved s rest hres, runCycle_of_reserved s rest (h.reserved.trans hres)]
  have hrst' : Word.rst r'.w = true := h.rst.trans hrst
  have opened : (openCycle s r rest).inReset = true := by simpa [State.inReset, completeRecord] using hrst
  have word : Word.rst (completeRecord s r').w = true := by simpa [completeRecord] using hrst'
  obtain ⟨u, hu⟩ := runOps_next (.reset r.rready :: controlOperations r) (openCycle s r rest)
  have hu' := runOps_withWord (fun _ => isStreamOperation_of_mem_resetOperations) opened word hu
  rw [runCycle_of_reset rest hf (h.reserved.trans hres) hrst', runCycle_of_reset rest hf hres hrst, hops, hready,
    openCycle_of_reset s rest hrst hrst', hu, hu']
  rfl

/-- Two records at the head of the queue give the same step where they give the same cycle. -/
theorem step_records_congr (s : State) {r r' : CycleRecord} (rest : List Record)
    (h : runCycle s r' rest = runCycle s r rest) :
    step { s with records := .cycle r' :: rest } = step { s with records := .cycle r :: rest } := by
  cases hw : s.par.failedCheck with
  | some check => simp [step, hw]
  | none =>
    have runs (c : CycleRecord) : step { s with records := .cycle c :: rest } = runCycle s c rest :=
      step_of_cycle (s := { s with records := .cycle c :: rest }) hw rfl
    rw [runs, runs, h]

/-- Settles O4: a reset cycle selects RESET and the control plane's operations, and those read no other bit of the word. -/
theorem resetCycleIgnoresStreamLines : Obligations.ResetCycleIgnoresStreamLines := by
  unfold Obligations.ResetCycleIgnoresStreamLines
  refine ⟨fun r ops hrst hdec => ?_, fun s r r' rest hrst hmask ha hd hv hready => ?_⟩
  · rw [decode_ok_of_reset hrst hdec]
    have control {i : Instr} (h : i ∈ controlOperations r) : i ∈ Instr.reset r.rready :: controlOperations r :=
      List.mem_cons_of_mem _ h
    exact ⟨fun _ => isStreamOperation_of_mem_resetOperations,
      fun hwe => control (mem_controlOperations.2 (.inr (.inl ⟨hwe, rfl⟩))),
      fun hwe => ⟨cfgOperation r, control (mem_controlOperations.2 (.inl ⟨hwe, rfl⟩)), isConfigWrite_cfgOperation r⟩,
      fun hrd => control (mem_controlOperations.2 (.inr (.inr ⟨hrd, rfl⟩)))⟩
  · have lines := sameControlLines_of_masked hmask
    exact step_records_congr s rest
      (runCycle_reset_congr s rest hrst lines (controlOperations_congr lines ha hd hv) hready)

end Sys2Proof.Proofs
end

section
/-! SUPPORT. The edges of the CommonEdgeGenerator (spec/41_common_edge_generator.md R152, R153): what a fast edge does to the toggle
bit, and what the shift register holds after it. -/

namespace Sys2Proof.Proofs

open Sys2Proof.Machine

/-! The toggle bit and the shift register after a fast edge. -/

/-- A fast edge that is not a slow edge leaves the toggle bit as it is (R152). -/
@[simp] theorem fastEdge_false_t (n : Nat) (g : Ceg) : (fastEdge n false g).t = g.t := Bool.xor_false g.t

/-- A slow edge flips the toggle bit (R153). -/
@[simp] theorem fastEdge_true_t (n : Nat) (g : Ceg) : (fastEdge n true g).t = !g.t := Bool.xor_true g.t

/-- Shifting in one bit and dropping the oldest keeps a full register full. -/
theorem length_shiftRegister {n : Nat} {g : Ceg} (hlen : g.sr.length = n) : (shiftRegister n g).length = n := by
  simp [shiftRegister, hlen]

/-- The combinational signal before the edge enters at sr[0]. -/
theorem getElem?_shiftRegister_zero {n : Nat} (g : Ceg) (hn : 1 ≤ n) :
    (shiftRegister n g)[0]? = some (commonEdgeSignal g) :=
  List.getElem?_take_of_lt hn

/-- Each later bit is the one before it, as it was before the edge. -/
theorem getElem?_shiftRegister_pos {n k : Nat} (g : Ceg) (hk : 1 ≤ k) (hkn : k < n) :
    (shiftRegister n g)[k]? = g.sr[k - 1]? := by
  obtain ⟨j, rfl⟩ := Nat.exists_eq_add_of_le' hk
  exact List.getElem?_take_of_lt hkn

/-! The operation of an edge record. -/

/-- The operation that a generator record selects replaces the generator's bits and changes nothing else. -/
theorem exec_decodeEdge (common : Bool) (s : State) :
    exec (decodeEdge common) s = .next { s with ceg := fastEdge s.par.ratio common s.ceg } := by
  cases common <;> rfl

/-- Settles O57: the record E = 0 shifts the combinational signal in and leaves the toggle bit as it is. -/
theorem fastEdgeRule : Obligations.FastEdgeRule := by
  unfold Obligations.FastEdgeRule
  refine ⟨rfl, fun s hn hlen => ⟨fastEdge s.par.ratio false s.ceg, exec_decodeEdge false s, fastEdge_false_t .., rfl, ?_⟩⟩
  exact ⟨length_shiftRegister hlen, getElem?_shiftRegister_zero s.ceg hn, fun _ => getElem?_shiftRegister_pos s.ceg⟩

/-- Settles O58: the record E = 1 shifts the combinational signal in and flips the toggle bit, which the fast register samples
before the edge. -/
theorem commonEdgeRule : Obligations.CommonEdgeRule := by
  unfold Obligations.CommonEdgeRule
  refine ⟨rfl, fun s hn hlen => ⟨fastEdge s.par.ratio true s.ceg, exec_decodeEdge true s, fastEdge_true_t .., rfl, ?_⟩⟩
  exact ⟨length_shiftRegister hlen, getElem?_shiftRegister_zero s.ceg hn, fun _ => getElem?_shiftRegister_pos s.ceg⟩

end Sys2Proof.Proofs
end

section
/-! SUPPORT. STAGE_CONSUME and FIR_OUTPUT case by case (spec/42_fir_arithmetic.md R183 to R192), and one lane of the output as a
function of that lane of the history (R197). -/

namespace Sys2Proof.Proofs

open Sys2Proof.Machine

/-! The shape of a stage and the checks of R183. -/

section Checks
variable {p : Params} {f : Fir} {i d u : Nat} {o : Bool} {e : FaultKind} {h : Shape}

theorem shapeOf_of_dec_unwritten (hd : (cfgOf f i).dec = none) : shapeOf f i = .error (.readUnwrittenConfig i .dec) := by
  simp [shapeOf, hd]

theorem shapeOf_of_opsm1_unwritten (hd : (cfgOf f i).dec = some d) (hu : (cfgOf f i).opsm1 = none) :
    shapeOf f i = .error (.readUnwrittenConfig i .opsm1) := by
  simp [shapeOf, hd, hu]

theorem shapeOf_of_odd_unwritten (hd : (cfgOf f i).dec = some d) (hu : (cfgOf f i).opsm1 = some u)
    (ho : (cfgOf f i).odd = none) : shapeOf f i = .error (.readUnwrittenConfig i .odd) := by
  simp [shapeOf, hd, hu, ho]

theorem shapeOf_of_written (hd : (cfgOf f i).dec = some d) (hu : (cfgOf f i).opsm1 = some u)
    (ho : (cfgOf f i).odd = some o) : shapeOf f i = .ok ⟨d, rowCount u o⟩ := by
  simp [shapeOf, hd, hu, ho]

theorem consumeChecks_of_shape_error (hs : shapeOf f i = .error e) : consumeChecks p f i = .error e := by
  simp [consumeChecks, hs]

theorem consumeChecks_of_zero_dec (hs : shapeOf f i = .ok h) (hd : h.dec = 0) :
    consumeChecks p f i = .error (.zeroDecimation i) := by
  simp [consumeChecks, hs, hd]

theorem consumeChecks_of_range_exceeds (hs : shapeOf f i = .ok h) (hd : 0 < h.dec)
    (hr : p.numCells < p.coefBase i + h.cells) :
    consumeChecks p f i = .error (.coefRangeExceedsMemory i (p.coefBase i + h.cells)) := by
  simp [consumeChecks, hs, hd.ne', hr]

theorem consumeChecks_of_range_fits (hs : shapeOf f i = .ok h) (hd : 0 < h.dec)
    (hr : p.coefBase i + h.cells ≤ p.numCells) : consumeChecks p f i = .ok h := by
  simp [consumeChecks, hs, hd.ne', hr.not_gt]

end Checks

/-! What the two operations do to the state. -/

section Operations
variable {i : Nat} {olast : Bool} {s : State} {v : Sample} {e : FaultKind} {h : Shape}

theorem computeOutput_of_ok {hist : List Iq} {y : Iq} (hy : firOutput s.par s.fir i hist = .ok y) :
    computeOutput i olast hist s = s.setPath [y.sample olast] := by
  simp [computeOutput, hy]

theorem computeOutput_of_error {hist : List Iq} (he : firOutput s.par s.fir i hist = .error e) :
    computeOutput i olast hist s = s.raiseOnPath e := by
  simp [computeOutput, he]

theorem exec_firOutput (i : Nat) (olast : Bool) (s : State) :
    exec (.firOutput i olast) s = .next (computeOutput i olast (stOf s.nxt i).hist s) := rfl

theorem exec_stageConsume (i : Nat) (olast : Bool) (s : State) :
    exec (.stageConsume i olast) s = .next (consumeSample i olast s) := rfl

theorem pathStage_of_consuming (hp : s.path = [v]) (hb : (cfgOf s.fir i).bypass = some false) :
    pathStage olast s i = consumeSample i olast s := by
  simp [pathStage, hp, hb]

/-- A failed check is raised and ends the take. -/
theorem consumeSample_of_checks_error (hp : s.path = [v]) (hc : consumeChecks s.par s.fir i = .error e) :
    consumeSample i olast s = s.raiseOnPath e := by
  simp [consumeSample, hp, hc]

/-- Within a group the sample joins the history and nothing leaves the stage. -/
theorem consumeSample_within_group (hp : s.path = [v]) (hc : consumeChecks s.par s.fir i = .ok h)
    (hph : (stOf s.fir i).phase + 1 ≠ h.dec) :
    consumeSample i olast s =
      (s.write (setStage i ⟨(stOf s.fir i).hist ++ [v.iq], (stOf s.fir i).phase + 1⟩)).setPath [] := by
  simp [consumeSample, hp, hc, hph]

/-- The last sample of a group sets the phase to 0, and the output for the history with that sample goes on the path. -/
theorem consumeSample_of_output {y : Iq} (hp : s.path = [v]) (hc : consumeChecks s.par s.fir i = .ok h)
    (hph : (stOf s.fir i).phase + 1 = h.dec) (hy : firOutput s.par s.fir i ((stOf s.fir i).hist ++ [v.iq]) = .ok y) :
    consumeSample i olast s =
      (s.write (setStage i ⟨(stOf s.fir i).hist ++ [v.iq], 0⟩)).setPath [y.sample olast] := by
  simp [consumeSample, computeOutput, hp, hc, hph, hy]

/-- A fault of the output at the end of a group is raised and ends the take. -/
theorem consumeSample_of_output_error (hp : s.path = [v]) (hc : consumeChecks s.par s.fir i = .ok h)
    (hph : (stOf s.fir i).phase + 1 = h.dec) (he : firOutput s.par s.fir i ((stOf s.fir i).hist ++ [v.iq]) = .error e) :
    consumeSample i olast s = (s.write (setStage i ⟨(stOf s.fir i).hist ++ [v.iq], 0⟩)).raiseOnPath e := by
  simp [consumeSample, computeOutput, hp, hc, hph, he]

end Operations

/-! The ends of a clamp, and a lane without a shift (R194, R195). -/

/-- From the upper end of the w-bit range on, a clamp gives that end. -/
theorem clamp_of_le {w : Nat} {v : Int} (h : 2 ^ (w - 1) - 1 ≤ v) : clamp w v = 2 ^ (w - 1) - 1 := by
  have : (1 : Int) ≤ 2 ^ (w - 1) := one_le_pow₀ (by decide)
  unfold clamp
  push_cast
  omega

/-- Up to the lower end of the w-bit range, a clamp gives that end. -/
theorem clamp_of_ge {w : Nat} {v : Int} (h : v ≤ -2 ^ (w - 1)) : clamp w v = -2 ^ (w - 1) := by
  have : (1 : Int) ≤ 2 ^ (w - 1) := one_le_pow₀ (by decide)
  unfold clamp
  push_cast
  omega

theorem clamp_zero (w : Nat) : clamp w 0 = 0 := by
  have : 1 ≤ 2 ^ (w - 1) := Nat.one_le_two_pow
  exact clamp_of_isSigned ⟨by omega, by omega⟩

/-- With t = 0 the accumulators are clamped, added and clamped again, without a shift (R194). -/
theorem laneOutput_no_shift (w : Nat) (a0 a1 : Int) :
    laneOutput w 0 a0 a1 = clamp w (clamp w a0 + clamp w a1) := by
  rw [laneOutput, asr_zero, asr_zero]

/-- With t = 0 and nothing in the other pair a lane is one clamp. -/
theorem laneOutput_no_shift_alone (w : Nat) (v : Int) : laneOutput w 0 v 0 = clamp w v := by
  rw [laneOutput_no_shift, clamp_zero, add_zero, clamp_of_isSigned (clamp_isSigned w v)]

/-! FIR_OUTPUT where it gives an output. -/

/-- FIR_OUTPUT gives an output exactly when the fields and the cells are written and no accumulator overflows. -/
theorem firOutput_eq_ok_iff {p : Params} {f : Fir} {i : Nat} {hist : List Iq} {y : Iq} :
    firOutput p f i hist = .ok y ↔ ∃ h t coefs, shapeOf f i = .ok h ∧ (cfgOf f i).trunc = some t
      ∧ readCoefs f.mem (p.coefBase i) h.cells = .ok coefs
      ∧ accOverflows p.accWidth h t coefs hist (hist.length - 1) = false
      ∧ y = ⟨firLane (p.outWidth i) h t coefs hist Iq.re (hist.length - 1),
          firLane (p.outWidth i) h t coefs hist Iq.im (hist.length - 1)⟩ := by
  rcases hs : shapeOf f i with e | h
  · simp [firOutput, hs]
  rcases ht : (cfgOf f i).trunc with _ | t
  · simp [firOutput, hs, ht]
  rcases hc : readCoefs f.mem (p.coefBase i) h.cells with e | coefs
  · simp [firOutput, hs, ht, hc]
  cases ho : accOverflows p.accWidth h t coefs hist (hist.length - 1) with
  | true => simp [firOutput, hs, ht, hc, ho]
  | false => simp [firOutput, hs, ht, hc, ho, @eq_comm _ _ y]

/-- The clamp of R191 is the last step of a lane. -/
theorem laneOutput_isSigned (w t : Nat) (a0 a1 : Int) : IsSigned w (laneOutput w t a0 a1) := clamp_isSigned w _

/-- Both parts of an output fit the stage's output width (R200). -/
theorem firOutput_fits {p : Params} {f : Fir} {i : Nat} {hist : List Iq} {y : Iq} (hy : firOutput p f i hist = .ok y) :
    Safety.IqFits (p.outWidth i) y := by
  obtain ⟨h, t, coefs, -, -, -, -, rfl⟩ := firOutput_eq_ok_iff.1 hy
  exact ⟨laneOutput_isSigned .., laneOutput_isSigned ..⟩

/-- The accumulator-width check passes exactly when each of the four bounds lies within ACC_W bits (R192). -/
theorem accOverflows_eq_false_iff {accWidth : Option Nat} {h : Shape} {t : Nat} {coefs : List Int} {hist : List Iq} {n : Nat} :
    accOverflows accWidth h t coefs hist n = false ↔ ∀ a, accWidth = some a → ∀ lane ∈ [Iq.re, Iq.im], ∀ q < 2,
      accumulatorBound h t coefs hist lane n q ≤ 2 ^ (a - 1) - 1 := by
  cases accWidth with
  | none => simp [accOverflows, boundExceeds]
  | some a =>
    have both_pairs (P : Nat → Prop) : (∀ q ≤ 1, P q) ↔ P 0 ∧ P 1 := by
      simp [Nat.le_one_iff_eq_zero_or_eq_one, or_imp, forall_and]
    simp [accOverflows, boundExceeds, both_pairs, and_assoc]

/-! One lane of the output depends on that lane of the history only. -/

section Lanes
variable {lane lane' : Iq → Int} {hist hist' : List Iq}

/-- Reading one part of an input is reading the list of those parts, with 0 outside it. -/
theorem lane_inputAt (h0 : lane ⟨0, 0⟩ = 0) (hist : List Iq) (m : Int) :
    lane (inputAt hist m) = if m < 0 then 0 else (hist.map lane).getD m.toNat 0 := by
  unfold inputAt
  split
  · exact h0
  · simpa only [h0] using (List.getD_map hist ⟨0, 0⟩ lane).symm

theorem product_congr_lane (h0 : lane ⟨0, 0⟩ = 0) (h0' : lane' ⟨0, 0⟩ = 0) (hl : hist.map lane = hist'.map lane')
    (coefs : List Int) (n : Nat) : product coefs hist lane n = product coefs hist' lane' n := by
  funext m
  simp only [product, lane_inputAt h0, lane_inputAt h0', hl]

theorem accumulatorBound_congr_lane (h0 : lane ⟨0, 0⟩ = 0) (h0' : lane' ⟨0, 0⟩ = 0)
    (hl : hist.map lane = hist'.map lane') (h : Shape) (t : Nat) (coefs : List Int) (n q : Nat) :
    accumulatorBound h t coefs hist lane n q = accumulatorBound h t coefs hist' lane' n q := by
  simp only [accumulatorBound, product_congr_lane h0 h0' hl]

theorem firLane_congr_lane (h0 : lane ⟨0, 0⟩ = 0) (h0' : lane' ⟨0, 0⟩ = 0) (hl : hist.map lane = hist'.map lane')
    (w : Nat) (h : Shape) (t : Nat) (coefs : List Int) (n : Nat) :
    firLane w h t coefs hist lane n = firLane w h t coefs hist' lane' n := by
  simp only [firLane, accumulator, product_congr_lane h0 h0' hl]

/-- A pair with its parts exchanged. -/
def swapParts (v : Iq) : Iq := ⟨v.im, v.re⟩

theorem map_re_map_swapParts (hist : List Iq) : (hist.map swapParts).map Iq.re = hist.map Iq.im := List.map_map

theorem map_im_map_swapParts (hist : List Iq) : (hist.map swapParts).map Iq.im = hist.map Iq.re := List.map_map

/-- The accumulator-width check treats the lanes alike. -/
theorem accOverflows_map_swapParts (accWidth : Option Nat) (h : Shape) (t : Nat) (coefs : List Int) (hist : List Iq) (n : Nat) :
    accOverflows accWidth h t coefs (hist.map swapParts) n = accOverflows accWidth h t coefs hist n := by
  have hre := accumulatorBound_congr_lane rfl rfl (map_re_map_swapParts hist) h t coefs n
  have him := accumulatorBound_congr_lane rfl rfl (map_im_map_swapParts hist) h t coefs n
  simp [accOverflows, hre, him, Bool.or_comm]

/-- Both lanes are computed alike: exchanging the parts of the history exchanges those of the output. -/
theorem firOutput_map_swapParts {p : Params} {f : Fir} {i : Nat} {y : Iq} (hy : firOutput p f i hist = .ok y) :
    firOutput p f i (hist.map swapParts) = .ok (swapParts y) := by
  obtain ⟨h, t, coefs, hs, ht, hc, ho, rfl⟩ := firOutput_eq_ok_iff.1 hy
  refine firOutput_eq_ok_iff.2 ⟨h, t, coefs, hs, ht, hc, ?_, ?_⟩
  · rw [accOverflows_map_swapParts, List.length_map, ho]
  · rw [List.length_map, firLane_congr_lane rfl rfl (map_re_map_swapParts hist),
      firLane_congr_lane rfl rfl (map_im_map_swapParts hist)]
    rfl

/-- Two outputs of one stage agree in each part in which their histories agree. -/
theorem firOutput_lanes {p : Params} {f : Fir} {i : Nat} {y y' : Iq} (hy : firOutput p f i hist = .ok y)
    (hy' : firOutput p f i hist' = .ok y') :
    (hist.map Iq.re = hist'.map Iq.re → y.re = y'.re) ∧ (hist.map Iq.im = hist'.map Iq.im → y.im = y'.im) := by
  obtain ⟨h, t, coefs, hs, ht, hc, -, rfl⟩ := firOutput_eq_ok_iff.1 hy
  obtain ⟨h', t', coefs', hs', ht', hc', -, rfl⟩ := firOutput_eq_ok_iff.1 hy'
  obtain rfl : h = h' := Except.ok.inj (hs.symm.trans hs')
  obtain rfl : t = t' := Option.some.inj (ht.symm.trans ht')
  obtain rfl : coefs = coefs' := Except.ok.inj (hc.symm.trans hc')
  have same_lane {lane : Iq → Int} (h0 : lane ⟨0, 0⟩ = 0) (hl : hist.map lane = hist'.map lane) :
      firLane (p.outWidth i) h t coefs hist lane (hist.length - 1)
        = firLane (p.outWidth i) h t coefs hist' lane (hist'.length - 1) := by
    have hlen : hist.length = hist'.length := by simpa using congrArg List.length hl
    rw [hlen, firLane_congr_lane h0 h0 hl]
  exact ⟨same_lane rfl, same_lane rfl⟩

end Lanes

/-! The sums of the accumulators over written cells and a known history. -/

/-- What one accumulator of a pair adds up, as the sum over the rows of its parity and the columns (R189). -/
theorem pairSum_eq_sum (h : Shape) (q : Nat) (term : Nat → Int) :
    pairSum h q term = ∑ k ∈ (Finset.range h.rows).filter (fun k => k % 2 = q), ∑ e ∈ Finset.range h.dec,
      term (k * h.dec + e) := rfl

/-- Only the coefficients below NC = K * D are added up. -/
theorem pairSum_congr {h : Shape} {term term' : Nat → Int} (hterm : ∀ m < h.cells, term m = term' m) (q : Nat) :
    pairSum h q term = pairSum h q term' := by
  rw [pairSum_eq_sum, pairSum_eq_sum]
  refine Finset.sum_congr rfl fun k hk => Finset.sum_congr rfl fun e he => hterm _ ?_
  have hk := (Finset.mem_filter.1 hk).1
  rw [Finset.mem_range] at hk he
  calc k * h.dec + e < (k + 1) * h.dec := by rw [Nat.succ_mul]; omega
    _ ≤ h.cells := Nat.mul_le_mul_right _ hk

/-- A history that holds x(0), ..., x(n) reads as x up to n, where x is zero below 0 (R45). -/
theorem inputAt_of_history {hist : List Iq} {x : Int → Iq} {n : Nat} (hneg : ∀ m : Int, m < 0 → x m = ⟨0, 0⟩)
    (hx : ∀ m : Nat, m ≤ n → hist[m]? = some (x m)) {m : Int} (hm : m ≤ n) : inputAt hist m = x m := by
  by_cases h0 : m < 0
  · rw [inputAt_neg hist h0, hneg m h0]
  · obtain ⟨k, rfl⟩ := Int.eq_ofNat_of_zero_le (not_lt.1 h0)
    rw [inputAt_nat, List.getD_eq_getElem?_getD, hx k (by omega), Option.getD_some]

/-- The product of a coefficient with the input that R189 pairs it with. -/
theorem product_of_history {hist : List Iq} {x : Int → Iq} {n : Nat} (hneg : ∀ m : Int, m < 0 → x m = ⟨0, 0⟩)
    (hx : ∀ m : Nat, m ≤ n → hist[m]? = some (x m)) (c : Nat → Int) (lane : Iq → Int) {m N : Nat} (hm : m < N) :
    product ((List.range N).map c) hist lane n m = c m * lane (x ((n : Int) - m)) := by
  simp [product, hm, inputAt_of_history hneg hx]

end Sys2Proof.Proofs
end

section
/-! PROOFS. The statements about the FIR stage's checks, its rule, and what an output computes (spec/42_fir_arithmetic.md). -/

namespace Sys2Proof.Proofs

open Sys2Proof.Machine Sys2Proof.Safety

/-- Settles O38: the cells read as c and the history as x, so each accumulator is the sum that the statement writes out. -/
theorem firOutputComputesRoundedConvolution : Obligations.FirOutputComputesRoundedConvolution := by
  unfold Obligations.FirOutputComputesRoundedConvolution
  intro i olast s d u t n o c x hd hu ho ht hcells hlen hneg hx hbound acc part
  set hist := (stOf s.nxt i).hist
  set h : Shape := ⟨d, rowCount u o⟩
  set coefs := (List.range h.cells).map c
  have hterm (lane : Iq → Int) : ∀ m < h.cells, product coefs hist lane n m = c m * lane (x ((n : Int) - m)) :=
    fun m => product_of_history hneg hx c lane
  have hacc (lane : Iq → Int) (q : Nat) : accumulator h t coefs hist lane n q = acc lane q := by
    rw [accumulator, pairSum_congr (hterm lane), pairSum_eq_sum]
    rfl
  have hover : accOverflows s.par.accWidth h t coefs hist n = false := by
    refine accOverflows_eq_false_iff.2 fun a ha lane hlane q hq => ?_
    rw [accumulatorBound, pairSum_congr (fun m hm => by rw [hterm lane m hm, Int.natCast_natAbs]), pairSum_eq_sum]
    exact hbound a ha lane hlane q hq
  have hpart (lane : Iq → Int) : firLane (s.par.outWidth i) h t coefs hist lane n = part lane := by
    rw [firLane, hacc, hacc, laneOutput, asr_eq_ediv, asr_eq_ediv]
  have hn : hist.length - 1 = n := by omega
  have hy : firOutput s.par s.fir i hist = .ok ⟨part Iq.re, part Iq.im⟩ :=
    firOutput_eq_ok_iff.2 ⟨h, t, coefs, shapeOf_of_written hd hu ho, ht, readCoefs_of_written hcells,
      by rw [hn, hover], by rw [hn, hpart, hpart]⟩
  rw [exec_firOutput, computeOutput_of_ok hy]
  rfl

/-- Settles O42: a shift by 0 leaves the accumulator as it is, so only the clamps act. -/
theorem saturationBoundaries : Obligations.SaturationBoundaries := by
  unfold Obligations.SaturationBoundaries
  refine ⟨⟨bias_zero, fun v w ow => ⟨asr_zero v, laneOutput_no_shift ow v w⟩⟩, fun ow _ => ?_⟩
  simp only [laneOutput_no_shift_alone]
  exact ⟨clamp_of_le (by omega), clamp_of_le le_rfl, clamp_of_ge (by omega)⟩

/-- Settles O45: a fault leaves the path empty, and an output is a clamped pair. -/
theorem outputFitsWidth : Obligations.OutputFitsWidth := by
  unfold Obligations.OutputFitsWidth
  intro i olast s
  rw [exec_firOutput]
  refine ⟨_, rfl, ?_⟩
  rcases hy : firOutput s.par s.fir i (stOf s.nxt i).hist with e | y
  · simp [computeOutput_of_error hy]
  · simpa [computeOutput_of_ok hy] using ⟨firOutput_fits hy, rfl⟩

/-- Settles O46: a lane is a function of that part of the history alone, the same function for both parts. -/
theorem lanesNeverMix : Obligations.LanesNeverMix := by
  unfold Obligations.LanesNeverMix
  exact fun p f i hist hist' y y' hy => ⟨firOutput_lanes hy, firOutput_map_swapParts hy⟩

/-- Settles O36: each check that fails is the fault of consumeChecks, which ends the take. -/
theorem consumeChecksInOrder : Obligations.ConsumeChecksInOrder := by
  unfold Obligations.ConsumeChecksInOrder
  intro i olast s v hp faultsWith
  have fault {e : FaultKind} (he : consumeChecks s.par s.fir i = .error e) : faultsWith e :=
    congrArg Host.Outcome.next (consumeSample_of_checks_error hp he)
  refine ⟨fun hd => ?_, fun d hd => ⟨fun hu => ?_, fun u hu => ⟨fun ho => ?_, fun o ho => ?_⟩⟩⟩
  · exact fault (consumeChecks_of_shape_error (shapeOf_of_dec_unwritten hd))
  · exact fault (consumeChecks_of_shape_error (shapeOf_of_opsm1_unwritten hd hu))
  · exact fault (consumeChecks_of_shape_error (shapeOf_of_odd_unwritten hd hu ho))
  · have hs := shapeOf_of_written hd hu ho
    exact ⟨fun h0 => fault (consumeChecks_of_zero_dec hs h0), fun h0 hr => fault (consumeChecks_of_range_exceeds hs h0 hr),
      fun h0 hr => consumeChecks_of_range_fits hs h0 hr⟩

/-- Settles O37: the cases of STAGE_CONSUME are the checks, the phase, and the outcome of FIR_OUTPUT at the end of a group. -/
theorem stageConsumeRule : Obligations.StageConsumeRule := by
  unfold Obligations.StageConsumeRule
  intro i olast s v hp
  rw [exec_stageConsume]
  refine ⟨fun hb => ?_, fun e he => ?_, fun h hc => ⟨fun hph => ?_, fun hph => ?_⟩⟩
  · rw [pathStage_of_consuming hp hb]
  · rw [consumeSample_of_checks_error hp he]
    rfl
  · rw [consumeSample_within_group hp hc hph]
    rfl
  · refine ⟨fun y hy => ?_, fun e he => ⟨_, rfl, ?_⟩⟩
    · rw [consumeSample_of_output hp hc hph hy]
      rfl
    · rw [consumeSample_of_output_error hp hc hph he]
      exact ⟨rfl, rfl⟩

end Sys2Proof.Proofs
end

section
/-! SUPPORT. The rows of spec/43_cascade_and_bypass.md case by case: DISABLED_PASS (R223), STAGE_BYPASS (R224), and a stage that
receives nothing (R228). -/

namespace Sys2Proof.Proofs

open Sys2Proof.Machine

/-! DISABLED_PASS (R223). -/

section Disabled
variable {s : State}

theorem exec_disabledPass (s : State) : exec .disabledPass s = .next (passDisabled s) := rfl

theorem runPath_of_disabled (olast : Bool) (hen : s.fir.firEnable = false) : runPath olast s = passDisabled s := by
  simp [runPath, hen]

theorem passDisabled_of_fits (hw : s.par.sinkWidth ≤ s.par.sourceWidth) : passDisabled s = s :=
  if_neg hw.not_gt

/-- The narrowing fault ends the take (R331 code 7). -/
theorem passDisabled_of_narrowing (hw : s.par.sourceWidth < s.par.sinkWidth) :
    passDisabled s = s.raiseOnPath (.disabledNarrowing s.par.sinkWidth s.par.sourceWidth) :=
  if_pos hw

end Disabled

/-! STAGE_BYPASS (R224). -/

section Bypass
variable {i : Nat} {s : State} {v : Sample}

theorem exec_stageBypass (i : Nat) (s : State) : exec (.stageBypass i) s = .next (bypassStage i s) := rfl

theorem pathStage_of_bypassed (olast : Bool) (hp : s.path = [v]) (hb : (cfgOf s.fir i).bypass = some true) :
    pathStage olast s i = bypassStage i s := by
  simp [pathStage, hp, hb]

/-- Whatever is on the path, a bypass that does not narrow leaves the whole state as it is. -/
theorem bypassStage_of_fits (hw : s.par.inWidth i ≤ s.par.outWidth i) : bypassStage i s = s := by
  rcases hp : s.path with _ | ⟨v, q⟩
  · simp [bypassStage, hp]
  · simp [bypassStage, hp, hw.not_gt]

/-- The narrowing fault of a stage that receives a sample ends the take (R331 code 6). -/
theorem bypassStage_of_narrowing (hp : s.path = [v]) (hw : s.par.outWidth i < s.par.inWidth i) :
    bypassStage i s = s.raiseOnPath (.bypassNarrowing i (s.par.inWidth i) (s.par.outWidth i)) := by
  simp [bypassStage, hp, hw]

end Bypass

/-! A stage that receives nothing (R228): no configuration, no stage state and no coefficient decides what happens. -/

section Nothing
variable {s : State}

theorem bypassStage_of_path_empty (i : Nat) (hp : s.path = []) : bypassStage i s = s := by
  simp [bypassStage, hp]

theorem consumeSample_of_path_empty (i : Nat) (olast : Bool) (hp : s.path = []) : consumeSample i olast s = s := by
  simp [consumeSample, hp]

theorem pathStage_of_path_empty (i : Nat) (olast : Bool) (hp : s.path = []) : pathStage olast s i = s :=
  foldl_pathStage_nil olast [i] s hp

end Nothing

end Sys2Proof.Proofs
end

section
/-! PROOFS. The statements about the path's rows (spec/43_cascade_and_bypass.md). -/

namespace Sys2Proof.Proofs

open Sys2Proof.Machine

/-- Settles O32: DISABLED_PASS is the path of a disabled block, and its one check compares the block's outer widths. -/
theorem disabledPassKeepsSample : Obligations.DisabledPassKeepsSample := by
  unfold Obligations.DisabledPassKeepsSample
  intro s
  rw [exec_disabledPass]
  refine ⟨fun hen olast => ?_, fun hfits => ?_, fun hnarrow => ?_⟩
  · rw [runPath_of_disabled olast hen]
  · rw [passDisabled_of_fits hfits]
  · rw [passDisabled_of_narrowing hnarrow]
    rfl

/-- Settles O33: STAGE_BYPASS is the path's turn at a bypassed stage, and its one check compares the stage's widths. -/
theorem stageBypassKeepsSample : Obligations.StageBypassKeepsSample := by
  unfold Obligations.StageBypassKeepsSample
  intro i s v hp
  rw [exec_stageBypass]
  refine ⟨fun hb olast => ?_, fun hfits => ?_, fun hnarrow => ?_⟩
  · rw [pathStage_of_bypassed olast hp hb]
  · rw [bypassStage_of_fits hfits]
  · rw [bypassStage_of_narrowing hp hnarrow]
    rfl

/-- Settles O34: both stage rows and the loop of PATH look at the path first, and stop where it is empty. -/
theorem stageReceivingNothingIsIdle : Obligations.StageReceivingNothingIsIdle := by
  unfold Obligations.StageReceivingNothingIsIdle
  intro i olast s hp
  rw [exec_stageBypass, exec_stageConsume, bypassStage_of_path_empty i hp, consumeSample_of_path_empty i olast hp]
  exact ⟨rfl, rfl, pathStage_of_path_empty i olast hp⟩

end Sys2Proof.Proofs
end

section
/-! SUPPORT. What the cycles of the stream controller have in common (spec/44_stream_controller.md): no operation but RESET changes
what the block drives or the overflow detection of the cycle, and no operation but RESET and SRC_XFER takes back an offer (R260). -/

namespace Sys2Proof.Proofs

open Sys2Proof.Machine Sys2Proof.Safety

/-! What a sequence of operations keeps. -/

/-- A reflexive and transitive relation that each operation of a sequence keeps holds from its start to its end. -/
theorem runOps_induct {R : State → State → Prop} (refl : ∀ s, R s s) (trans : ∀ {s t u}, R s t → R t u → R s u)
    {ops : List Instr} (keep : ∀ i ∈ ops, ∀ s t, exec i s = .next t → R s t) {s t : State} (h : runOps ops s = .next t) :
    R s t := by
  induction ops generalizing s with
  | nil =>
    injection h with h
    exact h ▸ refl s
  | cons i is ih =>
    obtain ⟨hi, his⟩ := List.forall_mem_cons.1 keep
    obtain ⟨u, hu⟩ := exec_next i s
    rw [runOps_cons i is hu] at h
    exact trans (hi s u hu) (ih his h)

/-- From s to t, within one cycle, what the block drives on sink ready and on the source stays, and so does what the overflow
detection writes. -/
structure KeepsDriven (s t : State) : Prop where
  sinkReady : t.ports.sinkReady = s.ports.sinkReady
  srcValid : t.ports.srcValid = s.ports.srcValid
  src : t.ports.src = s.ports.src
  ovf : t.nxt.ovf = s.nxt.ovf
  prevReady : t.nxt.prevReady = s.nxt.prevReady

theorem KeepsDriven.refl (s : State) : KeepsDriven s s := ⟨rfl, rfl, rfl, rfl, rfl⟩

theorem KeepsDriven.trans {s t u : State} (h₁ : KeepsDriven s t) (h₂ : KeepsDriven t u) : KeepsDriven s u :=
  ⟨h₂.sinkReady.trans h₁.sinkReady, h₂.srcValid.trans h₁.srcValid, h₂.src.trans h₁.src, h₂.ovf.trans h₁.ovf,
    h₂.prevReady.trans h₁.prevReady⟩

/-- From s to t, within one cycle, what is driven stays, an offer in σ' stays raised, and the pending queue of σ' grows at its
tail only. -/
structure HoldsOffer (s t : State) : Prop extends KeepsDriven s t where
  offered : s.nxt.offered = true → t.nxt.offered = true
  pending : s.nxt.pending <+: t.nxt.pending

theorem HoldsOffer.refl (s : State) : HoldsOffer s s := ⟨.refl s, id, [], List.append_nil _⟩

theorem HoldsOffer.trans {s t u : State} (h₁ : HoldsOffer s t) (h₂ : HoldsOffer t u) : HoldsOffer s u :=
  ⟨h₁.toKeepsDriven.trans h₂.toKeepsDriven, h₂.offered ∘ h₁.offered, h₁.pending.trans h₂.pending⟩

theorem HoldsOffer.ite {c : Prop} [Decidable c] {s t u : State} (ht : HoldsOffer s t) (hu : HoldsOffer s u) :
    HoldsOffer s (if c then t else u) := by
  split
  · exact ht
  · exact hu

/-- An operation that leaves the ports, and in σ' the queue, its offer and the overflow detection, as they are. -/
theorem HoldsOffer.ofFrame {s t : State} (ports : t.ports = s.ports) (ovf : t.nxt.ovf = s.nxt.ovf)
    (prevReady : t.nxt.prevReady = s.nxt.prevReady) (offered : t.nxt.offered = s.nxt.offered)
    (pending : t.nxt.pending = s.nxt.pending) : HoldsOffer s t :=
  ⟨⟨by rw [ports], by rw [ports], by rw [ports], ovf, prevReady⟩, offered.trans,
    [], (List.append_nil _).trans pending.symm⟩

/-- The operations of a take's path write the stages of σ' only. -/
theorem HoldsOffer.ofPathOnly {s t : State} (h : PathOnly s t) : HoldsOffer s t :=
  .ofFrame (by rw [h.rest]) (by rw [h.rest]) (by rw [h.rest]) (by rw [h.rest]) (by rw [h.rest])

/-- Raising source valid, by a stall or by SRC_OFFER, leaves the queue as it is. -/
theorem raiseOffer_holdsOffer (s : State) : HoldsOffer s (s.write fun f => { f with offered := true }) :=
  ⟨⟨rfl, rfl, rfl, rfl, rfl⟩, fun _ => rfl, [], List.append_nil _⟩

theorem writeCfg_holdsOffer (field : CfgField) (stage : BitVec 2) (v : Nat) (s : State) :
    HoldsOffer s (writeCfg field stage v s) := by
  obtain ⟨k, -, h⟩ | ⟨-, h⟩ := writeCfg_cases field stage v s <;> rw [h]
  · exact .ofFrame rfl rfl rfl rfl rfl
  · exact .ofFrame rfl (storeCfg_ovf ..) (storeCfg_prevReady ..) (storeCfg_offered ..) (storeCfg_pending ..)

/-- The outputs of a take join the tail of the queue. -/
theorem takeSample_holdsOffer (olast : Bool) (s : State) : HoldsOffer s (takeSample olast s) := by
  obtain ⟨-, h⟩ | ⟨x, -, t, -, -, hpath, -, h⟩ := takeSample_cases olast s <;> rw [h]
  · exact .refl s
  · have head : HoldsOffer s (takeHead x s) := .ofFrame rfl rfl rfl rfl rfl
    have collect : HoldsOffer t (collectOutputs t) := ⟨⟨rfl, rfl, rfl, rfl, rfl⟩, id, t.path, rfl⟩
    exact (head.trans (.ofPathOnly hpath)).trans collect

/-- Every operation but RESET and SRC_XFER holds the offer. -/
theorem exec_holdsOffer {i : Instr} {s t : State} (hreset : ∀ b, i ≠ .reset b) (hxfer : i ≠ .srcXfer)
    (h : exec i s = .next t) : HoldsOffer s t := by
  cases i <;> (injection h with h; subst h)
  case reset b => exact absurd rfl (hreset b)
  case srcXfer => exact absurd rfl hxfer
  case sinkXfer | sinkStall | cfgReserved | cegFastEdge | cegCommonEdge => exact .ofFrame rfl rfl rfl rfl rfl
  case srcStall => exact raiseOffer_holdsOffer s
  case pathTake olast => exact .ite (takeSample_holdsOffer olast s) (.refl s)
  case srcOffer => exact .ite (.refl s) (raiseOffer_holdsOffer s)
  case coefWrite => exact .ite (.ofFrame rfl rfl rfl rfl rfl) (.ofFrame rfl rfl rfl rfl rfl)
  case cfgDecimation | cfgOpsM1 | cfgOddOps | cfgMaccTrunc | cfgBypass | cfgFirEnable => exact writeCfg_holdsOffer ..
  case statusRead => exact ⟨⟨rfl, rfl, rfl, rfl, rfl⟩, id, [], List.append_nil _⟩
  case disabledPass => exact .ofPathOnly (passDisabled_pathOnly s)
  case stageBypass i => exact .ofPathOnly (bypassStage_pathOnly i s)
  case stageConsume i olast => exact .ofPathOnly (consumeSample_pathOnly i olast s)
  case firOutput i olast => exact .ofPathOnly (computeOutput_pathOnly i olast _ s)

/-- SRC_XFER too leaves what is driven: it hands out the sample and writes the queue. -/
theorem exec_keepsDriven {i : Instr} {s t : State} (hreset : ∀ b, i ≠ .reset b) (h : exec i s = .next t) :
    KeepsDriven s t := by
  by_cases hxfer : i = .srcXfer
  · subst hxfer
    injection h with h
    subst h
    exact ⟨rfl, rfl, rfl, rfl, rfl⟩
  · exact (exec_holdsOffer hreset hxfer h).toKeepsDriven

theorem runOps_keepsDriven {ops : List Instr} {s t : State} (hreset : ∀ b, .reset b ∉ ops) (h : runOps ops s = .next t) :
    KeepsDriven s t :=
  runOps_induct .refl .trans (fun _ hi _ _ => exec_keepsDriven fun b hb => hreset b (hb ▸ hi)) h

theorem runOps_holdsOffer {ops : List Instr} {s t : State} (hreset : ∀ b, .reset b ∉ ops) (hxfer : .srcXfer ∉ ops)
    (h : runOps ops s = .next t) : HoldsOffer s t :=
  runOps_induct .refl .trans
    (fun _ hi _ _ => exec_holdsOffer (fun b hb => hreset b (hb ▸ hi)) (fun hx => hxfer (hx ▸ hi))) h

/-! The operations of a cycle: RESET comes from the line rst alone, SRC_XFER from source valid and ready. -/

theorem mem_streamOperations {r : CycleRecord} {i : Instr} :
    i ∈ streamOperations r ↔ (Word.srcValid r.w = true ∧ i = if Word.srcReady r.w then .srcXfer else .srcStall)
      ∨ (Word.take r.w = true ∧ i = .pathTake r.olast)
      ∨ (Word.sinkValid r.w = true
          ∧ i = if Word.sinkReady r.w then .sinkXfer r.sinkRe r.sinkIm r.sinkLast else .sinkStall)
      ∨ (Word.offer r.w = true ∧ i = .srcOffer) := by
  simp [streamOperations]

theorem reset_not_mem_controlOperations (b : Bool) (r : CycleRecord) : .reset b ∉ controlOperations r := by
  intro h
  obtain ⟨-, h⟩ | ⟨-, h⟩ | ⟨-, h⟩ := mem_controlOperations.1 h
  · have := isConfigWrite_cfgOperation r
    rw [← h] at this
    cases this
  · cases h
  · cases h

theorem reset_not_mem_streamOperations (b : Bool) (r : CycleRecord) : .reset b ∉ streamOperations r := by
  intro h
  obtain ⟨-, h⟩ | ⟨-, h⟩ | ⟨-, h⟩ | ⟨-, h⟩ := mem_streamOperations.1 h
  · split at h <;> cases h
  · cases h
  · split at h <;> cases h
  · cases h

/-- The operations of a cycle with reset deasserted. -/
def runningOperations (s : State) (r : CycleRecord) : List Instr :=
  controlOperations r ++ streamOperations (completeRecord s r)

theorem reset_not_mem_runningOperations (s : State) (r : CycleRecord) (b : Bool) : .reset b ∉ runningOperations s r := by
  simp [runningOperations, reset_not_mem_controlOperations, reset_not_mem_streamOperations]

/-- Without source ready there is no transfer. -/
theorem srcXfer_not_mem_runningOperations (s : State) {r : CycleRecord} (h : Word.srcReady r.w = false) :
    .srcXfer ∉ runningOperations s r := by
  intro hx
  rcases List.mem_append.1 hx with hc | hs
  · have := isStreamOperation_of_mem_resetOperations (List.mem_cons_of_mem _ hc)
    cases this
  · have stalled : Word.srcReady (completeRecord s r).w = false := by simpa [completeRecord] using h
    obtain ⟨-, h⟩ | ⟨-, h⟩ | ⟨-, h⟩ | ⟨-, h⟩ := mem_streamOperations.1 hs
    · rw [stalled] at h
      cases h
    · cases h
    · split at h <;> cases h
    · cases h

/-! The cycles of the stream. -/

section Steps
variable {s : State} {r : CycleRecord} {rest : List Record}

/-- A step that runs a cycle's record is a step of a well-formed machine, and the record spells a cycle. -/
theorem wellFormed_of_step_cycle {t : State} (hr : s.records = .cycle r :: rest) (h : step s = .next t) :
    s.par.WellFormed ∧ Word.reserved r.w = false := by
  obtain ⟨hw, -⟩ := step_next h
  refine ⟨hw, ?_⟩
  rw [step_of_cycle hw hr] at h
  by_contra hres
  rw [runCycle_of_reserved s rest (by simpa using hres)] at h
  split at h <;> cases h

/-- After the first reset a cycle with reset deasserted runs its operations from the opened cycle and latches. -/
theorem step_running (hw : s.par.WellFormed) (hf : NoFault s) (hr : s.records = .cycle r :: rest)
    (hres : Word.reserved r.w = false) (hrst : Word.rst r.w = false) (hu : s.fir.unreset = false) :
    ∃ u, runOps (runningOperations s r) (openCycle s r rest) = .next u ∧ step s = .next u.latch := by
  obtain ⟨u, hops⟩ := runOps_next (runningOperations s r) (openCycle s r rest)
  refine ⟨u, hops, ?_⟩
  rw [step_of_cycle hw hr, runCycle_of_running rest hf hres hrst hu, ← runningOperations, hops]
  rfl

/-- A reset cycle runs RESET from the opened cycle, the control plane's operations from there, and latches. -/
theorem step_reset (hw : s.par.WellFormed) (hf : NoFault s) (hr : s.records = .cycle r :: rest)
    (hres : Word.reserved r.w = false) (hrst : Word.rst r.w = true) :
    ∃ v u, exec (.reset r.rready) (openCycle s r rest) = .next v ∧ runOps (controlOperations r) v = .next u
      ∧ step s = .next u.latch := by
  obtain ⟨v, hv⟩ := exec_next (.reset r.rready) (openCycle s r rest)
  obtain ⟨u, hops⟩ := runOps_next (controlOperations r) v
  refine ⟨v, u, hv, hops, ?_⟩
  rw [step_of_cycle hw hr, runCycle_of_reset rest hf hres hrst, runOps_cons _ _ hv, hops]
  rfl

/-- What a step with reset deasserted loads: before the first reset σ with NotReset recorded, after it what the cycle's
operations make of the opened cycle. -/
theorem step_running_cases {t : State} (hf : NoFault s) (hr : s.records = .cycle r :: rest) (hrst : Word.rst r.w = false)
    (h : step s = .next t) :
    t.fir = withFaults s.fir [⟨.notReset s.cycle, s.cycle⟩]
      ∨ ∃ u, runOps (runningOperations s r) (openCycle s r rest) = .next u ∧ t.fir = u.registered := by
  obtain ⟨hw, hres⟩ := wellFormed_of_step_cycle hr h
  cases hu : s.fir.unreset
  · obtain ⟨u, hops, hstep⟩ := step_running hw hf hr hres hrst hu
    obtain rfl := Host.Outcome.next.inj (h.symm.trans hstep)
    exact .inr ⟨u, hops, rfl⟩
  · rw [step_of_cycle hw hr, runCycle_before_reset rest hf hres hrst hu] at h
    obtain rfl := Host.Outcome.next.inj h
    exact .inl (registered_raise _ (openCycle_raised s r rest))

/-- A cycle that latches still drives what was driven before the operations that keep it, with a fault or without. -/
theorem latch_driven {s t : State} (h : KeepsDriven s t) :
    t.latch.ports.sinkReady = s.ports.sinkReady ∧ t.latch.ports.srcValid = s.ports.srcValid
      ∧ t.latch.ports.src = s.ports.src := by
  rw [latch_ports, ← h.sinkReady, ← h.srcValid, ← h.src]
  split <;> exact ⟨rfl, rfl, rfl⟩

/-- A running cycle keeps what its opening drives and what the overflow detection writes there. -/
theorem runningOperations_keepsDriven {u : State}
    (hops : runOps (runningOperations s r) (openCycle s r rest) = .next u) : KeepsDriven (openCycle s r rest) u :=
  runOps_keepsDriven (reset_not_mem_runningOperations s r) hops

/-- The control plane's operations of a reset cycle keep what RESET drives and clears. -/
theorem controlOperations_keepsDriven {v u : State} (hops : runOps (controlOperations r) v = .next u) : KeepsDriven v u :=
  runOps_keepsDriven (fun b => reset_not_mem_controlOperations b r) hops

/-- σ' of an opened cycle with reset deasserted. -/
theorem openCycle_nxt_of_running (s : State) (rest : List Record) (hrst : Word.rst r.w = false) :
    (openCycle s r rest).nxt = withOverflowDetection s.par s.fir := by
  simp [hrst]

end Steps

end Sys2Proof.Proofs
end

section
/-! PROOFS. The statements about the outputs driven in a cycle, the OverflowFlag, and the offered output
(spec/44_stream_controller.md). -/

namespace Sys2Proof.Proofs

open Sys2Proof.Machine Sys2Proof.Safety

/-- Settles O20: the outputs are driven at the cycle's opening, or by RESET, and no later operation drives them again. -/
theorem drivenOutputs : Obligations.DrivenOutputs := by
  unfold Obligations.DrivenOutputs
  refine fun s r rest hw hf hr hres => ⟨fun hrst hu => ?_, fun hrst => ?_⟩
  · obtain ⟨u, hops, hstep⟩ := step_running hw hf hr hres hrst hu
    obtain ⟨hready, hvalid, hsrc⟩ := latch_driven (runningOperations_keepsDriven hops)
    have opened : (openCycle s r rest).ports = drivenPorts s.par s.fir := by simp [hrst, hu]
    rw [opened] at hready hvalid hsrc
    refine ⟨u.latch, hstep, hready, hvalid, fun x q ho hp => ?_⟩
    rw [hsrc, drivenPorts, if_pos ho, hp]
    rfl
  · obtain ⟨v, u, hv, hops, hstep⟩ := step_reset hw hf hr hres hrst
    obtain ⟨hready, hvalid, -⟩ := latch_driven (controlOperations_keepsDriven hops)
    obtain rfl := Host.Outcome.next.inj hv
    exact ⟨u.latch, hstep, hready, hvalid⟩

/-- Settles O30: the overflow detection of the cycle's opening, or RESET, writes flag and prev_ready, and no later operation
does. -/
theorem overflowFlagRule : Obligations.OverflowFlagRule := by
  unfold Obligations.OverflowFlagRule
  refine fun s t r rest hf hr h ht => ⟨fun hrst => ?_, fun hrst => ?_⟩
  · obtain hfault | ⟨u, hops, hloaded⟩ := step_running_cases hf hr hrst h
    · simp [NoFault, hfault] at ht
    · have kept := runningOperations_keepsDriven hops
      rw [NoFault, hloaded] at ht
      rw [hloaded, registered_of_noFault ht, kept.ovf, kept.prevReady, openCycle_nxt_of_running s rest hrst]
      exact ⟨rfl, rfl⟩
  · obtain ⟨hw, hres⟩ := wellFormed_of_step_cycle hr h
    obtain ⟨v, u, hv, hops, hstep⟩ := step_reset hw hf hr hres hrst
    obtain rfl := Host.Outcome.next.inj (h.symm.trans hstep)
    obtain rfl := Host.Outcome.next.inj hv
    rw [latch_fir, registered_of_noFault ht]
    exact (controlOperations_keepsDriven hops).prevReady

/-- Settles O31: without a transfer the operations hold the offer and the queue's head, and a cycle that raises a fault, as
every cycle before the first reset does, loads σ's own. -/
theorem offeredOutputIsHeld : Obligations.OfferedOutputIsHeld := by
  unfold Obligations.OfferedOutputIsHeld
  intro s t r rest x q hf hr hrst hready ho hp h
  have held_by_faults (fs : List FaultRec) :
      (withFaults s.fir fs).offered = true ∧ (withFaults s.fir fs).pending.head? = some x :=
    ⟨ho, congrArg List.head? hp⟩
  obtain hfault | ⟨u, hops, hloaded⟩ := step_running_cases hf hr hrst h
  · rw [hfault]
    exact held_by_faults _
  · rw [hloaded]
    obtain ⟨-, hu⟩ | ⟨-, hu⟩ := registered_cases u <;> rw [hu]
    · have held := runOps_holdsOffer (reset_not_mem_runningOperations s r) (srcXfer_not_mem_runningOperations s hready) hops
      have offered := held.offered
      have pending := held.pending
      rw [openCycle_nxt_of_running s rest hrst] at offered pending
      obtain ⟨tail, hgrown⟩ := hp ▸ pending
      exact ⟨offered ho, hgrown ▸ rfl⟩
    · rw [(runOps_keepsReset hops).fir]
      exact held_by_faults _

end Sys2Proof.Proofs
end

section
/-! SUPPORT. The control plane (spec/45_control_plane.md): which of its operations a record selects, the outcome of a configuration
write for each check of R290, activity and idleness in the spec's terms (R294, R298, R48), and who writes the configuration and the
coefficient memory (R305). -/

namespace Sys2Proof.Proofs

open Sys2Proof.Machine Sys2Proof.Safety

/-! Selection (R111, R123). -/

theorem isStreamOperation_of_mem_streamOperations {r : CycleRecord} {i : Instr} (h : i ∈ streamOperations r) :
    isStreamOperation i = true := by
  obtain ⟨-, rfl⟩ | ⟨-, rfl⟩ | ⟨-, rfl⟩ | ⟨-, rfl⟩ := mem_streamOperations.1 h
  · split <;> rfl
  · rfl
  · split <;> rfl
  · rfl

theorem isConfigWrite_of_isStreamOperation {i : Instr} (h : isStreamOperation i = true) : isConfigWrite i = false := by
  cases i <;> simp_all [isStreamOperation, isConfigWrite]

/-- The configuration lines name a configuration write and nothing else. -/
theorem isConfigWrite_of_eq_cfgOperation {r : CycleRecord} {i : Instr} (h : i = cfgOperation r) : isConfigWrite i = true :=
  h ▸ isConfigWrite_cfgOperation r

/-- An operation that is neither RESET nor the stream's comes from the control plane's lines, reset cycle or not. -/
theorem mem_decode_iff {r : CycleRecord} {ops : List Instr} {i : Instr} (hreset : ∀ b, i ≠ .reset b)
    (hstream : isStreamOperation i = false) (h : decode r = .ok ops) : i ∈ ops ↔ i ∈ controlOperations r := by
  cases hrst : Word.rst r.w
  · have hres : Word.reserved r.w = false := by
      by_contra hres
      rw [decode_of_reserved (by simpa using hres)] at h
      cases h
    have hno : i ∉ streamOperations r := fun hi => by
      simp [isStreamOperation_of_mem_streamOperations hi] at hstream
    rw [decode_eq_operations r hres, hrst] at h
    injection h with h
    simp [← h, hno]
  · simp [decode_ok_of_reset hrst h, hreset]

/-- A configuration write that a record selects is the one that its lines name. -/
theorem mem_decode_configWrite {r : CycleRecord} {ops : List Instr} {i : Instr} (hi : isConfigWrite i = true)
    (h : decode r = .ok ops) : i ∈ ops ↔ Word.cfgWe r.w = true ∧ i = cfgOperation r := by
  have hreset : ∀ b, i ≠ .reset b := by rintro b rfl; cases hi
  have hstream : isStreamOperation i = false := Bool.eq_false_iff.2 fun hs => by
    simp [isConfigWrite_of_isStreamOperation hs] at hi
  rw [mem_decode_iff hreset hstream h, mem_controlOperations]
  constructor
  · rintro (h | ⟨-, rfl⟩ | ⟨-, rfl⟩)
    · exact h
    · cases hi
    · cases hi
  · exact .inl

/-- The write enable and the field code select the configuration write. -/
theorem cfgOperation_mem_decode {r : CycleRecord} {ops : List Instr} (hwe : Word.cfgWe r.w = true) (h : decode r = .ok ops) :
    cfgOperation r ∈ ops :=
  (mem_decode_configWrite (isConfigWrite_cfgOperation r) h).2 ⟨hwe, rfl⟩

theorem mem_decode_coefWrite {r : CycleRecord} {ops : List Instr} {addr data : Nat} (h : decode r = .ok ops)
    (hi : .coefWrite addr data ∈ ops) : Word.coefWe r.w = true := by
  obtain ⟨-, hc⟩ | ⟨hwe, -⟩ | ⟨-, hc⟩ := mem_controlOperations.1 ((mem_decode_iff (by nofun) rfl h).1 hi)
  · cases isConfigWrite_of_eq_cfgOperation hc
  · exact hwe
  · cases hc

theorem mem_decode_statusRead {r : CycleRecord} {ops : List Instr} (h : decode r = .ok ops) :
    .statusRead ∈ ops ↔ Word.stsRd r.w = true := by
  rw [mem_decode_iff (by nofun) rfl h, mem_controlOperations]
  constructor
  · rintro (⟨-, hc⟩ | ⟨-, hc⟩ | ⟨hrd, -⟩)
    · cases isConfigWrite_of_eq_cfgOperation hc
    · cases hc
    · exact hrd
  · exact fun hrd => .inr (.inr ⟨hrd, rfl⟩)

/-! A configuration write, check by check (R290). -/

section Writes
variable {s : State} {field : CfgField} {stage : BitVec 2} {v : Nat}

theorem writeCfg_of_noStage (hf : field ≠ .firEnable) (hi : s.par.numStages ≤ stage.toNat) :
    writeCfg field stage v s = s.raise (.configStageOutOfRange stage.toNat) := by
  simp [writeCfg, cfgFault, hf, hi]

/-- fir_enable is the field of no stage, so only the others can name a stage that is not there (R121). -/
theorem stageCheck_passes (hi : field = .firEnable ∨ stage.toNat < s.par.numStages) :
    ¬ (field ≠ .firEnable ∧ s.par.numStages ≤ stage.toNat) :=
  not_and_or.2 (hi.imp not_not.2 Nat.not_le.2)

theorem writeCfg_of_misfit (hi : field = .firEnable ∨ stage.toNat < s.par.numStages) (hv : cfgBound s.par field ≤ v) :
    writeCfg field stage v s = s.raise (.configValueOutOfRange field v) := by
  simp [writeCfg, cfgFault, stageCheck_passes hi, hv]

/-- A legal write outside a reset cycle raises its hazard. -/
theorem writeCfg_of_hazard {k : FaultKind} (hi : field = .firEnable ∨ stage.toNat < s.par.numStages)
    (hv : CfgFits s.par field v) (hr : s.inReset = false) (hk : cfgHazard field stage.toNat s = some k) :
    writeCfg field stage v s = s.raise k := by
  simp [writeCfg, cfgFault, stageCheck_passes hi, Nat.not_le.2 hv, hr, hk]

/-- A legal write in a reset cycle or without a hazard stores its value. -/
theorem writeCfg_of_noHazard (hi : field = .firEnable ∨ stage.toNat < s.par.numStages) (hv : CfgFits s.par field v)
    (h : s.inReset = true ∨ cfgHazard field stage.toNat s = none) :
    writeCfg field stage v s = s.write (storeCfg field stage.toNat v) := by
  rw [writeCfg, (cfgFault_eq_none_iff ..).2 ⟨hi, hv, h⟩]

/-- The hazard of a structural field after the first take or in the cycle of a take (R293). -/
theorem cfgHazard_of_inFlight (i : Nat) (hf : field ≠ .trunc) (h : ¬ (s.fir.fresh = true ∧ s.doTake = false)) :
    cfgHazard field i s = some (.structuralWriteInFlight field (if field = .firEnable then none else some i)) := by
  have structural : isStructural field = true := bne_iff_ne.2 hf
  have inFlight : ¬ (s.fir.fresh && !s.doTake) = true := by simpa using h
  rw [cfgHazard, if_pos structural, if_neg inFlight]

/-- The hazard of macc_trunc at an active stage in a cycle that is not idle (R294). -/
theorem cfgHazard_of_activeTrunc {i : Nat} (ha : stageActive s.fir i = true) (hi : ¬ s.idle = true) :
    cfgHazard .trunc i s = some (.truncWriteInFlight i) := by
  simp [cfgHazard, isStructural, ha, hi]

/-- The rule that the writes of the four structural fields of a stage share, in the order of their checks. -/
theorem exec_structuralWrite {i : Instr} (hexec : exec i s = .next (writeCfg field stage v s)) (hf : field ≠ .firEnable)
    (ht : field ≠ .trunc) :
    (s.par.numStages ≤ stage.toNat → exec i s = .next (s.raise (.configStageOutOfRange stage.toNat)))
      ∧ (stage.toNat < s.par.numStages →
          (cfgBound s.par field ≤ v → exec i s = .next (s.raise (.configValueOutOfRange field v)))
            ∧ (v < cfgBound s.par field →
                (s.inReset = false → ¬ (s.fir.fresh = true ∧ s.doTake = false) →
                    exec i s = .next (s.raise (.structuralWriteInFlight field (some stage.toNat))))
                  ∧ ((s.inReset = true ∨ (s.fir.fresh = true ∧ s.doTake = false)) →
                      exec i s = .next (s.write (storeCfg field stage.toNat v))))) := by
  rw [hexec]
  refine ⟨fun hi => ?_, fun hi => ⟨fun hv => ?_, fun hv => ⟨fun hr hn => ?_, fun h => ?_⟩⟩⟩
  · rw [writeCfg_of_noStage hf hi]
  · rw [writeCfg_of_misfit (.inr hi) hv]
  · rw [writeCfg_of_hazard (.inr hi) hv hr (cfgHazard_of_inFlight stage.toNat ht hn), if_neg hf]
  · rw [writeCfg_of_noHazard (.inr hi) hv (h.imp id (cfgHazard_structural field _ s ht).2)]

end Writes

/-! Activity, idleness and the hazard of a coefficient write (R294, R48, R298). -/

theorem stageActive_iff {f : Fir} {i : Nat} :
    stageActive f i = true ↔ f.firEnable = true ∧ (cfgOf f i).bypass ≠ some true := by
  simp [stageActive]

theorem idle_iff {s : State} :
    s.idle = true ↔ s.fir.pending = [] ∧ (∀ st ∈ s.fir.st, st.phase = 0) ∧ s.doTake = false := by
  simp [State.idle, pathEmpty, and_assoc]

/-- The read range, without the detour over the shape: a stage whose range is not known reads every cell. -/
theorem inReadRange_iff {p : Params} {f : Fir} {i a : Nat} :
    inReadRange p f i a = true ↔
      ∀ d u o, (cfgOf f i).dec = some d → (cfgOf f i).opsm1 = some u → (cfgOf f i).odd = some o →
        p.coefBase i ≤ a ∧ a < p.coefBase i + rowCount u o * d := by
  unfold inReadRange
  cases hd : (cfgOf f i).dec with
  | none => simp [shapeOf_of_dec_unwritten hd]
  | some d =>
    cases hu : (cfgOf f i).opsm1 with
    | none => simp [shapeOf_of_opsm1_unwritten hd hu]
    | some u =>
      cases ho : (cfgOf f i).odd with
      | none => simp [shapeOf_of_odd_unwritten hd hu ho]
      | some o =>
        rw [shapeOf_of_written hd hu ho]
        refine decide_eq_true_iff.trans ?_
        simp [Shape.cells]

theorem coefHazard_iff {a : Nat} {s : State} :
    coefHazard a s = true ↔
      (∃ i, i < s.par.numStages ∧ stageActive s.fir i = true ∧ inReadRange s.par s.fir i a = true) ∧ ¬ s.idle = true := by
  simp [coefHazard, and_comm]

/-- With reset deasserted a coefficient write under a hazard raises CoefWriteInFlight and stores nothing. -/
theorem exec_coefWrite_of_hazard {s : State} (addr data : Nat) (hr : s.inReset = false)
    (h : coefHazard (coefAddress s.par addr) s = true) :
    exec (.coefWrite addr data) s = .next (s.raise (.coefWriteInFlight (coefAddress s.par addr))) := by
  simp [exec, execCoefWrite, hr, h]

/-! Who writes the configuration and the coefficient memory (R305). -/

/-- The FIR block states f and g hold the same configuration. -/
structure SameConfig (f g : Fir) : Prop where
  cfg : g.cfg = f.cfg
  firEnable : g.firEnable = f.firEnable

theorem SameConfig.refl (f : Fir) : SameConfig f f := ⟨rfl, rfl⟩

theorem SameConfig.trans {f g h : Fir} (h₁ : SameConfig f g) (h₂ : SameConfig g h) : SameConfig f h :=
  ⟨h₂.cfg.trans h₁.cfg, h₂.firEnable.trans h₁.firEnable⟩

/-- The FIR block states f and g hold the same configuration and the same coefficient memory. -/
structure SameControl (f g : Fir) : Prop extends SameConfig f g where
  mem : g.mem = f.mem

theorem SameControl.refl (f : Fir) : SameControl f f := ⟨.refl f, rfl⟩

theorem SameControl.trans {f g h : Fir} (h₁ : SameControl f g) (h₂ : SameControl g h) : SameControl f h :=
  ⟨h₁.toSameConfig.trans h₂.toSameConfig, h₂.mem.trans h₁.mem⟩

theorem SameControl.ite {c : Prop} [Decidable c] {f : Fir} {t u : State} (ht : SameControl f t.nxt)
    (hu : SameControl f u.nxt) : SameControl f (if c then t else u).nxt := by
  split
  · exact ht
  · exact hu

/-- The operations of a take's path write the stages of σ' only. -/
theorem SameControl.ofPathOnly {s t : State} (h : PathOnly s t) : SameControl s.nxt t.nxt :=
  ⟨⟨by rw [h.rest], by rw [h.rest]⟩, by rw [h.rest]⟩

theorem takeSample_sameControl (olast : Bool) (s : State) : SameControl s.nxt (takeSample olast s).nxt := by
  obtain ⟨-, h⟩ | ⟨x, -, t, -, -, hpath, -, h⟩ := takeSample_cases olast s <;> rw [h]
  · exact .refl _
  · have head : SameControl s.nxt (takeHead x s).nxt := ⟨⟨rfl, rfl⟩, rfl⟩
    have collect : SameControl t.nxt (collectOutputs t).nxt := ⟨⟨rfl, rfl⟩, rfl⟩
    exact (head.trans (.ofPathOnly hpath)).trans collect

/-- An operation that is no write of the control plane writes neither the configuration nor the memory. -/
theorem exec_sameControl {i : Instr} {s t : State} (hcfg : isConfigWrite i = false) (hcoef : ∀ a d, i ≠ .coefWrite a d)
    (h : exec i s = .next t) : SameControl s.nxt t.nxt := by
  cases i <;> (injection h with h; subst h)
  case cfgDecimation | cfgOpsM1 | cfgOddOps | cfgMaccTrunc | cfgBypass | cfgFirEnable | cfgReserved => cases hcfg
  case coefWrite a d => exact absurd rfl (hcoef a d)
  case reset | sinkXfer | sinkStall | srcXfer | srcStall => exact ⟨⟨rfl, rfl⟩, rfl⟩
  case pathTake olast => exact .ite (takeSample_sameControl olast s) (.refl _)
  case srcOffer => exact .ite (.refl _) ⟨⟨rfl, rfl⟩, rfl⟩
  case statusRead | cegFastEdge | cegCommonEdge => exact .refl _
  case disabledPass => exact .ofPathOnly (passDisabled_pathOnly s)
  case stageBypass i => exact .ofPathOnly (bypassStage_pathOnly i s)
  case stageConsume i olast => exact .ofPathOnly (consumeSample_pathOnly i olast s)
  case firOutput i olast => exact .ofPathOnly (computeOutput_pathOnly i olast _ s)

/-- A coefficient write leaves the configuration alone. -/
theorem exec_coefWrite_sameConfig {addr data : Nat} {s t : State} (h : exec (.coefWrite addr data) s = .next t) :
    SameConfig s.nxt t.nxt := by
  injection h with h
  subst h
  split <;> exact ⟨rfl, rfl⟩

/-- Only a configuration write changes the configuration. -/
theorem exec_sameConfig {i : Instr} {s t : State} (hcfg : isConfigWrite i = false) (h : exec i s = .next t) :
    SameConfig s.nxt t.nxt := by
  by_cases hcoef : ∀ a d, i ≠ .coefWrite a d
  · exact (exec_sameControl hcfg hcoef h).toSameConfig
  · push Not at hcoef
    obtain ⟨a, d, rfl⟩ := hcoef
    exact exec_coefWrite_sameConfig h

theorem writeCfg_nxt_mem (field : CfgField) (stage : BitVec 2) (v : Nat) (s : State) :
    (writeCfg field stage v s).nxt.mem = s.nxt.mem := by
  obtain ⟨k, -, h⟩ | ⟨-, h⟩ := writeCfg_cases field stage v s <;> rw [h]
  · rfl
  · exact storeCfg_mem field stage.toNat v s.nxt

/-- Only a coefficient write changes the coefficient memory. -/
theorem exec_mem {i : Instr} {s t : State} (hcoef : ∀ a d, i ≠ .coefWrite a d) (h : exec i s = .next t) :
    t.nxt.mem = s.nxt.mem := by
  by_cases hcfg : isConfigWrite i = false
  · exact (exec_sameControl hcfg hcoef h).mem
  · cases i <;> (injection h with h; subst h)
    case cfgDecimation | cfgOpsM1 | cfgOddOps | cfgMaccTrunc | cfgBypass | cfgFirEnable => exact writeCfg_nxt_mem ..
    case cfgReserved => rfl
    all_goals exact absurd rfl hcfg

theorem runOps_sameConfig {ops : List Instr} {s t : State} (hops : ∀ i ∈ ops, isConfigWrite i = false)
    (h : runOps ops s = .next t) : SameConfig s.nxt t.nxt :=
  runOps_induct (R := fun s t => SameConfig s.nxt t.nxt) (fun _ => .refl _) .trans
    (fun i hi _ _ => exec_sameConfig (hops i hi)) h

theorem runOps_mem {ops : List Instr} {s t : State} (hops : ∀ a d, .coefWrite a d ∉ ops) (h : runOps ops s = .next t) :
    t.nxt.mem = s.nxt.mem :=
  runOps_induct (R := fun s t => t.nxt.mem = s.nxt.mem) (fun _ => rfl) (fun h₁ h₂ => h₂.trans h₁)
    (fun _ hi _ _ => exec_mem fun a d hc => hops a d (hc ▸ hi)) h

/-- σ' of an opened cycle holds the configuration and the memory of σ. -/
theorem openCycle_sameControl (s : State) (r : CycleRecord) (rest : List Record) :
    SameControl s.fir (openCycle s r rest).nxt := by
  rw [openCycle_nxt]
  split
  · exact .refl _
  · exact ⟨⟨rfl, rfl⟩, rfl⟩

/-- What a step with a cycle's record loads: σ with faults recorded, or what the selected operations make of the opened cycle. -/
theorem step_cycle_fir {s t : State} {r : CycleRecord} {rest : List Record} (hr : s.records = .cycle r :: rest)
    (h : step s = .next t) :
    (∃ fs, t.fir = withFaults s.fir fs)
      ∨ ∃ ops u, decode (completeRecord s r) = .ok ops ∧ runOps ops (openCycle s r rest) = .next u ∧ t.fir = u.nxt := by
  obtain ⟨hw, -⟩ := step_next h
  rw [step_of_cycle hw hr] at h
  obtain ⟨-, ops, hops, ⟨-, -, rfl⟩ | ⟨-, u, hu, rfl⟩⟩ := runCycle_next h
  · exact .inl ⟨_, registered_raise _ (openCycle_raised s r rest)⟩
  · obtain ⟨-, hloaded⟩ | ⟨-, hloaded⟩ := registered_cases u
    · exact .inr ⟨ops, u, hops, hu, hloaded⟩
    · exact .inl ⟨u.raised, by rw [latch_fir, hloaded, (runOps_keepsReset hu).fir]; rfl⟩

theorem step_sameConfig {s t : State} {r : CycleRecord} {rest : List Record} (hr : s.records = .cycle r :: rest)
    (hwe : Word.cfgWe r.w = false) (h : step s = .next t) : SameConfig s.fir t.fir := by
  obtain ⟨fs, hfir⟩ | ⟨ops, u, hops, hu, hfir⟩ := step_cycle_fir hr h <;> rw [hfir]
  · exact ⟨rfl, rfl⟩
  · have none_selected : ∀ i ∈ ops, isConfigWrite i = false := fun i hi => by
      by_contra hc
      obtain ⟨hsel, -⟩ := (mem_decode_configWrite (by simpa using hc) hops).1 hi
      simp [completeRecord, hwe] at hsel
    exact (openCycle_sameControl s r rest).toSameConfig.trans (runOps_sameConfig none_selected hu)

theorem step_mem {s t : State} {r : CycleRecord} {rest : List Record} (hr : s.records = .cycle r :: rest)
    (hwe : Word.coefWe r.w = false) (h : step s = .next t) : t.fir.mem = s.fir.mem := by
  obtain ⟨fs, hfir⟩ | ⟨ops, u, hops, hu, hfir⟩ := step_cycle_fir hr h <;> rw [hfir]
  · rfl
  · have none_selected : ∀ a d, .coefWrite a d ∉ ops := fun a d hi => by
      have hsel := mem_decode_coefWrite hops hi
      simp [completeRecord, hwe] at hsel
    exact (runOps_mem none_selected hu).trans (openCycle_sameControl s r rest).mem

/-! The configuration write of a running cycle (R250, R293). -/

/-- A running cycle with a configuration write begins with it, and no other operation of the cycle is one (R115). -/
theorem runningOperations_of_cfgWe (s : State) {r : CycleRecord} (hwe : Word.cfgWe r.w = true) :
    ∃ ops, runningOperations s r = cfgOperation r :: ops ∧ ∀ i ∈ ops, isConfigWrite i = false := by
  refine ⟨(if Word.coefWe r.w then [.coefWrite r.coefAddr r.coefData] else [])
    ++ (if Word.stsRd r.w then [.statusRead] else []) ++ streamOperations (completeRecord s r), ?_, fun i hi => ?_⟩
  · simp [runningOperations, controlOperations, hwe]
  · simp only [List.mem_append, List.mem_ite_nil_right, List.mem_singleton] at hi
    obtain (⟨-, rfl⟩ | ⟨-, rfl⟩) | hi := hi
    · rfl
    · rfl
    · exact isConfigWrite_of_isStreamOperation (isStreamOperation_of_mem_streamOperations hi)

theorem exec_cfgOperation_of_field {r : CycleRecord} {field : CfgField} (s : State)
    (h : fieldOfCode (Word.cfgField r.w) = some field) :
    exec (cfgOperation r) s = .next (writeCfg field (Word.cfgStage r.w) r.cfgValue s) := by
  rw [exec_cfgOperation, h]

/-- A take happens in an opened cycle with reset deasserted: asked for, a sample buffered, room in the queue. -/
theorem openCycle_doTake {s : State} {r : CycleRecord} {rest : List Record} (hrst : Word.rst r.w = false) :
    (openCycle s r rest).doTake = true ↔
      Word.take r.w = true ∧ s.fir.inbuf ≠ [] ∧ s.fir.pending.length < s.par.pathCap := by
  simp [State.doTake, completeRecord, hrst, takeEnabled, Nat.one_le_iff_ne_zero]

/-- The configuration after a store depends on the configuration before it only. -/
theorem storeCfg_sameConfig (field : CfgField) (i v : Nat) {f g : Fir} (h : SameConfig f g) :
    SameConfig (storeCfg field i v f) (storeCfg field i v g) := by
  by_cases hf : field = .firEnable
  · subst hf
    exact ⟨h.cfg, rfl⟩
  · rw [storeCfg_stage_field field i v f hf, storeCfg_stage_field field i v g hf]
    refine ⟨?_, h.firEnable⟩
    simp only [cfgOf, h.cfg]

end Sys2Proof.Proofs
end

section
/-! PROOFS. The statements about the writes and the status read of the control plane (spec/45_control_plane.md). -/

namespace Sys2Proof.Proofs

open Sys2Proof.Machine Sys2Proof.Safety

/-- Settles O48: the four rows are the shared rule of a structural field of a stage, each at its own field. -/
theorem structuralFieldWriteRule : Obligations.StructuralFieldWriteRule := by
  unfold Obligations.StructuralFieldWriteRule
  refine ⟨fun r ops h hwe => ?_, fun s stage v c hc => ?_⟩
  · have selected := cfgOperation_mem_decode hwe h
    refine ⟨fun hcode => ?_, fun hcode => ?_, fun hcode => ?_, fun hcode => ?_⟩ <;>
      simpa [cfgOperation, hcode] using selected
  · simp only [List.mem_cons, List.not_mem_nil, or_false] at hc
    obtain rfl | rfl | rfl | rfl := hc
    · exact exec_structuralWrite (field := .dec) rfl (by decide) (by decide)
    · exact exec_structuralWrite (field := .opsm1) rfl (by decide) (by decide)
    · exact exec_structuralWrite (field := .odd) rfl (by decide) (by decide)
    · exact exec_structuralWrite (field := .bypass) rfl (by decide) (by decide)

/-- Settles O49: the stage code takes no part in the checks, and the hazard is that of a structural field. -/
theorem firEnableWriteRule : Obligations.FirEnableWriteRule := by
  unfold Obligations.FirEnableWriteRule
  refine ⟨fun r ops h hwe hcode => ?_, fun s stage v => ⟨fun hv => ?_, fun hv hr hn => ?_, fun hv h => ?_⟩⟩
  · simpa [cfgOperation, hcode] using cfgOperation_mem_decode hwe h
  · exact congrArg Host.Outcome.next (writeCfg_of_misfit (.inl rfl) hv)
  · exact ⟨none, congrArg Host.Outcome.next
      (writeCfg_of_hazard (.inl rfl) hv hr (cfgHazard_of_inFlight stage.toNat (by decide) hn))⟩
  · exact congrArg Host.Outcome.next
      (writeCfg_of_noHazard (.inl rfl) hv (h.imp id (cfgHazard_structural .firEnable _ s (by decide)).2))

/-- Settles O50: the checks of R290 with the hazard of an active stage in a cycle that is not idle. -/
theorem maccTruncWriteRule : Obligations.MaccTruncWriteRule := by
  unfold Obligations.MaccTruncWriteRule
  refine ⟨fun r ops h hwe hcode => ?_, fun s stage v => ?_⟩
  · simpa [cfgOperation, hcode] using cfgOperation_mem_decode hwe h
  · intro faultsWith active idle
    refine ⟨fun hi => ?_, fun hi => ⟨fun hv => ?_, fun hv => ⟨fun hr ha hn => ?_, fun h => ?_⟩⟩⟩
    · exact congrArg Host.Outcome.next (writeCfg_of_noStage (by decide) hi)
    · exact congrArg Host.Outcome.next (writeCfg_of_misfit (.inr hi) hv)
    · exact congrArg Host.Outcome.next
        (writeCfg_of_hazard (.inr hi) hv hr (cfgHazard_of_activeTrunc (stageActive_iff.2 ha) (mt idle_iff.1 hn)))
    · refine congrArg Host.Outcome.next (writeCfg_of_noHazard (.inr hi) hv (h.imp id fun h => ?_))
      exact (cfgHazard_trunc _ s).2 (h.imp (fun ha => Bool.eq_false_iff.2 (mt stageActive_iff.1 ha)) idle_iff.2)

/-- Settles O51: the write is the first operation of the cycle. In flight its fault stays raised to the end, where the cycle loads
σ with its faults; else its store stays, since no other operation of the cycle writes the configuration. -/
theorem structuralWriteInFlightFaults : Obligations.StructuralWriteInFlightFaults := by
  unfold Obligations.StructuralWriteInFlightFaults
  intro s r rest field hw hf hr hres hrst hu hwe hfield ht hi hv takes
  obtain ⟨u, hops, hstep⟩ := step_running hw hf hr hres hrst hu
  obtain ⟨ops, hrun, hother⟩ := runningOperations_of_cfgWe s hwe
  rw [hrun, runOps_cons _ _ (exec_cfgOperation_of_field _ hfield)] at hops
  have hreset : (openCycle s r rest).inReset = false := by simpa [State.inReset, completeRecord] using hrst
  have fresh_iff : ((openCycle s r rest).fir.fresh = true ∧ (openCycle s r rest).doTake = false)
      ↔ (s.fir.fresh = true ∧ ¬ takes) :=
    and_congr_right' (Bool.eq_false_iff.trans (not_congr (openCycle_doTake hrst)))
  refine ⟨u.latch, hstep, fun hn => ?_, fun hfresh hn ht' => ?_⟩
  · rw [writeCfg_of_hazard (s := openCycle s r rest) hi hv hreset (cfgHazard_of_inFlight _ ht (mt fresh_iff.1 hn))] at hops
    have hmem := runOps_raised_subset hops (List.mem_append_right _ (List.mem_singleton.2 rfl))
    have hloaded : u.latch.fir = withFaults s.fir u.raised := by
      rw [latch_fir_of_raised hmem, (runOps_keepsReset hops).fir]
      rfl
    rw [hloaded]
    exact ⟨rfl, _, List.mem_append_right _ hmem, fun hne => if_neg hne⟩
  · have hnone := (cfgHazard_structural field (Word.cfgStage r.w).toNat _ ht).2 (fresh_iff.2 ⟨hfresh, hn⟩)
    rw [writeCfg_of_noHazard (s := openCycle s r rest) hi hv (.inr hnone)] at hops
    rw [latch_fir, registered_of_noFault ht']
    have stored := (storeCfg_sameConfig field (Word.cfgStage r.w).toNat r.cfgValue
      (openCycle_sameControl s r rest).toSameConfig).trans (runOps_sameConfig hother hops)
    exact ⟨stored.cfg, stored.firEnable⟩

/-- Settles O52: of the operations that a cycle can select, only the control plane's two writes reach the configuration or the
memory; a faulting cycle loads σ's own, and a fast cycle touches neither. -/
theorem onlyControlPlaneWritesConfiguration : Obligations.OnlyControlPlaneWritesConfiguration := by
  unfold Obligations.OnlyControlPlaneWritesConfiguration
  refine fun s t h => ⟨fun r rest hr => ⟨fun hwe => ?_, fun hwe a => ?_⟩, fun e rest hr => ?_⟩
  · have same := step_sameConfig hr hwe h
    exact ⟨same.cfg, same.firEnable⟩
  · rw [step_mem hr hwe h]
  · obtain ⟨-, ⟨r, rest', hr', -⟩ | ⟨e', rest', -, -, rfl⟩⟩ := step_next h
    · rw [hr] at hr'
      cases hr'
    · exact ⟨rfl, rfl, rfl⟩

/-- Settles O55: the model's hazard is the statement's, range and idleness spelled out; under it the write faults, else it
stores. -/
theorem coefficientWriteHazard : Obligations.CoefficientWriteHazard := by
  unfold Obligations.CoefficientWriteHazard
  intro s addr data hr a reads hazard
  have hazard_iff : coefHazard a s = true ↔ hazard := by
    rw [coefHazard_iff, idle_iff]
    simp only [stageActive_iff, inReadRange_iff, and_assoc]
    rfl
  refine ⟨fun h => ?_, fun h => ?_⟩
  · exact exec_coefWrite_of_hazard addr data hr (hazard_iff.2 h)
  · exact exec_coefWrite_of_noHazard addr data (.inr (Bool.eq_false_iff.2 (mt hazard_iff.1 h)))

/-- Settles O56: the line sts_rd alone selects the read, and a reset cycle masks the flag. -/
theorem statusReadSamplesFlag : Obligations.StatusReadSamplesFlag := by
  unfold Obligations.StatusReadSamplesFlag
  refine ⟨fun r ops h => mem_decode_statusRead h, fun s => ⟨fun hr => ?_, fun hr => ?_⟩⟩ <;>
    simp [exec, execStatusRead, State.drive, hr]

end Sys2Proof.Proofs
end

section
/-! SUPPORT. The reset cycle in closed form (spec/70_reset_and_hazards.md R361): the cycle in progress after RESET, the faults that
remain without the hazard checks, and what the writes of the control plane change and leave. -/

namespace Sys2Proof.Proofs

open Sys2Proof.Machine Sys2Proof.Safety

/-! The writes of the control plane on σ'. -/

/-- The FIR block states f and g differ at most in the configuration and the coefficient memory. -/
structure SameStream (f g : Fir) : Prop where
  unreset : g.unreset = f.unreset
  faults : g.faults = f.faults
  inbuf : g.inbuf = f.inbuf
  prevReady : g.prevReady = f.prevReady
  ovf : g.ovf = f.ovf
  st : g.st = f.st
  pending : g.pending = f.pending
  offered : g.offered = f.offered
  fresh : g.fresh = f.fresh

theorem SameStream.refl (f : Fir) : SameStream f f := ⟨rfl, rfl, rfl, rfl, rfl, rfl, rfl, rfl, rfl⟩

theorem SameStream.trans {f g h : Fir} (h₁ : SameStream f g) (h₂ : SameStream g h) : SameStream f h :=
  ⟨h₂.unreset.trans h₁.unreset, h₂.faults.trans h₁.faults, h₂.inbuf.trans h₁.inbuf, h₂.prevReady.trans h₁.prevReady,
    h₂.ovf.trans h₁.ovf, h₂.st.trans h₁.st, h₂.pending.trans h₁.pending, h₂.offered.trans h₁.offered,
    h₂.fresh.trans h₁.fresh⟩

theorem cfgStore_sameStream (r : CycleRecord) (f : Fir) : SameStream f (cfgStore r f) := by
  unfold cfgStore
  split
  · exact .refl f
  · exact ⟨storeCfg_unreset .., storeCfg_faults .., storeCfg_inbuf .., storeCfg_prevReady .., storeCfg_ovf ..,
      storeCfg_st .., storeCfg_pending .., storeCfg_offered .., storeCfg_fresh ..⟩

theorem cfgStore_mem (r : CycleRecord) (f : Fir) : (cfgStore r f).mem = f.mem := by
  unfold cfgStore
  split
  · rfl
  · exact storeCfg_mem ..

theorem coefStore_sameStream (p : Params) (r : CycleRecord) (f : Fir) : SameStream f (coefStore p r f) :=
  ⟨rfl, rfl, rfl, rfl, rfl, rfl, rfl, rfl, rfl⟩

/-- The writes of a cycle reach the configuration and the memory only. -/
theorem refWrites_sameStream (p : Params) (r : CycleRecord) (f : Fir) : SameStream f (refWrites p r f) := by
  rw [refWrites_eq]
  refine SameStream.trans (g := (if Word.cfgWe r.w then cfgStore r else id) f) ?_ ?_
  · split
    · exact cfgStore_sameStream r f
    · exact .refl f
  · cases Word.coefWe r.w
    · exact .refl _
    · exact coefStore_sameStream p r _

/-- The coefficient write of a cycle does not see its configuration write. -/
theorem refWrites_mem (p : Params) (r : CycleRecord) (f : Fir) :
    (refWrites p r f).mem =
      if Word.coefWe r.w then memWrite f.mem (coefAddress p r.coefAddr) (coefValue p r.coefData) else f.mem := by
  have kept : ((if Word.cfgWe r.w then cfgStore r else id) f).mem = f.mem := by
    split
    · exact cfgStore_mem r f
    · rfl
  rw [refWrites_eq]
  cases Word.coefWe r.w
  · exact kept
  · exact congrArg (memWrite · (coefAddress p r.coefAddr) (coefValue p r.coefData)) kept

/-- The configuration after the writes of a cycle is that of its configuration write alone. -/
theorem refWrites_sameConfig (p : Params) (r : CycleRecord) (f : Fir) :
    SameConfig ((if Word.cfgWe r.w then cfgStore r else id) f) (refWrites p r f) := by
  rw [refWrites_eq]
  cases Word.coefWe r.w
  · exact .refl _
  · exact ⟨rfl, rfl⟩

theorem refWrites_sameConfig_of_noWrite (p : Params) {r : CycleRecord} (f : Fir) (hwe : Word.cfgWe r.w = false) :
    SameConfig f (refWrites p r f) := by
  have same := refWrites_sameConfig p r f
  rwa [hwe] at same

theorem refWrites_sameConfig_of_field (p : Params) {r : CycleRecord} {field : CfgField} (f : Fir)
    (hwe : Word.cfgWe r.w = true) (hfield : fieldOfCode (Word.cfgField r.w) = some field) :
    SameConfig (storeCfg field (Word.cfgStage r.w).toNat r.cfgValue f) (refWrites p r f) := by
  have same := refWrites_sameConfig p r f
  rwa [hwe, if_pos rfl, cfgStore, hfield] at same

/-- RESET keeps the configuration. -/
theorem clearStream_sameConfig (p : Params) (f : Fir) : SameConfig f (clearStream p f) := ⟨rfl, rfl⟩

/-! A status read drives the port it samples to and nothing else. -/

section Status
variable (r : CycleRecord) (s : State)

@[simp] theorem afterStatus_fir : (afterStatus r s).fir = s.fir := by unfold afterStatus; split <;> rfl
@[simp] theorem afterStatus_nxt : (afterStatus r s).nxt = s.nxt := by unfold afterStatus; split <;> rfl
@[simp] theorem afterStatus_raised : (afterStatus r s).raised = s.raised := by unfold afterStatus; split <;> rfl

@[simp] theorem afterStatus_registered : (afterStatus r s).registered = s.registered := by simp [State.registered]

/-- In a reset cycle the flag is masked: a read samples 0 (R302). -/
theorem afterStatus_ports_of_reset (h : s.inReset = true) :
    (afterStatus r s).ports = if Word.stsRd r.w then { s.ports with status := some false } else s.ports := by
  unfold afterStatus
  split
  · simp [h]
  · rfl

end Status

/-! The writes of a cycle touch neither the context of the cycle nor its ports. -/

section Writes
variable (r : CycleRecord) (s : State)

@[simp] theorem afterWrites_fir : (afterWrites r s).fir = s.fir := by rw [afterWrites_eq]
@[simp] theorem afterWrites_ports : (afterWrites r s).ports = s.ports := by rw [afterWrites_eq]
@[simp] theorem afterWrites_inReset : (afterWrites r s).inReset = s.inReset := by rw [afterWrites_eq]; rfl

end Writes

/-! The faults of a reset cycle: of the writes' checks only the encoding checks of the configuration write remain. -/

theorem refCoefFault_of_reset (p : Params) (f : Fir) (takes : Bool) {r : CycleRecord} (hrst : Word.rst r.w = true) :
    refCoefFault p f takes r = none := by
  simp [refCoefFault, hrst]

theorem doTake_of_inReset {s : State} (h : s.inReset = true) : s.doTake = false := by
  unfold State.inReset at h
  simp [State.doTake, h]

/-- The fault of a reset cycle, if any. -/
def resetFault (p : Params) (f : Fir) (r : CycleRecord) : Option FaultKind :=
  if Word.cfgWe r.w then refCfgFault p f false r else none

theorem controlFaults_of_reset {s : State} {r : CycleRecord} (hrst : Word.rst r.w = true) (h : s.inReset = true) :
    controlFaults r s = (resetFault s.par s.fir r).toList := by
  unfold controlFaults resetFault
  rw [refCoefFault_of_reset _ _ _ hrst, doTake_of_inReset h]
  split <;> simp

/-! The reset cycle. -/

section ResetCycle
variable (s : State) (r : CycleRecord) (rest : List Record)

/-- The cycle in progress after its RESET. -/
def afterResetOperation : State :=
  ((openCycle s r rest).write (clearStream s.par)).drive fun d =>
    { d with sinkReady := some r.rready, srcValid := some false, src := none, ovf := some false }

theorem exec_reset_openCycle : exec (.reset r.rready) (openCycle s r rest) = .next (afterResetOperation s r rest) := rfl

@[simp] theorem afterResetOperation_par : (afterResetOperation s r rest).par = s.par := rfl
@[simp] theorem afterResetOperation_fir : (afterResetOperation s r rest).fir = s.fir := rfl
@[simp] theorem afterResetOperation_cycle : (afterResetOperation s r rest).cycle = s.cycle := rfl
@[simp] theorem afterResetOperation_raised : (afterResetOperation s r rest).raised = [] := rfl

variable {r}

theorem afterResetOperation_inReset (hrst : Word.rst r.w = true) : (afterResetOperation s r rest).inReset = true := by
  simpa [State.inReset, afterResetOperation, completeRecord] using hrst

theorem afterResetOperation_nxt (hrst : Word.rst r.w = true) :
    (afterResetOperation s r rest).nxt = clearStream s.par s.fir := by
  simp [afterResetOperation, hrst]

theorem afterResetOperation_ports (hrst : Word.rst r.w = true) :
    (afterResetOperation s r rest).ports = Ports.inReset r.rready := by
  simp [afterResetOperation, hrst, Ports.silent, Ports.inReset]

variable {s rest}

/-- A reset cycle is RESET, the writes, the status read, and the latch. -/
theorem step_of_reset (hw : s.par.WellFormed) (hf : NoFault s) (hr : s.records = .cycle r :: rest)
    (hres : Word.reserved r.w = false) (hrst : Word.rst r.w = true) :
    step s = .next (afterStatus r (afterWrites r (afterResetOperation s r rest))).latch := by
  rw [step_of_cycle hw hr, runCycle_of_reset rest hf hres hrst, runOps_cons _ _ (exec_reset_openCycle s r rest),
    runOps_controlOperations r _ (hrst.trans (afterResetOperation_inReset s rest hrst).symm)]
  rfl

/-- A reset cycle drives what RESET drives, with a fault or without; a status read in it samples 0. -/
theorem resetCycle_ports (hrst : Word.rst r.w = true) :
    (afterStatus r (afterWrites r (afterResetOperation s r rest))).latch.ports
      = ⟨some r.rready, some false, none, some false, none, if Word.stsRd r.w then some false else none⟩ := by
  have inReset : (afterWrites r (afterResetOperation s r rest)).inReset = true :=
    (afterWrites_inReset ..).trans (afterResetOperation_inReset s rest hrst)
  rw [latch_ports, afterStatus_ports_of_reset r _ inReset, afterWrites_ports, afterResetOperation_ports s rest hrst,
    Ports.inReset]
  split <;> split <;> rfl

theorem afterWrites_raised_of_reset (hrst : Word.rst r.w = true) :
    (afterWrites r (afterResetOperation s r rest)).raised
      = (resetFault s.par s.fir r).toList.map fun k => ⟨k, s.cycle⟩ := by
  simp [afterWrites_raised, controlFaults_of_reset hrst (afterResetOperation_inReset s rest hrst)]

/-- A reset cycle whose configuration write fails a check loads σ with that fault. -/
theorem resetCycle_fir_of_fault {k : FaultKind} (hrst : Word.rst r.w = true) (hk : resetFault s.par s.fir r = some k) :
    (afterStatus r (afterWrites r (afterResetOperation s r rest))).latch.fir = withFaults s.fir [⟨k, s.cycle⟩] := by
  have raised := afterWrites_raised_of_reset (s := s) (rest := rest) hrst
  rw [hk] at raised
  rw [latch_fir, afterStatus_registered, State.registered, raised]
  simp

/-- Any other reset cycle loads σ with the stream state cleared and the writes done. -/
theorem resetCycle_fir_of_noFault (hrst : Word.rst r.w = true) (hk : resetFault s.par s.fir r = none) :
    (afterStatus r (afterWrites r (afterResetOperation s r rest))).latch.fir
      = refWrites s.par r (clearStream s.par s.fir) := by
  have raised : (afterWrites r (afterResetOperation s r rest)).raised = [] := by
    rw [afterWrites_raised_of_reset hrst, hk]
    rfl
  have noFaults : controlFaults r (afterResetOperation s r rest) = [] := by
    rw [controlFaults_of_reset hrst (afterResetOperation_inReset s rest hrst)]
    exact congrArg Option.toList hk
  rw [latch_fir, afterStatus_registered, State.registered, if_pos raised, afterWrites_nxt r _ noFaults,
    afterResetOperation_nxt s rest hrst, afterResetOperation_par]

end ResetCycle

end Sys2Proof.Proofs
end

section
/-! PROOFS. The statement about the reset cycle with writes in it (spec/70_reset_and_hazards.md). -/

namespace Sys2Proof.Proofs

open Sys2Proof.Machine Sys2Proof.Safety

/-- Settles O15: a reset cycle latches σ with its one fault, or the cleared σ with the writes done, which leave every cleared
field. -/
theorem resetCycleRule : Obligations.ResetCycleRule := by
  unfold Obligations.ResetCycleRule
  intro s r rest hw hf hr hres hrst
  refine ⟨_, step_of_reset hw hf hr hres hrst, resetCycle_ports hrst, ?_⟩
  rw [← resetFault]
  cases hk : resetFault s.par s.fir r with
  | some k => exact resetCycle_fir_of_fault hrst hk
  | none =>
    dsimp only
    rw [resetCycle_fir_of_noFault hrst hk]
    have kept := refWrites_sameStream s.par r (clearStream s.par s.fir)
    have cleared := clearStream_sameConfig s.par s.fir
    refine ⟨kept.inbuf, kept.pending, kept.offered, kept.ovf, kept.prevReady, kept.st, kept.fresh, kept.unreset,
      kept.faults.trans hf, refWrites_mem .., fun hwe => ?_, fun field hwe hfield => ?_⟩
    · have same := cleared.trans (refWrites_sameConfig_of_noWrite s.par _ hwe)
      exact ⟨same.cfg, same.firEnable⟩
    · have same := (storeCfg_sameConfig field (Word.cfgStage r.w).toNat r.cfgValue cleared).trans
        (refWrites_sameConfig_of_field s.par _ hwe hfield)
      exact ⟨same.cfg, same.firEnable⟩

end Sys2Proof.Proofs
end

section
/-! SUPPORT. The encoder against the decoder (spec/30_encoding.md R110, R123): the fields of a configuration write's word, and the
operations of a record with reset deasserted or asserted. -/

namespace Sys2Proof.Proofs

open Sys2Proof.Machine Sys2Proof.Safety

/-! The lines of the word that the encoder writes for a configuration write. -/

theorem cfgWord_cfgField : ∀ (code : BitVec 3) (stage : BitVec 2), Word.cfgField (cfgWord code stage) = code := by decide

theorem cfgWord_cfgStage : ∀ (code : BitVec 3) (stage : BitVec 2), Word.cfgStage (cfgWord code stage) = stage := by decide

/-- Beside its two codes the word raises cfg_we and no other line. -/
theorem cfgWord_other_lines : ∀ (code : BitVec 3) (stage : BitVec 2),
    Word.reserved (cfgWord code stage) = false ∧ Word.rst (cfgWord code stage) = false
      ∧ Word.cfgWe (cfgWord code stage) = true ∧ Word.coefWe (cfgWord code stage) = false
      ∧ Word.stsRd (cfgWord code stage) = false ∧ Word.srcValid (cfgWord code stage) = false
      ∧ Word.take (cfgWord code stage) = false ∧ Word.sinkValid (cfgWord code stage) = false
      ∧ Word.offer (cfgWord code stage) = false := by decide

/-- The record of a configuration write selects the write that its field code names, and nothing else. -/
theorem decodeRecord_cfgRecord (code : BitVec 3) (stage : BitVec 2) (v : Nat) :
    decodeRecord (cfgRecord code stage v)
      = .ok [cfgOperation { CycleRecord.empty with w := cfgWord code stage, cfgValue := v }] := by
  obtain ⟨hres, hrst, hcfg, hcoef, hsts, hsrc, htake, hsink, hoffer⟩ := cfgWord_other_lines code stage
  rw [cfgRecord, decodeRecord, decode_eq_operations _ (by exact hres)]
  simp [controlOperations, streamOperations, hrst, hcfg, hcoef, hsts, hsrc, htake, hsink, hoffer]

/-- The record of a configuration write decodes to the write that the encoded code names, with the encoded stage and value. -/
theorem decodeRecord_cfgRecord_eq {code : BitVec 3} {stage : BitVec 2} {v : Nat} {i : Instr}
    (h : cfgOperation { CycleRecord.empty with w := cfgWord code stage, cfgValue := v } = i) :
    decodeRecord (cfgRecord code stage v) = .ok [i] := by
  rw [decodeRecord_cfgRecord, h]

/-- A well-formed CFG_RESERVED carries one of the two reserved codes (R125). -/
theorem reservedCode_of_wellFormed {p : Params} {code : BitVec 3} {stage : BitVec 2} {v : Nat}
    (h : (Instr.cfgReserved code stage v).WellFormed p) : code = 6 ∨ code = 7 := by
  simp only [Instr.WellFormed, Instr.failedCheck] at h
  split at h
  · assumption
  · cases h

/-- An operation with bits of its own is what its record decodes to. -/
theorem decodeRecord_encode {p : Params} {i : Instr} (hi : i.isInternal = false) (hw : i.WellFormed p) :
    decodeRecord (encode i) = .ok [i] := by
  cases i
  case reset | sinkXfer | sinkStall | srcXfer | srcStall | pathTake | srcOffer | coefWrite | statusRead =>
    simp [encode, decodeRecord, decode_eq_operations, CycleRecord.empty, CycleRecord.ofWord, controlOperations,
      streamOperations, Word.reserved, Word.rst, Word.cfgWe, Word.coefWe, Word.stsRd, Word.srcValid, Word.srcReady,
      Word.take, Word.sinkValid, Word.sinkReady, Word.offer]
  case cegFastEdge | cegCommonEdge => rfl
  case cfgReserved code stage v =>
    refine decodeRecord_cfgRecord_eq ?_
    obtain rfl | rfl := reservedCode_of_wellFormed hw <;> simp [cfgOperation, cfgWord_cfgField, cfgWord_cfgStage]
  case cfgDecimation | cfgOpsM1 | cfgOddOps | cfgMaccTrunc | cfgBypass | cfgFirEnable =>
    refine decodeRecord_cfgRecord_eq ?_
    simp [cfgOperation, cfgWord_cfgField, cfgWord_cfgStage]
  case disabledPass | stageBypass | stageConsume | firOutput => cases hi

/-- The record of an internal row is that of the take in which the path's state selects it (R123). -/
theorem decodeRecord_encode_of_internal {i : Instr} (hi : i.isInternal = true) :
    ∃ l, decodeRecord (encode i) = .ok [.pathTake l] := by
  have take (l : Bool) : decodeRecord (encode (.pathTake l)) = .ok [.pathTake l] :=
    decodeRecord_encode (p := Params.p0) rfl rfl
  cases i
  case disabledPass | stageBypass => exact ⟨false, take false⟩
  case stageConsume _ olast | firOutput _ olast => exact ⟨olast, take olast⟩
  all_goals cases hi

/-! The operations that a record selects. -/

/-- A record that decodes has bit 15 low (R124). -/
theorem reserved_of_decode_ok {r : CycleRecord} {ops : List Instr} (h : decode r = .ok ops) : Word.reserved r.w = false := by
  by_contra hres
  rw [decode_of_reserved (by simpa using hres)] at h
  cases h

/-- A record with reset deasserted that decodes selects the control plane's operations and then those of the stream. -/
theorem decode_ok_of_running {r : CycleRecord} {ops : List Instr} (hrst : Word.rst r.w = false) (h : decode r = .ok ops) :
    ops = controlOperations r ++ streamOperations r := by
  rw [decode_eq_operations r (reserved_of_decode_ok h), hrst] at h
  injection h with h
  exact h.symm

/-- Of the operations on the control plane's lines, the one on the configuration port is the only configuration write. -/
theorem filter_isConfigWrite_controlOperations (r : CycleRecord) :
    (controlOperations r).filter isConfigWrite = if Word.cfgWe r.w then [cfgOperation r] else [] := by
  have coef : isConfigWrite (.coefWrite r.coefAddr r.coefData) = false := rfl
  have sts : isConfigWrite .statusRead = false := rfl
  simp only [controlOperations, List.filter_append, apply_ite (List.filter isConfigWrite), List.filter_singleton,
    List.filter_nil, isConfigWrite_cfgOperation, coef, sts]
  simp

theorem filter_isConfigWrite_streamOperations (r : CycleRecord) : (streamOperations r).filter isConfigWrite = [] :=
  List.filter_eq_nil_iff.2 fun i hi => by
    simp [isConfigWrite_of_isStreamOperation (isStreamOperation_of_mem_streamOperations hi)]

/-- The configuration writes of a record are the one that its lines name, where cfg_we asks for it. -/
theorem filter_isConfigWrite_of_decode {r : CycleRecord} {ops : List Instr} (h : decode r = .ok ops) :
    ops.filter isConfigWrite = if Word.cfgWe r.w then [cfgOperation r] else [] := by
  cases hrst : Word.rst r.w
  · rw [decode_ok_of_running hrst h, List.filter_append, filter_isConfigWrite_controlOperations,
      filter_isConfigWrite_streamOperations, List.append_nil]
  · rw [decode_ok_of_reset hrst h, List.filter_cons_of_neg (by simp [isConfigWrite]),
      filter_isConfigWrite_controlOperations]

end Sys2Proof.Proofs
end

section
/-! PROOFS. The statements about the encoding of the operations (spec/30_encoding.md). -/

namespace Sys2Proof.Proofs

open Sys2Proof.Machine Sys2Proof.Safety

/-- Settles O2: a configuration write's word carries its two codes and cfg_we; every other operation has a word of its own, and an
internal row that of a take. -/
theorem encodeThenDecode : Obligations.EncodeThenDecode := by
  unfold Obligations.EncodeThenDecode
  exact fun p i hw => ⟨fun hi => decodeRecord_encode hi hw, decodeRecord_encode_of_internal⟩

/-- Settles O5: of the lines, only the configuration port's select a configuration write, and it selects one. -/
theorem oneConfigurationWritePerCycle : Obligations.OneConfigurationWritePerCycle := by
  unfold Obligations.OneConfigurationWritePerCycle
  intro r ops h
  rw [filter_isConfigWrite_of_decode h]
  cases Word.cfgWe r.w <;> rfl

/-- Settles O1: each word is closed, so the decoder computes its operations. -/
theorem specWordsDecode : Obligations.SpecWordsDecode := by
  unfold Obligations.SpecWordsDecode
  decide

/-- Settles O22: the stalled sample is on the lines again, where sink valid and ready select its transfer. -/
theorem sinkStallChangesNothing : Obligations.SinkStallChangesNothing := by
  unfold Obligations.SinkStallChangesNothing
  refine ⟨fun _ => rfl, fun stalled next ops hold hrst hready hdec => ?_⟩
  obtain ⟨hvalid, hre, him, hlast⟩ := hold hrst
  rw [decode_ok_of_running hrst hdec, ← hre, ← him, ← hlast]
  refine List.mem_append_right _ (mem_streamOperations.2 (.inr (.inr (.inl ⟨hvalid, ?_⟩))))
  rw [if_pos hready]

end Sys2Proof.Proofs
end

section
/-! SUPPORT. A take as one operation (spec/44_stream_controller.md R255, R256): when it is enabled, and what it does for each outcome
of PATH. -/

namespace Sys2Proof.Proofs

open Sys2Proof.Machine Sys2Proof.Safety

section Take
variable {s : State} {olast : Bool} {x : Sample} {q : List Sample}

theorem takeEnabled_iff {p : Params} {f : Fir} :
    takeEnabled p f = true ↔ f.inbuf ≠ [] ∧ f.pending.length < p.pathCap := by
  simp [takeEnabled, Nat.one_le_iff_ne_zero]

/-- An enabled take runs the path on the head of the buffer and collects what leaves it. -/
theorem exec_pathTake_of_enabled (hb : s.fir.inbuf = x :: q) (hroom : s.fir.pending.length < s.par.pathCap) :
    exec (.pathTake olast) s = .next (collectOutputs (runPath olast (takeHead x s))) := by
  have enabled : takeEnabled s.par s.fir = true := takeEnabled_iff.2 ⟨by simp [hb], hroom⟩
  simp [exec, execPathTake, enabled, takeSample, hb]

theorem exec_pathTake_of_not_enabled (h : ¬ takeEnabled s.par s.fir = true) : exec (.pathTake olast) s = .next s := by
  simp [exec, execPathTake, h]

/-- A take whose sample leaves the path as it entered it hands on that sample. -/
theorem exec_pathTake_of_runPath_eq (hb : s.fir.inbuf = x :: q) (hroom : s.fir.pending.length < s.par.pathCap)
    (h : runPath olast (takeHead x s) = takeHead x s) :
    exec (.pathTake olast) s = .next { s with
      nxt := { s.nxt with inbuf := s.nxt.inbuf.tail, fresh := false, pending := s.nxt.pending ++ [x] }, path := [] } := by
  rw [exec_pathTake_of_enabled hb hroom, h]
  rfl

/-- A take that raises no fault stores what PATH as one function gives. -/
theorem exec_pathTake_of_ok {out : Option Sample} {sts : List StageSt} (hb : s.fir.inbuf = x :: q)
    (hroom : s.fir.pending.length < s.par.pathCap) (hst : s.nxt.st = s.fir.st)
    (h : refPath s.par s.fir olast x = .ok (out, sts)) :
    exec (.pathTake olast) s = .next { s with
      nxt := { s.nxt with
        inbuf := s.nxt.inbuf.tail, fresh := false, pending := s.nxt.pending ++ out.toList, st := sts }
      path := [] } := by
  rw [exec_pathTake_of_enabled hb hroom, runPath_of_ok (s := takeHead x s) rfl hst h]
  rfl

/-- A take whose path faults raises that fault and hands on nothing. -/
theorem exec_pathTake_of_error {e : FaultKind} (hb : s.fir.inbuf = x :: q)
    (hroom : s.fir.pending.length < s.par.pathCap) (hst : s.nxt.st = s.fir.st)
    (h : refPath s.par s.fir olast x = .error e) :
    ∃ st, exec (.pathTake olast) s = .next { s with
      nxt := { s.nxt with inbuf := s.nxt.inbuf.tail, fresh := false, st := st }
      path := [], raised := s.raised ++ [⟨e, s.cycle⟩] } := by
  obtain ⟨st, ht⟩ := runPath_of_error (s := takeHead x s) rfl hst h
  refine ⟨st, ?_⟩
  rw [exec_pathTake_of_enabled hb hroom, ht]
  simp [collectOutputs, takeHead, State.raiseOnPath, State.raise, State.write, State.setPath]

end Take

/-- Where every stage is bypassed and none narrows, the path changes nothing. -/
theorem foldl_pathStage_of_bypassed {olast : Bool} {is : List Nat} {s : State} {v : Sample} (hp : s.path = [v])
    (h : ∀ i ∈ is, (cfgOf s.fir i).bypass = some true ∧ s.par.inWidth i ≤ s.par.outWidth i) :
    is.foldl (pathStage olast) s = s := by
  induction is with
  | nil => rfl
  | cons i is ih =>
    obtain ⟨⟨hb, hw⟩, his⟩ := List.forall_mem_cons.1 h
    rw [List.foldl_cons, pathStage_of_bypassed olast hp hb, bypassStage_of_fits hw, ih his]

/-! What a take does not read. -/

/-- The map φ changes nothing that a take reads, and commutes with what it writes. -/
structure UnreadByTake (φ : State → State) : Prop where
  par : ∀ s, (φ s).par = s.par
  fir : ∀ s, (φ s).fir = s.fir
  path : ∀ s, (φ s).path = s.path
  raiseOnPath : ∀ s k, (φ s).raiseOnPath k = φ (s.raiseOnPath k)
  setPath : ∀ s p, (φ s).setPath p = φ (s.setPath p)
  writeStage : ∀ s i st, (φ s).write (setStage i st) = φ (s.write (setStage i st))
  takeHead : ∀ x s, takeHead x (φ s) = φ (takeHead x s)
  collectOutputs : ∀ s, collectOutputs (φ s) = φ (collectOutputs s)

section Unread
variable {φ : State → State} (hφ : UnreadByTake φ)
include hφ

theorem passDisabled_unread (s : State) : passDisabled (φ s) = φ (passDisabled s) := by
  unfold passDisabled
  rw [hφ.par, hφ.raiseOnPath]
  split <;> rfl

theorem bypassStage_unread (i : Nat) (s : State) : bypassStage i (φ s) = φ (bypassStage i s) := by
  unfold bypassStage
  rw [hφ.path, hφ.par, hφ.raiseOnPath]
  split
  · rfl
  · split <;> rfl

theorem computeOutput_unread (i : Nat) (olast : Bool) (hist : List Iq) (s : State) :
    computeOutput i olast hist (φ s) = φ (computeOutput i olast hist s) := by
  unfold computeOutput
  rw [hφ.par, hφ.fir]
  split
  · exact hφ.raiseOnPath ..
  · exact hφ.setPath ..

theorem consumeSample_unread (i : Nat) (olast : Bool) (s : State) :
    consumeSample i olast (φ s) = φ (consumeSample i olast s) := by
  unfold consumeSample
  rw [hφ.path, hφ.par, hφ.fir]
  split
  · rfl
  · split
    · exact hφ.raiseOnPath ..
    · dsimp only
      split
      · rw [hφ.writeStage, computeOutput_unread hφ]
      · rw [hφ.writeStage, hφ.setPath]

theorem pathStage_unread (olast : Bool) (s : State) (i : Nat) : pathStage olast (φ s) i = φ (pathStage olast s i) := by
  unfold pathStage
  rw [hφ.path, hφ.fir]
  split
  · rfl
  · split
    · exact hφ.raiseOnPath ..
    · exact bypassStage_unread hφ i s
    · exact consumeSample_unread hφ i olast s

theorem foldl_pathStage_unread (olast : Bool) (is : List Nat) (s : State) :
    is.foldl (pathStage olast) (φ s) = φ (is.foldl (pathStage olast) s) := by
  induction is generalizing s with
  | nil => rfl
  | cons i is ih => rw [List.foldl_cons, List.foldl_cons, pathStage_unread hφ, ih]

theorem runPath_unread (olast : Bool) (s : State) : runPath olast (φ s) = φ (runPath olast s) := by
  unfold runPath
  rw [hφ.fir, hφ.par]
  split
  · exact foldl_pathStage_unread hφ ..
  · exact passDisabled_unread hφ s

/-- A take does the same whatever stands where it does not read, and leaves that as it is. -/
theorem takeSample_unread (olast : Bool) (s : State) : takeSample olast (φ s) = φ (takeSample olast s) := by
  unfold takeSample
  rw [hφ.fir]
  split
  · rfl
  · rw [hφ.takeHead, runPath_unread hφ, hφ.collectOutputs]

theorem exec_pathTake_unread {olast : Bool} {s t : State} (h : exec (.pathTake olast) s = .next t) :
    exec (.pathTake olast) (φ s) = .next (φ t) := by
  injection h with h
  subst h
  simp only [exec, execPathTake, hφ.par, hφ.fir, takeSample_unread hφ]
  split <;> rfl

end Unread

/-- Whichever way the checks, the phase and the output go, the sample's last bit does not come out. -/
theorem consumeSample_last (i : Nat) (olast a b : Bool) (s : State) (v : Iq) :
    consumeSample i olast (s.setPath [v.sample a]) = consumeSample i olast (s.setPath [v.sample b]) := by
  have path (c : Bool) : (s.setPath [v.sample c]).path = [v.sample c] := rfl
  rcases hc : consumeChecks s.par s.fir i with e | h
  · rw [consumeSample_of_checks_error (path a) hc, consumeSample_of_checks_error (path b) hc]
    rfl
  · by_cases hph : (stOf s.fir i).phase + 1 = h.dec
    · rcases hy : firOutput s.par s.fir i ((stOf s.fir i).hist ++ [v]) with e | y
      · rw [consumeSample_of_output_error (path a) hc hph hy, consumeSample_of_output_error (path b) hc hph hy]
        rfl
      · rw [consumeSample_of_output (path a) hc hph hy, consumeSample_of_output (path b) hc hph hy]
        rfl
    · rw [consumeSample_within_group (path a) hc hph, consumeSample_within_group (path b) hc hph]
      rfl

/-- The cycle in progress with another configuration and memory in σ'. -/
def withControl (cfg : List StageCfg) (mem : Memory) (enable : Bool) (s : State) : State :=
  { s with nxt := { s.nxt with cfg := cfg, mem := mem, firEnable := enable } }

/-- A take reads the configuration and the memory of σ, not those of σ' (R93, R304). -/
theorem withControl_unread (cfg : List StageCfg) (mem : Memory) (enable : Bool) :
    UnreadByTake (withControl cfg mem enable) where
  par _ := rfl
  fir _ := rfl
  path _ := rfl
  raiseOnPath _ _ := rfl
  setPath _ _ := rfl
  writeStage _ _ _ := rfl
  takeHead _ _ := rfl
  collectOutputs _ := rfl

end Sys2Proof.Proofs
end

section
/-! PROOFS. The statements about a take and the operations of the stream (spec/44_stream_controller.md,
spec/43_cascade_and_bypass.md). -/

namespace Sys2Proof.Proofs

open Sys2Proof.Machine Sys2Proof.Safety

/-- Settles O26: the operations of the path are PATH as one function, and the take stores what it gives. -/
theorem takeRunsPath : Obligations.TakeRunsPath := by
  unfold Obligations.TakeRunsPath
  intro olast s x q hb hn hroom hst
  refine ⟨fun out sts h => ?_, fun e h => ?_⟩
  · rw [exec_pathTake_of_ok hb hroom hst h, hn, List.tail_cons]
  · obtain ⟨st, ht⟩ := exec_pathTake_of_error hb hroom hst h
    exact ⟨_, ht, rfl, rfl, rfl, rfl, rfl, rfl⟩

/-- Settles O27: a bypassed stage that does not narrow leaves the whole state as it is, so the path does. -/
theorem takeOfBypassedStagesIsIdentity : Obligations.TakeOfBypassedStagesIsIdentity := by
  unfold Obligations.TakeOfBypassedStagesIsIdentity
  intro olast s x q hb hn hroom hen hstages
  have path : runPath olast (takeHead x s) = takeHead x s :=
    (if_pos hen).trans (foldl_pathStage_of_bypassed (s := takeHead x s) rfl fun i hi => hstages i (List.mem_range.1 hi))
  rw [exec_pathTake_of_runPath_eq hb hroom path, hn, List.tail_cons]

/-- Settles O28: the configuration and the memory of σ' are among what a take does not read. -/
theorem takeIgnoresWritesOfItsCycle : Obligations.TakeIgnoresWritesOfItsCycle := by
  unfold Obligations.TakeIgnoresWritesOfItsCycle
  exact fun _ _ _ cfg mem enable h => exec_pathTake_unread (withControl_unread cfg mem enable) h

/-- Settles O29: the path carries at most one sample, and a take appends what is on it at the end. -/
theorem atMostOneOutputPerTake : Obligations.AtMostOneOutputPerTake := by
  unfold Obligations.AtMostOneOutputPerTake
  intro olast s t h
  have kept : ∃ out : List Sample, out.length ≤ 1 ∧ s.nxt.pending = s.nxt.pending ++ out :=
    ⟨[], by simp, (List.append_nil _).symm⟩
  injection h with h
  subst h
  split
  · obtain ⟨-, ht⟩ | ⟨x, -, u, -, -, hpath, hone, ht⟩ := takeSample_cases olast s <;> rw [ht]
    · exact kept
    · refine ⟨u.path, hone, ?_⟩
      have before : u.nxt.pending = s.nxt.pending := by rw [hpath.rest]; rfl
      rw [← before]
      rfl
  · exact kept

/-- Settles O25: the disabled path passes the head on, and the two conditions of R255 are what enables a take. -/
theorem takeOfDisabledBlockPassesSample : Obligations.TakeOfDisabledBlockPassesSample := by
  unfold Obligations.TakeOfDisabledBlockPassesSample
  refine fun olast s => ⟨fun x q hb hn hroom hen hw => ?_, fun h => ?_⟩
  · have path : runPath olast (takeHead x s) = takeHead x s :=
      (runPath_of_disabled (s := takeHead x s) olast hen).trans (passDisabled_of_fits hw)
    rw [exec_pathTake_of_runPath_eq hb hroom path, hn, List.tail_cons]
  · refine exec_pathTake_of_not_enabled fun enabled => ?_
    obtain ⟨hne, hroom⟩ := takeEnabled_iff.1 enabled
    exact h.elim hne hroom.not_ge

/-- Settles O21: the patterns are read as the two's-complement values that the statement writes out. -/
theorem sinkTransferAppendsSample : Obligations.SinkTransferAppendsSample := by
  unfold Obligations.SinkTransferAppendsSample
  exact fun _ _ _ _ => rfl

/-- Settles O23: the head that σ' drops is the one of σ, whose patterns go to the consumer. -/
theorem sourceTransferHandsOutHead : Obligations.SourceTransferHandsOutHead := by
  unfold Obligations.SourceTransferHandsOutHead
  intro s x q hfir hnxt
  simp only [exec, execSrcXfer, State.write, State.drive, hfir, hnxt, List.tail_cons, List.head?_cons, Option.map_some]
  rfl

/-- Settles O35: STAGE_CONSUME looks at the pair of the sample and puts a sample of its own, or none, on the path. -/
theorem lastBitHasNoEffect : Obligations.LastBitHasNoEffect := by
  unfold Obligations.LastBitHasNoEffect
  exact fun i olast a b s v => congrArg Host.Outcome.next (consumeSample_last i olast a b s v)

end Sys2Proof.Proofs
end

section
/-! SUPPORT. The cycle of the FIR block as a whole (spec/44_stream_controller.md R250): what no cycle touches, what the operations on
the stream's lines make of a running cycle, and the cycle as the one function of the reference. -/

namespace Sys2Proof.Proofs

open Sys2Proof.Machine Sys2Proof.Safety

/-! What no operation of a cycle touches. -/

/-- From s to t, within one cycle, everything stays but σ', the path, the raised faults and the ports. -/
structure KeepsContext (s t : State) : Prop where
  par : t.par = s.par
  records : t.records = s.records
  cycle : t.cycle = s.cycle
  fast : t.fast = s.fast
  fir : t.fir = s.fir
  w : t.w = s.w
  ceg : t.ceg = s.ceg

theorem KeepsContext.refl (s : State) : KeepsContext s s := ⟨rfl, rfl, rfl, rfl, rfl, rfl, rfl⟩

theorem KeepsContext.trans {s t u : State} (h₁ : KeepsContext s t) (h₂ : KeepsContext t u) : KeepsContext s u :=
  ⟨h₂.par.trans h₁.par, h₂.records.trans h₁.records, h₂.cycle.trans h₁.cycle, h₂.fast.trans h₁.fast,
    h₂.fir.trans h₁.fir, h₂.w.trans h₁.w, h₂.ceg.trans h₁.ceg⟩

theorem KeepsContext.ite {c : Prop} [Decidable c] {s t u : State} (ht : KeepsContext s t) (hu : KeepsContext s u) :
    KeepsContext s (if c then t else u) := by
  split
  · exact ht
  · exact hu

theorem KeepsContext.write (s : State) (g : Fir → Fir) : KeepsContext s (s.write g) := ⟨rfl, rfl, rfl, rfl, rfl, rfl, rfl⟩

theorem KeepsContext.raise (s : State) (k : FaultKind) : KeepsContext s (s.raise k) := ⟨rfl, rfl, rfl, rfl, rfl, rfl, rfl⟩

theorem KeepsContext.ofPathOnly {s t : State} (h : PathOnly s t) : KeepsContext s t := by
  rw [h.rest]
  exact ⟨rfl, rfl, rfl, rfl, rfl, rfl, rfl⟩

theorem writeCfg_keepsContext (field : CfgField) (stage : BitVec 2) (v : Nat) (s : State) :
    KeepsContext s (writeCfg field stage v s) := by
  obtain ⟨k, -, h⟩ | ⟨-, h⟩ := writeCfg_cases field stage v s <;> rw [h]
  · exact .raise s k
  · exact .write s _

theorem takeSample_keepsContext (olast : Bool) (s : State) : KeepsContext s (takeSample olast s) := by
  obtain ⟨-, h⟩ | ⟨x, -, t, -, -, hpath, -, h⟩ := takeSample_cases olast s <;> rw [h]
  · exact .refl s
  · have head : KeepsContext s (takeHead x s) := ⟨rfl, rfl, rfl, rfl, rfl, rfl, rfl⟩
    have collect : KeepsContext t (collectOutputs t) := ⟨rfl, rfl, rfl, rfl, rfl, rfl, rfl⟩
    exact (head.trans (.ofPathOnly hpath)).trans collect

/-- Every operation but the generator's keeps the context of the cycle. -/
theorem exec_keepsContext {i : Instr} {s t : State} (hedge : ∀ e, i ≠ decodeEdge e) (h : exec i s = .next t) :
    KeepsContext s t := by
  cases i <;> (injection h with h; subst h)
  case cegFastEdge => exact absurd rfl (hedge false)
  case cegCommonEdge => exact absurd rfl (hedge true)
  case reset | sinkXfer | sinkStall | srcXfer | srcStall | statusRead => exact ⟨rfl, rfl, rfl, rfl, rfl, rfl, rfl⟩
  case pathTake olast => exact .ite (takeSample_keepsContext olast s) (.refl s)
  case srcOffer => exact .ite (.refl s) (.write s _)
  case coefWrite => exact .ite (.raise s _) (.write s _)
  case cfgDecimation | cfgOpsM1 | cfgOddOps | cfgMaccTrunc | cfgBypass | cfgFirEnable => exact writeCfg_keepsContext ..
  case cfgReserved => exact .raise s _
  case disabledPass => exact .ofPathOnly (passDisabled_pathOnly s)
  case stageBypass i => exact .ofPathOnly (bypassStage_pathOnly i s)
  case stageConsume i olast => exact .ofPathOnly (consumeSample_pathOnly i olast s)
  case firOutput i olast => exact .ofPathOnly (computeOutput_pathOnly i olast _ s)

/-- A cycle record selects no operation of the generator. -/
theorem ne_decodeEdge_of_mem_decode {r : CycleRecord} {ops : List Instr} {i : Instr} (h : decode r = .ok ops) (hi : i ∈ ops)
    (e : Bool) : i ≠ decodeEdge e := by
  rintro rfl
  rw [mem_decode_iff (by cases e <;> nofun) (by cases e <;> rfl) h, mem_controlOperations] at hi
  obtain ⟨-, hc⟩ | ⟨-, hc⟩ | ⟨-, hc⟩ := hi
  · have := isConfigWrite_of_eq_cfgOperation hc
    cases e <;> cases this
  · cases e <;> cases hc
  · cases e <;> cases hc

theorem runOps_keepsContext {r : CycleRecord} {ops : List Instr} {s t : State} (hops : decode r = .ok ops)
    (h : runOps ops s = .next t) : KeepsContext s t :=
  runOps_induct .refl .trans (fun _ hi _ _ => exec_keepsContext (ne_decodeEdge_of_mem_decode hops hi)) h

/-- What every cycle of the FIR block leaves as it is, but for its record and its number. -/
structure CycleFrame (s : State) (rest : List Record) (t : State) : Prop where
  par : t.par = s.par
  records : t.records = rest
  cycle : t.cycle = s.cycle + 1
  fast : t.fast = s.fast
  ceg : t.ceg = s.ceg
  between : Between t

theorem latch_between (s : State) : Between s.latch := ⟨rfl, rfl, rfl, rfl⟩

theorem runCycle_frame {s t : State} {r : CycleRecord} {rest : List Record} (h : runCycle s r rest = .next t) :
    CycleFrame s rest t := by
  obtain ⟨-, ops, hops, ⟨-, -, rfl⟩ | ⟨-, u, hu, rfl⟩⟩ := runCycle_next h
  · exact ⟨rfl, rfl, rfl, rfl, rfl, latch_between _⟩
  · have kept := runOps_keepsContext hops hu
    exact ⟨kept.par, kept.records, congrArg (· + 1) kept.cycle, kept.fast, kept.ceg, latch_between u⟩

theorem step_cycle_frame {s t : State} {r : CycleRecord} {rest : List Record} (hr : s.records = .cycle r :: rest)
    (h : step s = .next t) : CycleFrame s rest t := by
  rw [step_of_cycle (wellFormed_of_step_cycle hr h).1 hr] at h
  exact runCycle_frame h

theorem step_par {s t : State} (h : step s = .next t) : t.par = s.par := by
  obtain ⟨-, ⟨r, rest, -, hc⟩ | ⟨e, rest, -, -, rfl⟩⟩ := step_next h
  · exact (runCycle_frame hc).par
  · rfl

/-! The operations on the stream's lines of a running cycle. -/

/-- The block drives the output bits of a running cycle from σ. -/
theorem streamOperations_completeRecord {s : State} {r : CycleRecord} (hrst : Word.rst r.w = false)
    (hu : s.fir.unreset = false) : streamOperations (completeRecord s r) =
      (if s.fir.offered then [if Word.srcReady r.w then .srcXfer else .srcStall] else [])
        ++ ((if Word.take r.w then [.pathTake r.olast] else [])
          ++ ((if Word.sinkValid r.w then
                [if sinkReady s.par s.fir then .sinkXfer r.sinkRe r.sinkIm r.sinkLast else .sinkStall] else [])
            ++ (if Word.offer r.w then [.srcOffer] else []))) := by
  simp [streamOperations, completeRecord, drivenReady, drivenValid, hrst, hu]

/-- The cycle in progress after the source's line: a transfer takes the head and the offer away, a stall holds the offer (R259,
R260); `ports` is what the block drives then. -/
def afterSource (offered ready : Bool) (ports : Ports) (u : State) : State :=
  { u with
    nxt := { u.nxt with
      pending := if offered && ready then u.nxt.pending.tail else u.nxt.pending
      offered := if offered then !ready else u.nxt.offered }
    ports := ports }

theorem runOps_sourceLine (offered ready : Bool) (u : State) :
    ∃ ports, runOps (if offered then [if ready then .srcXfer else .srcStall] else []) u
      = .next (afterSource offered ready ports u) := by
  cases offered <;> cases ready <;> exact ⟨_, rfl⟩

/-- The sink's line: a transfer appends its sample, a stall changes nothing (R252, R253). -/
theorem runOps_sinkLine (valid ready last : Bool) (re im : Nat) (u : State) :
    runOps (if valid then [if ready then .sinkXfer re im last else .sinkStall] else []) u = .next { u with
      nxt := { u.nxt with
        inbuf := if valid && ready then u.nxt.inbuf ++ [sinkSample u.par re im last] else u.nxt.inbuf } } := by
  cases valid <;> cases ready <;> rfl

/-- The draw offer: the offer is raised where something is pending (R258). -/
theorem runOps_offerLine (offer : Bool) (u : State) :
    runOps (if offer then [.srcOffer] else []) u = .next { u with
      nxt := { u.nxt with offered := u.nxt.offered || (offer && !u.nxt.pending.isEmpty) } } := by
  refine (runOps_line offer .srcOffer rfl).trans ?_
  cases offer
  · simp
  · cases u.nxt.pending.isEmpty
    · simp [State.write]
    · simp

theorem refTake_of_not_takes {p : Params} {f : Fir} {r : CycleRecord} (h : ¬ refTakes p f r.w = true) :
    refTake p f r = .ok (none, f.st) := by
  unfold refTake
  split
  · rfl
  · rw [if_neg h]

theorem refTake_of_takes {p : Params} {f : Fir} {r : CycleRecord} (h : refTakes p f r.w = true) :
    ∃ x q, f.inbuf = x :: q ∧ f.pending.length < p.pathCap ∧ Word.take r.w = true
      ∧ refTake p f r = refPath p f r.olast x := by
  obtain ⟨htake, henabled⟩ := Bool.and_eq_true_iff.1 h
  obtain ⟨hne, hroom⟩ := takeEnabled_iff.1 henabled
  obtain ⟨x, q, hb⟩ := List.exists_cons_of_ne_nil hne
  exact ⟨x, q, hb, hroom, htake, by simp [refTake, hb, h]⟩

/-- A take that does not happen is not asked for or not enabled. -/
theorem runOps_takeLine_of_not_takes {r : CycleRecord} {u : State} (h : ¬ refTakes u.par u.fir r.w = true) :
    runOps (if Word.take r.w then [.pathTake r.olast] else []) u = .next u := by
  cases htake : Word.take r.w
  · rfl
  · have disabled : ¬ takeEnabled u.par u.fir = true := by simpa [refTakes, htake] using h
    exact runOps_line true _ (exec_pathTake_of_not_enabled disabled)

/-- The draw take, where PATH raises no fault. -/
theorem runOps_takeLine_of_ok {r : CycleRecord} {u : State} {out : Option Sample} {sts : List StageSt}
    (hst : u.nxt.st = u.fir.st) (hpath : u.path = []) (h : refTake u.par u.fir r = .ok (out, sts)) :
    runOps (if Word.take r.w then [.pathTake r.olast] else []) u = .next { u with
      nxt := { u.nxt with
        inbuf := if refTakes u.par u.fir r.w then u.nxt.inbuf.tail else u.nxt.inbuf
        fresh := if refTakes u.par u.fir r.w then false else u.nxt.fresh
        pending := u.nxt.pending ++ out.toList
        st := sts } } := by
  by_cases ht : refTakes u.par u.fir r.w = true
  · obtain ⟨x, q, hb, hroom, htake, hpathOf⟩ := refTake_of_takes ht
    rw [runOps_line (Word.take r.w) _ (exec_pathTake_of_ok hb hroom hst (hpathOf ▸ h)), if_pos htake]
    simp [ht, hpath]
  · rw [refTake_of_not_takes ht] at h
    injection h with h
    injection h with hout hsts
    rw [runOps_takeLine_of_not_takes ht, ← hout, ← hsts, ← hst]
    simp [ht]

/-- The draw take, where PATH faults. -/
theorem runOps_takeLine_of_error {r : CycleRecord} {u : State} {e : FaultKind} (hst : u.nxt.st = u.fir.st)
    (h : refTake u.par u.fir r = .error e) :
    ∃ v, runOps (if Word.take r.w then [.pathTake r.olast] else []) u = .next v
      ∧ v.raised = u.raised ++ [⟨e, u.cycle⟩] := by
  by_cases ht : refTakes u.par u.fir r.w = true
  · obtain ⟨x, q, hb, hroom, htake, hpathOf⟩ := refTake_of_takes ht
    obtain ⟨st, hexec⟩ := exec_pathTake_of_error hb hroom hst (hpathOf ▸ h)
    refine ⟨_, runOps_line (Word.take r.w) _ hexec, ?_⟩
    rw [if_pos htake]
  · rw [refTake_of_not_takes ht] at h
    cases h

/-- σ' g with the stream state that the reference gives it. -/
def withStream (g h : Fir) : Fir :=
  { g with inbuf := h.inbuf, pending := h.pending, offered := h.offered, fresh := h.fresh, st := h.st }

/-- The stream state of the reference stands beside the overflow detection that opens the cycle. -/
theorem refStream_eq_withStream (p : Params) (f : Fir) (r : CycleRecord) (out : Option Sample) (sts : List StageSt) :
    refStream p f r out sts = withStream (withOverflowDetection p f) (refStream p f r out sts) := rfl

/-- The writes of the control plane do not see the stream state. -/
theorem refWrites_withStream (p : Params) (r : CycleRecord) (g h : Fir) :
    refWrites p r (withStream g h) = withStream (refWrites p r g) h := by
  have cfg : cfgStore r (withStream g h) = withStream (cfgStore r g) h := by
    unfold cfgStore
    split
    · rfl
    · unfold storeCfg
      split <;> rfl
  rw [refWrites_eq, refWrites_eq]
  cases Word.cfgWe r.w <;> cases Word.coefWe r.w
  · rfl
  · rfl
  · exact cfg
  · exact congrArg (coefStore p r) cfg

section Running
variable {s : State} {r : CycleRecord} {rest : List Record}

/-- The stream's operations of a running cycle whose path does not fault write the stream state of the reference. -/
theorem runOps_streamOperations_of_ok {u : State} {out : Option Sample} {sts : List StageSt} (hrst : Word.rst r.w = false)
    (hu : s.fir.unreset = false) (hpar : u.par = s.par) (hfir : u.fir = s.fir) (hpath : u.path = [])
    (hnxt : SameStream (withOverflowDetection s.par s.fir) u.nxt) (h : refTake s.par s.fir r = .ok (out, sts)) :
    ∃ v, runOps (streamOperations (completeRecord s r)) u = .next v ∧ v.raised = u.raised
      ∧ v.nxt = withStream u.nxt (refStream s.par s.fir r out sts) := by
  rw [streamOperations_completeRecord hrst hu]
  obtain ⟨ports, hsource⟩ := runOps_sourceLine s.fir.offered (Word.srcReady r.w) u
  rw [runOps_append hsource]
  have htake := runOps_takeLine_of_ok (r := r) (u := afterSource s.fir.offered (Word.srcReady r.w) ports u)
    (by simpa [afterSource, hfir] using hnxt.st) hpath (by simpa [afterSource, hfir, hpar] using h)
  rw [runOps_append htake, runOps_append (runOps_sinkLine _ _ _ _ _ _), runOps_offerLine]
  refine ⟨_, rfl, rfl, ?_⟩
  have hin : u.nxt.inbuf = s.fir.inbuf := hnxt.inbuf
  have hpend : u.nxt.pending = s.fir.pending := hnxt.pending
  have hoff : u.nxt.offered = s.fir.offered := hnxt.offered
  have hfresh : u.nxt.fresh = s.fir.fresh := hnxt.fresh
  simp only [afterSource, withStream, refStream, sinkReady, hpar, hfir, hin, hpend, hoff, hfresh]
  cases s.fir.offered <;> cases Word.srcReady r.w <;> simp

/-- The stream's operations of a running cycle whose path faults raise that fault. -/
theorem runOps_streamOperations_of_error {u : State} {e : FaultKind} (hrst : Word.rst r.w = false)
    (hu : s.fir.unreset = false) (hpar : u.par = s.par) (hfir : u.fir = s.fir)
    (hnxt : SameStream (withOverflowDetection s.par s.fir) u.nxt) (h : refTake s.par s.fir r = .error e) :
    ∃ v, runOps (streamOperations (completeRecord s r)) u = .next v ∧ v.raised = u.raised ++ [⟨e, u.cycle⟩] := by
  rw [streamOperations_completeRecord hrst hu]
  obtain ⟨ports, hsource⟩ := runOps_sourceLine s.fir.offered (Word.srcReady r.w) u
  rw [runOps_append hsource]
  obtain ⟨v, htake, hraised⟩ := runOps_takeLine_of_error (r := r)
    (u := afterSource s.fir.offered (Word.srcReady r.w) ports u)
    (by simpa [afterSource, hfir] using hnxt.st) (by simpa [afterSource, hfir, hpar] using h)
  rw [runOps_append htake, runOps_append (runOps_sinkLine _ _ _ _ _ _), runOps_offerLine]
  exact ⟨_, rfl, hraised⟩

end Running

/-! The cycle as one function (`refCycle`). -/

section Refinement
variable {s : State} {r : CycleRecord} {rest : List Record}

/-- The faults of a reset cycle are those of its configuration write. -/
theorem refFaults_of_reset (p : Params) (f : Fir) (hrst : Word.rst r.w = true) :
    refFaults p f r = (resetFault p f r).toList := by
  unfold refFaults resetFault
  cases Word.cfgWe r.w <;> simp [hrst, refCoefFault_of_reset]

theorem refNext_of_reset (p : Params) (f : Fir) (hrst : Word.rst r.w = true) :
    refNext p f r = refWrites p r (clearStream p f) := if_pos hrst

/-- A reset cycle loads what the reference gives. -/
theorem resetCycle_fir_eq_refCycle (hrst : Word.rst r.w = true) :
    (afterStatus r (afterWrites r (afterResetOperation s r rest))).latch.fir = refCycle s.par s.fir r s.cycle := by
  have after : ¬ (!Word.rst r.w && s.fir.unreset) = true := by simp [hrst]
  rw [refCycle, if_neg after, refFaults_of_reset _ _ hrst]
  cases hk : resetFault s.par s.fir r with
  | some k => exact resetCycle_fir_of_fault hrst hk
  | none => exact (resetCycle_fir_of_noFault hrst hk).trans (refNext_of_reset _ _ hrst).symm

/-- A running cycle takes exactly where the reference does. -/
theorem openCycle_doTake_eq (hrst : Word.rst r.w = false) :
    (openCycle s r rest).doTake = (!Word.rst r.w && refTakes s.par s.fir r.w) := by
  simp [State.doTake, completeRecord, hrst, refTakes]

/-- The fault of the cycle's take, if any. -/
def takeFault (p : Params) (f : Fir) (r : CycleRecord) : Option FaultKind :=
  match refTake p f r with
  | .error e => some e
  | .ok _ => none

theorem takeFault_of_ok {p : Params} {f : Fir} {g : Option Sample × List StageSt} (h : refTake p f r = .ok g) :
    takeFault p f r = none := by
  simp [takeFault, h]

theorem takeFault_of_error {p : Params} {f : Fir} {e : FaultKind} (h : refTake p f r = .error e) :
    takeFault p f r = some e := by
  simp [takeFault, h]

/-- The faults of a running cycle: of the control plane's writes, then of the take. -/
theorem refFaults_of_running (hrst : Word.rst r.w = false) :
    refFaults s.par s.fir r
      = controlFaults r (openCycle s r rest) ++ (takeFault s.par s.fir r).toList := by
  unfold refFaults controlFaults
  rw [openCycle_doTake_eq hrst]
  refine congrArg (List.append _) ?_
  by_cases ht : refTakes s.par s.fir r.w = true
  · cases h : refTake s.par s.fir r with
    | ok g => simp [takeFault_of_ok h]
    | error e => simp [takeFault_of_error h, hrst, ht]
  · simp [takeFault_of_ok (refTake_of_not_takes ht), ht]

/-- σ' of a running cycle after the control plane's operations, none of which failed a check. -/
theorem afterWrites_openCycle_nxt (hrst : Word.rst r.w = false) (h : controlFaults r (openCycle s r rest) = []) :
    (afterWrites r (openCycle s r rest)).nxt = refWrites s.par r (withOverflowDetection s.par s.fir) := by
  rw [afterWrites_nxt r _ h, openCycle_nxt_of_running s rest hrst, openCycle_par]

/-- The control plane's writes leave the stream state of σ' as the cycle opened it, with a fault or without. -/
theorem afterWrites_sameStream (r : CycleRecord) (u : State) : SameStream u.nxt (afterWrites r u).nxt := by
  have raiseOr (v : State) (k : Option FaultKind) (store : Fir → Fir) (h : SameStream v.nxt (store v.nxt)) :
      SameStream v.nxt (v.raiseOr k store).nxt := by
    cases k
    · exact h
    · exact .refl _
  unfold afterWrites
  dsimp only
  refine SameStream.trans (g := (if Word.cfgWe r.w then
    u.raiseOr (refCfgFault u.par u.fir u.doTake r) (cfgStore r) else u).nxt) ?_ ?_
  · split
    · exact raiseOr _ _ _ (cfgStore_sameStream r _)
    · exact .refl _
  · cases Word.coefWe r.w
    · exact .refl _
    · exact raiseOr _ _ _ (coefStore_sameStream _ r _)

@[simp] theorem afterWrites_par (r : CycleRecord) (u : State) : (afterWrites r u).par = u.par := by rw [afterWrites_eq]
@[simp] theorem afterWrites_cycle (r : CycleRecord) (u : State) : (afterWrites r u).cycle = u.cycle := by rw [afterWrites_eq]
@[simp] theorem afterWrites_path (r : CycleRecord) (u : State) : (afterWrites r u).path = u.path := by rw [afterWrites_eq]
@[simp] theorem afterStatus_par (r : CycleRecord) (u : State) : (afterStatus r u).par = u.par := by
  unfold afterStatus; split <;> rfl
@[simp] theorem afterStatus_cycle (r : CycleRecord) (u : State) : (afterStatus r u).cycle = u.cycle := by
  unfold afterStatus; split <;> rfl
@[simp] theorem afterStatus_path (r : CycleRecord) (u : State) : (afterStatus r u).path = u.path := by
  unfold afterStatus; split <;> rfl

/-- The next state of a running cycle without a fault: the stream state of the reference beside the writes. -/
theorem refNext_of_running {p : Params} {f : Fir} {out : Option Sample} {sts : List StageSt} (hrst : Word.rst r.w = false)
    (h : refTake p f r = .ok (out, sts)) : refNext p f r = refWrites p r (refStream p f r out sts) := by
  simp [refNext, hrst, h]

/-- What the operations of a running cycle raise and, where they raise nothing, write. -/
theorem runOps_runningOperations (hrst : Word.rst r.w = false) (hu : s.fir.unreset = false) :
    ∃ v, runOps (runningOperations s r) (openCycle s r rest) = .next v
      ∧ v.raised = (refFaults s.par s.fir r).map (fun k => ⟨k, s.cycle⟩)
      ∧ (refFaults s.par s.fir r = [] → v.nxt = refNext s.par s.fir r) := by
  set w := afterStatus r (afterWrites r (openCycle s r rest)) with hw
  have control : runOps (controlOperations r) (openCycle s r rest) = .next w :=
    runOps_controlOperations r _ (by simp [State.inReset, completeRecord])
  have raised : w.raised = (controlFaults r (openCycle s r rest)).map fun k => ⟨k, s.cycle⟩ := by
    simp [hw, afterWrites_raised]
  have stream : SameStream (withOverflowDetection s.par s.fir) w.nxt := by
    rw [hw, afterStatus_nxt, ← openCycle_nxt_of_running s rest hrst]
    exact afterWrites_sameStream r _
  rw [runningOperations, runOps_append control, refFaults_of_running (rest := rest) hrst]
  cases h : refTake s.par s.fir r with
  | error e =>
    obtain ⟨v, hv, hraised⟩ := runOps_streamOperations_of_error hrst hu (by simp [hw]) (by simp [hw]) stream h
    refine ⟨v, hv, ?_, fun hnone => ?_⟩
    · rw [hraised, raised, takeFault_of_error h]
      simp [hw]
    · simp [takeFault_of_error h] at hnone
  | ok g =>
    obtain ⟨out, sts⟩ := g
    obtain ⟨v, hv, hraised, hnxt⟩ :=
      runOps_streamOperations_of_ok hrst hu (by simp [hw]) (by simp [hw]) (by simp [hw]) stream h
    refine ⟨v, hv, ?_, fun hnone => ?_⟩
    · rw [hraised, raised, takeFault_of_ok h]
      simp
    · have hcontrol : controlFaults r (openCycle s r rest) = [] := (List.append_eq_nil_iff.1 hnone).1
      rw [hnxt, hw, afterStatus_nxt, afterWrites_openCycle_nxt hrst hcontrol, refNext_of_running hrst h,
        refStream_eq_withStream, ← refWrites_withStream]
      rfl

/-- The machine's cycle of the FIR block is the cycle of the reference (R250, R220, R361). -/
theorem step_fir_eq_refCycle (hw : s.par.WellFormed) (hf : NoFault s) (hr : s.records = .cycle r :: rest)
    (hres : Word.reserved r.w = false) : ∃ t, step s = .next t ∧ t.fir = refCycle s.par s.fir r s.cycle := by
  cases hrst : Word.rst r.w
  · cases hu : s.fir.unreset
    · obtain ⟨v, hv, hraised, hnxt⟩ := runOps_runningOperations (s := s) (rest := rest) hrst hu
      have hstep : step s = .next v.latch := by
        rw [step_of_cycle hw hr, runCycle_of_running rest hf hres hrst hu, ← runningOperations, hv]
        rfl
      refine ⟨v.latch, hstep, ?_⟩
      have running : ¬ (!Word.rst r.w && s.fir.unreset) = true := by simp [hu]
      rw [refCycle, if_neg running, latch_fir, State.registered, hraised, (runOps_keepsReset hv).fir]
      by_cases hnone : refFaults s.par s.fir r = []
      · simp [hnone, hnxt hnone]
      · simp [hnone]
    · refine ⟨_, (step_of_cycle hw hr).trans (runCycle_before_reset rest hf hres hrst hu), ?_⟩
      rw [refCycle, if_pos (by simp [hrst, hu])]
      exact registered_raise _ (openCycle_raised s r rest)
  · exact ⟨_, step_of_reset hw hf hr hres hrst, resetCycle_fir_eq_refCycle hrst⟩

/-- What a step that runs a cycle record loads. -/
theorem step_cycle_next {t : State} (hr : s.records = .cycle r :: rest) (h : step s = .next t) :
    NoFault s ∧ t.fir = refCycle s.par s.fir r s.cycle := by
  obtain ⟨hw, hres⟩ := wellFormed_of_step_cycle hr h
  have hf : NoFault s := by
    rw [step_of_cycle hw hr] at h
    exact (runCycle_next h).1
  obtain ⟨t', ht', hfir⟩ := step_fir_eq_refCycle hw hf hr hres
  exact ⟨hf, by rw [Host.Outcome.next.inj (h.symm.trans ht'), hfir]⟩

/-! What the reference says of the faults. -/

/-- The next state of a cycle without a fault has the fault set of σ. -/
theorem refNext_faults (p : Params) (f : Fir) (r : CycleRecord) : (refNext p f r).faults = f.faults := by
  unfold refNext
  split
  · exact (refWrites_sameStream p r _).faults
  · split
    · rfl
    · exact (refWrites_sameStream p r _).faults

/-- After the first reset or in a reset cycle the fault set grows by the faults of the cycle. -/
theorem refCycle_faults {p : Params} {f : Fir} {cycle : Nat} (h : Word.rst r.w = true ∨ f.unreset = false) :
    (refCycle p f r cycle).faults = f.faults ++ (refFaults p f r).map fun k => ⟨k, cycle⟩ := by
  have after : ¬ (!Word.rst r.w && f.unreset) = true := by rcases h with h | h <;> simp [h]
  rw [refCycle, if_neg after]
  split
  · rename_i hnone
    simp [refNext_faults, hnone]
  · rfl

/-- A cycle loads σ with faults recorded, or the next state of the reference. -/
theorem refCycle_cases (p : Params) (f : Fir) (r : CycleRecord) (cycle : Nat) :
    (∃ fs, fs ≠ [] ∧ refCycle p f r cycle = withFaults f fs)
      ∨ ((Word.rst r.w = true ∨ f.unreset = false) ∧ refFaults p f r = []
          ∧ refCycle p f r cycle = refNext p f r) := by
  unfold refCycle
  split
  · exact .inl ⟨_, by simp, rfl⟩
  · rename_i after
    split
    · rename_i hnone
      refine .inr ⟨?_, hnone, rfl⟩
      cases hrst : Word.rst r.w <;> simp_all
    · rename_i hsome
      exact .inl ⟨_, by simpa using hsome, rfl⟩

end Refinement

end Sys2Proof.Proofs
end

section
/-! PROOFS. The statements about the step and the cycle as a whole (spec/44_stream_controller.md R250, spec/60_exceptions.md R332,
spec/00_scope.md R9). -/

namespace Sys2Proof.Proofs

open Sys2Proof.Machine Sys2Proof.Safety

/-- Settles O7: the operations of a cycle, line by line, write and raise what the reference does, and none of them leaves its own
part of the state. -/
theorem cycleRefinesReference : Obligations.CycleRefinesReference := by
  unfold Obligations.CycleRefinesReference
  intro s r rest hw hf hr hres
  obtain ⟨t, ht, hfir⟩ := step_fir_eq_refCycle hw hf hr hres
  obtain ⟨hpar, hrecords, hcycle, hfast, hceg, hbetween⟩ := step_cycle_frame hr ht
  exact ⟨t, ht, hfir, hbetween, hcycle, hrecords, hpar, hceg, hfast⟩

/-- Settles O8: a faulted state is not stepped, and the cycle of the reference loads σ with its faults or the next state, which has
none. -/
theorem faultsAreStickyAndFinal : Obligations.FaultsAreStickyAndFinal := by
  unfold Obligations.FaultsAreStickyAndFinal
  refine fun s r rest hw hr => ⟨fun hf => ?_, fun hf t h ht => ?_, fun hf hrun t h => ?_⟩
  · rw [step_of_cycle hw hr, runCycle, if_pos hf]
  · rw [NoFault, (step_cycle_next hr h).2] at ht
    rw [(step_cycle_next hr h).2]
    obtain ⟨fs, -, hfs⟩ | ⟨-, -, hnext⟩ := refCycle_cases s.par s.fir r s.cycle
    · rw [hfs]
      rfl
    · rw [hnext, refNext_faults] at ht
      exact absurd hf ht
  · rw [(step_cycle_next hr h).2, refCycle_faults hrun, hf, List.nil_append]

/-- Settles O12: neither a cycle nor a fast cycle writes the parameters. -/
theorem stepKeepsParameters : Obligations.StepKeepsParameters := by
  unfold Obligations.StepKeepsParameters
  exact fun s t h => step_par h

/-- Settles O6: a decoded cycle that may run opens, runs its operations and closes; a generator record runs the edge it names, where
that is the edge of the clock ratio. -/
theorem stepRunsDecodedOperations : Obligations.StepRunsDecodedOperations := by
  unfold Obligations.StepRunsDecodedOperations
  intro s rest hw
  refine ⟨fun r ops hr hf hops hrun => ?_, fun e hr => ?_⟩
  · have may_run : ¬ (!Word.rst r.w && s.fir.unreset) = true := by rcases hrun with h | h <;> simp [h]
    have hstep : step s = closeCycle (runOps ops (openCycle s r rest)) := by
      rw [step_of_cycle hw hr, runCycle, if_neg (not_not.2 hf), hops]
      exact if_neg may_run
    refine ⟨hstep, fun i hi => ?_⟩
    obtain ⟨t, ht⟩ := exec_next i (openCycle s r rest)
    rw [hstep, hi, runOps_cons i [] ht, ht]
    rfl
  · have hstep : step s = runEdge s e rest := by simp [step, hw, hr]
    have common : isCommonEdge s.par.ratio s.fast = decide (s.fast % s.par.ratio = 0) := beq_eq_decide ..
    rw [hstep, runEdge, common]
    exact ⟨fun h => if_pos h, fun h => if_neg h⟩

end Sys2Proof.Proofs
end

section
/-! SUPPORT. The elaboration checks (spec/00_scope.md R10) as one condition on a parameter set. -/

namespace Sys2Proof.Proofs

open Sys2Proof.Machine Sys2Proof.Safety

theorem wellFormed_iff_checks {p : Params} : p.WellFormed ↔ ∀ c ∈ p.checks, c.1 = true := by
  simp [Params.WellFormed, Params.failedCheck]

/-- The checks are the ten of the block and those of each stage. -/
theorem mem_checks {p : Params} {c : Bool × ParamError} : c ∈ p.checks ↔
    c ∈ p.checks.take 10 ∨ ∃ i, i < p.numStages ∧ c ∈ p.stageChecks i := by
  rw [Params.checks, List.mem_append, List.mem_flatMap]
  simp

theorem stageChecks_pass_iff {p : Params} {i : Nat} : (∀ c ∈ p.stageChecks i, c.1 = true) ↔
    2 ≤ p.inWidth i ∧ 2 ≤ p.outWidth i ∧ (i + 1 < p.numStages → p.outWidth i ≤ p.inWidth (i + 1))
      ∧ p.coefBase i < p.numCells := by
  simp only [Params.stageChecks, List.forall_mem_cons, decide_eq_true_eq]
  simp

/-- The checks of R10, with R9's COEF_BASE[0] = 0 for one stage. -/
theorem wellFormed_iff {p : Params} : p.WellFormed ↔
    (p.numStages = 1 ∨ p.numStages = 3)
      ∧ (∀ i, i < p.numStages → 2 ≤ p.inWidth i ∧ 2 ≤ p.outWidth i ∧ p.coefBase i < 2 ^ p.lenLog2)
      ∧ (∀ i, i + 1 < p.numStages → p.outWidth i ≤ p.inWidth (i + 1))
      ∧ 2 ≤ p.coefWidth ∧ 1 ≤ p.decWidth ∧ 1 ≤ p.opsWidth ∧ 1 ≤ p.truncWidth
      ∧ (∀ a, p.accWidth = some a → 2 ≤ a)
      ∧ 1 ≤ p.inDepth ∧ 1 ≤ p.pathCap ∧ 1 ≤ p.ratio
      ∧ (p.numStages = 1 → p.coefBase 0 = 0) := by
  have stages : (∀ c, (∃ i, i < p.numStages ∧ c ∈ p.stageChecks i) → c.1 = true) ↔
      ∀ i, i < p.numStages → 2 ≤ p.inWidth i ∧ 2 ≤ p.outWidth i
        ∧ (i + 1 < p.numStages → p.outWidth i ≤ p.inWidth (i + 1)) ∧ p.coefBase i < p.numCells := by
    simp only [← stageChecks_pass_iff]
    exact ⟨fun h i hi c hc => h c ⟨i, hi, hc⟩, fun h c ⟨i, hi, hc⟩ => h i hi c hc⟩
  have block : (∀ c ∈ p.checks.take 10, c.1 = true) ↔
      (p.numStages = 1 ∨ p.numStages = 3) ∧ 2 ≤ p.coefWidth ∧ 1 ≤ p.decWidth ∧ 1 ≤ p.opsWidth ∧ 1 ≤ p.truncWidth
        ∧ (∀ a, p.accWidth = some a → 2 ≤ a) ∧ 1 ≤ p.inDepth ∧ 1 ≤ p.pathCap ∧ 1 ≤ p.ratio
        ∧ (p.numStages = 1 → p.coefBase 0 = 0) := by
    simp only [Params.checks, List.cons_append, List.nil_append, List.take_succ_cons, List.take_zero, List.forall_mem_cons,
      decide_eq_true_eq, Option.mem_def]
    simp
  simp only [wellFormed_iff_checks, mem_checks, or_imp, forall_and, stages, block]
  constructor
  · rintro ⟨⟨hs, hc, hd, ho, ht, ha, hin, hcap, hn, hb⟩, hiw, how, hj, hbase⟩
    exact ⟨hs, ⟨hiw, how, hbase⟩, fun i hi => hj i (by omega) hi, hc, hd, ho, ht, ha, hin, hcap, hn, hb⟩
  · rintro ⟨hs, ⟨hiw, how, hbase⟩, hj, hc, hd, ho, ht, ha, hin, hcap, hn, hb⟩
    exact ⟨⟨hs, hc, hd, ho, ht, ha, hin, hcap, hn, hb⟩, hiw, how, fun i _ => hj i, hbase⟩

section Checks
variable {p : Params} (hw : p.WellFormed)
include hw

theorem numStages_pos : 0 < p.numStages := by
  obtain ⟨hs, -⟩ := wellFormed_iff.1 hw
  omega

theorem inDepth_pos : 0 < p.inDepth := by
  obtain ⟨-, -, -, -, -, -, -, -, hin, -⟩ := wellFormed_iff.1 hw
  exact hin

theorem ratio_pos : 0 < p.ratio := by
  obtain ⟨-, -, -, -, -, -, -, -, -, -, hn, -⟩ := wellFormed_iff.1 hw
  exact hn

/-- A junction does not narrow. -/
theorem outWidth_le_inWidth {i : Nat} (hi : i + 1 < p.numStages) : p.outWidth i ≤ p.inWidth (i + 1) := by
  obtain ⟨-, -, hj, -⟩ := wellFormed_iff.1 hw
  exact hj i hi

end Checks

/-- Settles O9: a failed check is what the step refuses by, and the checks are the conjuncts. -/
theorem parameterChecksAreElaboration : Obligations.ParameterChecksAreElaboration := by
  unfold Obligations.ParameterChecksAreElaboration
  refine ⟨fun s hs => ?_, fun p => wellFormed_iff⟩
  obtain ⟨c, hc⟩ := Option.ne_none_iff_exists'.1 hs
  exact ⟨c, hc, by simp [step, hc]⟩

end Sys2Proof.Proofs
end

section
/-! SUPPORT. Cycles of reset without writes (spec/70_reset_and_hazards.md R361, R362) and the states in which the stream state is
cleared (spec/10_state.md R54). -/

namespace Sys2Proof.Proofs

open Sys2Proof.Machine Sys2Proof.Safety

/-! The reset cycle of the encoder's record: no write, no status read. -/

/-- The record of RESET alone. -/
def resetRecord (rready : Bool) : CycleRecord := { CycleRecord.empty with w := 0x0001, rready := rready }

theorem encode_reset (rready : Bool) : encode (.reset rready) = .cycle (resetRecord rready) := rfl

theorem resetRecord_rst (rready : Bool) : Word.rst (resetRecord rready).w = true := by simp [resetRecord, Word.rst]

theorem resetRecord_reserved (rready : Bool) : Word.reserved (resetRecord rready).w = false := by
  simp [resetRecord, Word.reserved]

/-- The record asks for nothing of the control plane. -/
theorem resetRecord_control (rready : Bool) (s : State) :
    afterStatus (resetRecord rready) (afterWrites (resetRecord rready) s) = s := by
  simp [afterStatus, afterWrites, resetRecord, Word.stsRd, Word.cfgWe, Word.coefWe]

section ResetStep
variable {s t : State} {rready : Bool}

/-- A reset cycle without writes clears the stream state, drives the outputs of R361, and changes nothing else. -/
theorem step_resetRecord (hw : s.par.WellFormed) (hf : NoFault s) :
    step (withRecord s (encode (.reset rready))) = .next { s with
      records := [], cycle := s.cycle + 1, fir := clearStream s.par s.fir, nxt := clearStream s.par s.fir, w := 0
      path := [], raised := [], ports := Ports.inReset rready } := by
  set u := withRecord s (encode (.reset rready)) with hu
  have hnxt := afterResetOperation_nxt u [] (resetRecord_rst rready)
  have hports := afterResetOperation_ports u [] (resetRecord_rst rready)
  have queued : u.records = [.cycle (resetRecord rready)] := congrArg ([·]) (encode_reset rready)
  rw [step_of_reset (s := u) hw hf queued (resetRecord_reserved rready) (resetRecord_rst rready), resetRecord_control]
  simp only [State.latch, State.registered, afterResetOperation_raised, if_true, hnxt, hports]
  rfl

theorem step_resetRecord_fir (hw : s.par.WellFormed) (hf : NoFault s)
    (h : step (withRecord s (encode (.reset rready))) = .next t) : t.fir = clearStream s.par s.fir := by
  rw [step_resetRecord hw hf] at h
  rw [← Host.Outcome.next.inj h]

theorem step_resetRecord_par (h : step (withRecord s (encode (.reset rready))) = .next t) : t.par = s.par :=
  (step_par h :)

theorem clearStream_clearStream (p : Params) (f : Fir) : clearStream p (clearStream p f) = clearStream p f := rfl

end ResetStep

/-! What a running cycle drives on the status output. -/

/-- No operation but RESET drives the status output. -/
theorem exec_ports_ovf {i : Instr} {s t : State} (hreset : ∀ b, i ≠ .reset b) (h : exec i s = .next t) :
    t.ports.ovf = s.ports.ovf := by
  have path {u v : State} (hp : PathOnly u v) : v.ports.ovf = u.ports.ovf := by rw [hp.rest]
  have cfg (field : CfgField) (stage : BitVec 2) (v : Nat) : (writeCfg field stage v s).ports.ovf = s.ports.ovf := by
    obtain ⟨k, -, hk⟩ | ⟨-, hk⟩ := writeCfg_cases field stage v s <;> rw [hk] <;> rfl
  cases i <;> (injection h with h; subst h)
  case reset b => exact absurd rfl (hreset b)
  case sinkXfer | sinkStall | srcXfer | srcStall | cfgReserved | statusRead | cegFastEdge | cegCommonEdge => rfl
  case pathTake olast =>
    split
    · obtain ⟨-, ht⟩ | ⟨x, -, u, -, -, hpath, -, ht⟩ := takeSample_cases olast s <;> rw [ht]
      exact (path hpath :)
    · rfl
  case srcOffer | coefWrite => split <;> rfl
  case cfgDecimation | cfgOpsM1 | cfgOddOps | cfgMaccTrunc | cfgBypass | cfgFirEnable => exact cfg ..
  case disabledPass => exact path (passDisabled_pathOnly s)
  case stageBypass i => exact path (bypassStage_pathOnly i s)
  case stageConsume i olast => exact path (consumeSample_pathOnly i olast s)
  case firOutput i olast => exact path (computeOutput_pathOnly i olast _ s)

/-- A running cycle drives the OverflowFlag of σ on the status output, with a fault or without. -/
theorem runningCycle_ports_ovf {s u : State} {r : CycleRecord} {rest : List Record} (hrst : Word.rst r.w = false)
    (hu : s.fir.unreset = false) (hops : runOps (runningOperations s r) (openCycle s r rest) = .next u) :
    u.latch.ports.ovf = some s.fir.ovf := by
  have kept : u.ports.ovf = (openCycle s r rest).ports.ovf :=
    runOps_induct (R := fun s t => t.ports.ovf = s.ports.ovf) (fun _ => rfl) (fun h₁ h₂ => h₂.trans h₁)
      (fun _ hi _ _ => exec_ports_ovf fun b hb => reset_not_mem_runningOperations s r b (hb ▸ hi)) hops
  have latched : u.latch.ports.ovf = u.ports.ovf := by
    rw [latch_ports]
    split <;> rfl
  rw [latched, kept, openCycle_ports, hrst, hu]
  rfl

/-! Cleared states meet the invariant. -/

theorem stOf_of_replicate {f : Fir} {n : Nat} (h : f.st = List.replicate n StageSt.start) (i : Nat) :
    stOf f i = StageSt.start := by
  rw [stOf, h, List.getD_eq_getElem?_getD, List.getElem?_replicate]
  split <;> rfl

/-- A cleared stream state is as R42, R45, R46 and R47 say. -/
theorem streamInv_of_cleared {p : Params} {f : Fir} (hst : f.st = List.replicate p.numStages StageSt.start)
    (hin : f.inbuf = []) (hpend : f.pending = []) (hoff : f.offered = false) : StreamInv p f where
  stages := by rw [hst, List.length_replicate]
  inbufRoom := by simp [hin]
  inbufFits := by simp [hin]
  pendingRoom := by simp [hpend]
  pendingFits := by simp [hpend]
  offered := by simp [hoff]
  fresh _ st h := List.eq_of_mem_replicate (hst ▸ h)
  phases i _ := .inl (stOf_of_replicate hst i)
  histories i _ := by simp [stOf_of_replicate hst i, StageSt.start]

/-- A configuration and a memory that nothing has written are as R32 and R41 say. -/
theorem controlInv_of_unwritten {p : Params} {f : Fir} (hcfg : f.cfg = List.replicate p.numStages StageCfg.unwritten)
    (hmem : f.mem = []) : ControlInv p f where
  stages := by rw [hcfg, List.length_replicate]
  fields c hc := by
    obtain rfl := List.eq_of_mem_replicate (hcfg ▸ hc)
    exact ⟨by simp [StageCfg.unwritten], by simp [StageCfg.unwritten], by simp [StageCfg.unwritten]⟩
  canonical := by simp [hmem]
  cells := by simp [hmem]

/-- Before fast cycle 0 nothing is known of the generator's bits but their number. -/
theorem generatorInv_of_fast_zero {s : State} (hlen : s.ceg.sr.length = s.par.ratio) (h0 : s.fast = 0) :
    GeneratorInv s where
  length := hlen
  signal h := by omega
  shifted k _ h := by omega

end Sys2Proof.Proofs
end

section
/-! PROOFS. The statements about reset (spec/70_reset_and_hazards.md, spec/10_state.md). -/

namespace Sys2Proof.Proofs

open Sys2Proof.Machine Sys2Proof.Safety

/-- Settles O19: RESET writes the cleared stream state and drives the three outputs. -/
theorem resetOperationClearsStream : Obligations.ResetOperationClearsStream := by
  unfold Obligations.ResetOperationClearsStream
  exact fun _ _ => rfl

/-- Settles O16: each of the two cycles clears the stream state, which clearing again does not change. -/
theorem heldResetChangesNothing : Obligations.HeldResetChangesNothing := by
  unfold Obligations.HeldResetChangesNothing
  intro s t u a b hw hf ht hu
  have hfir := step_resetRecord_fir hw hf ht
  have hpar := step_resetRecord_par ht
  have hf' : NoFault t := (congrArg Fir.faults hfir).trans hf
  rw [step_resetRecord_fir (hpar ▸ hw) hf' hu, hpar, hfir, clearStream_clearStream]

/-- Settles O17: the cleared state drives the released outputs, and with prev_ready 0 ready cannot fall. -/
theorem releaseOfReset : Obligations.ReleaseOfReset := by
  unfold Obligations.ReleaseOfReset
  intro s t u a r hw hf hrst ht hu
  have hfir := step_resetRecord_fir hw hf ht
  have hw' : t.par.WellFormed := step_resetRecord_par ht ▸ hw
  have hf' : NoFault t := (congrArg Fir.faults hfir).trans hf
  have hun : t.fir.unreset = false := congrArg Fir.unreset hfir
  obtain ⟨-, hres⟩ := wellFormed_of_step_cycle (s := withRecord t (.cycle r)) rfl hu
  obtain ⟨u', hu', hready, hvalid, -⟩ := (drivenOutputs (withRecord t (.cycle r)) r [] hw' hf' rfl hres).1 hrst hun
  obtain rfl := Host.Outcome.next.inj (hu.symm.trans hu')
  refine ⟨?_, hvalid.trans (congrArg (some ·.offered) hfir), ?_, ?_⟩
  · have empty : t.fir.inbuf = [] := congrArg Fir.inbuf hfir
    simpa [empty, inDepth_pos hw'] using hready
  · obtain ⟨v, hops, hstep⟩ := step_running (s := withRecord t (.cycle r)) hw' hf' rfl hres hrst hun
    obtain rfl := Host.Outcome.next.inj (hu.symm.trans hstep)
    exact (runningCycle_ports_ovf hrst hun hops).trans (congrArg (some ·.ovf) hfir)
  · have hovf : t.fir.ovf = false := congrArg Fir.ovf hfir
    have hprev : t.fir.prevReady = false := congrArg Fir.prevReady hfir
    obtain ⟨-, hcycle⟩ := step_cycle_next (s := withRecord t (.cycle r)) rfl hu
    obtain ⟨fs, -, hfs⟩ | ⟨-, -, hnext⟩ := refCycle_cases t.par t.fir r t.cycle
    · exact (congrArg Fir.ovf (hcycle.trans hfs)).trans hovf
    · have hf'' : NoFault u := (congrArg Fir.faults (hcycle.trans hnext)).trans ((refNext_faults _ _ _).trans hf')
      have flag := ((overflowFlagRule (withRecord t (.cycle r)) u r [] hf' rfl hu hf'').1 hrst).1
      simpa [hovf, hprev] using flag

/-- Settles O14: RESET clears the unspecified stream state to the after-reset column, field by field. -/
theorem powerOnThenResetGivesResetState : Obligations.PowerOnThenResetGivesResetState := by
  unfold Obligations.PowerOnThenResetGivesResetState
  refine ⟨fun p stream g rready hw => ?_, rfl⟩
  rw [step_resetRecord (s := State.powerOn p stream g) hw rfl]
  rfl

/-- Settles O10: a cleared stream state and an unwritten configuration meet their parts, and no fast cycle has run. -/
theorem resetMeetsInvariant : Obligations.ResetMeetsInvariant := by
  unfold Obligations.ResetMeetsInvariant
  refine ⟨?_, fun p stream g hw hlen => ?_⟩
  · exact ⟨by decide, ⟨rfl, rfl, rfl, rfl⟩, controlInv_of_unwritten rfl rfl,
      fun _ => streamInv_of_cleared rfl rfl rfl rfl, generatorInv_of_fast_zero rfl rfl⟩
  · exact ⟨hw, ⟨rfl, rfl, rfl, rfl⟩, controlInv_of_unwritten rfl rfl, nofun, generatorInv_of_fast_zero hlen rfl⟩

end Sys2Proof.Proofs
end

section
/-! SUPPORT. The FIR block and the generator share no state (spec/10_state.md R32, spec/60_exceptions.md R343): a cycle does the same
whatever the generator's bits and its fast cycle are. -/

namespace Sys2Proof.Proofs

open Sys2Proof.Machine Sys2Proof.Safety

/-- The machine with another generator, before another fast cycle. -/
def withGenerator (g : Ceg) (n : Nat) (s : State) : State := { s with ceg := g, fast := n }

@[simp] theorem withGenerator_fir (g : Ceg) (n : Nat) (s : State) : (withGenerator g n s).fir = s.fir := rfl

theorem withGenerator_unread (g : Ceg) (n : Nat) : UnreadByTake (withGenerator g n) where
  par _ := rfl
  fir _ := rfl
  path _ := rfl
  raiseOnPath _ _ := rfl
  setPath _ _ := rfl
  writeStage _ _ _ := rfl
  takeHead _ _ := rfl
  collectOutputs _ := rfl

section Generator
variable {s t : State} {r : CycleRecord} {rest : List Record} (g : Ceg) (n : Nat)

theorem writeCfg_withGenerator (field : CfgField) (stage : BitVec 2) (v : Nat) (s : State) :
    writeCfg field stage v (withGenerator g n s) = withGenerator g n (writeCfg field stage v s) := by
  have fault : cfgFault field stage.toNat v (withGenerator g n s) = cfgFault field stage.toNat v s := rfl
  unfold writeCfg
  rw [fault]
  split <;> rfl

/-- No operation of a cycle reads or writes the generator. -/
theorem exec_withGenerator {i : Instr} (hedge : ∀ e, i ≠ decodeEdge e) (h : exec i s = .next t) :
    exec i (withGenerator g n s) = .next (withGenerator g n t) := by
  have unread := withGenerator_unread g n
  cases i
  case cegFastEdge => exact absurd rfl (hedge false)
  case cegCommonEdge => exact absurd rfl (hedge true)
  case pathTake olast => exact exec_pathTake_unread unread h
  all_goals
    injection h with h
    subst h
    refine congrArg Host.Outcome.next ?_
  case reset | sinkXfer | sinkStall | srcXfer | srcStall | cfgReserved | statusRead => rfl
  case srcOffer | coefWrite =>
    rw [apply_ite (withGenerator g n)]
    rfl
  case cfgDecimation | cfgOpsM1 | cfgOddOps | cfgMaccTrunc | cfgBypass | cfgFirEnable => exact writeCfg_withGenerator ..
  case disabledPass => exact passDisabled_unread unread s
  case stageBypass i => exact bypassStage_unread unread i s
  case stageConsume i olast => exact consumeSample_unread unread i olast s
  case firOutput i olast => exact computeOutput_unread unread i olast _ s

theorem runOps_withGenerator {ops : List Instr} (hedge : ∀ i ∈ ops, ∀ e, i ≠ decodeEdge e) (h : runOps ops s = .next t) :
    runOps ops (withGenerator g n s) = .next (withGenerator g n t) := by
  induction ops generalizing s with
  | nil =>
    injection h with h
    subst h
    rfl
  | cons i is ih =>
    obtain ⟨hi, his⟩ := List.forall_mem_cons.1 hedge
    obtain ⟨u, hu⟩ := exec_next i s
    rw [runOps_cons i is hu] at h
    rw [runOps_cons i is (exec_withGenerator g n hi hu)]
    exact ih his h

/-- A cycle does the same whatever the generator's bits and its fast cycle are. -/
theorem runCycle_withGenerator (h : runCycle s r rest = .next t) :
    runCycle (withGenerator g n s) r rest = .next (withGenerator g n t) := by
  obtain ⟨hf, ops, hops, ⟨hrst, hu, rfl⟩ | ⟨hrun, u, hu, rfl⟩⟩ := runCycle_next h
  all_goals
    have decoded : decode (completeRecord (withGenerator g n s) r) = .ok ops := hops
    have noFault : ¬ (withGenerator g n s).fir.faults ≠ [] := not_not.2 hf
    rw [runCycle, if_neg noFault, decoded]
    dsimp only
    rw [runSelected]
  · rw [if_pos (by simpa [hrst] using hu)]
    rfl
  · have may_run : ¬ (!Word.rst r.w && (withGenerator g n s).fir.unreset) = true := by
      rcases hrun with h | h
      · simp [h]
      · simpa using fun _ => h
    have opened : openCycle (withGenerator g n s) r rest = withGenerator g n (openCycle s r rest) := rfl
    rw [if_neg may_run, opened,
      runOps_withGenerator g n (fun _ hi => ne_decodeEdge_of_mem_decode hops hi) hu]
    rfl

theorem step_withGenerator (hr : s.records = .cycle r :: rest) (h : step s = .next t) :
    step (withGenerator g n s) = .next (withGenerator g n t) := by
  have hw := (wellFormed_of_step_cycle hr h).1
  rw [step_of_cycle hw hr] at h
  rw [step_of_cycle (s := withGenerator g n s) hw hr]
  exact runCycle_withGenerator g n h

end Generator

/-- A step with the generator record of the clock ratio takes the edge, and nothing else. -/
theorem step_of_edge {s : State} {e : Bool} {rest : List Record} (hw : s.par.WellFormed) (hr : s.records = .edge e :: rest)
    (he : e = isCommonEdge s.par.ratio s.fast) :
    step s = .next { openEdge s rest with ceg := fastEdge s.par.ratio e s.ceg } := by
  have run : step s = runEdge s e rest := by simp [step, hw, hr]
  rw [run, runEdge, if_pos he, exec_decodeEdge]
  rfl

/-- Settles O13: no operation of a cycle reads or writes the generator, and the edge reads and writes nothing else. -/
theorem agentsAreIndependent : Obligations.AgentsAreIndependent := by
  unfold Obligations.AgentsAreIndependent
  refine ⟨fun s t r rest g n hr h => ?_, fun s e rest f hw hr he => ?_⟩
  · have frame := step_cycle_frame hr h
    exact ⟨frame.ceg, frame.fast, step_withGenerator g n hr h⟩
  · have common : e = isCommonEdge s.par.ratio s.fast := he.trans (beq_eq_decide ..).symm
    exact ⟨_, step_of_edge hw hr common, rfl, rfl, step_of_edge (s := { s with fir := f }) hw hr common⟩

end Sys2Proof.Proofs
end

section
/-! SUPPORT. The offer over a run (spec/44_stream_controller.md R258, R265): a cycle in which the block offers leaves the offer raised,
and the FIR block stays as it is until its next cycle. -/

namespace Sys2Proof.Proofs

open Sys2Proof.Machine Sys2Proof.Safety

/-- A cycle without a fault has a path without one. -/
theorem refTake_of_noFaults {s : State} {r : CycleRecord} (hrst : Word.rst r.w = false)
    (h : refFaults s.par s.fir r = []) : ∃ out sts, refTake s.par s.fir r = .ok (out, sts) := by
  rw [refFaults_of_running (rest := []) hrst] at h
  cases ht : refTake s.par s.fir r with
  | error e => simp [takeFault_of_error ht] at h
  | ok g => exact ⟨g.1, g.2, rfl⟩

/-- A cycle without a fault in which the block offers ends with the offer raised. -/
theorem offered_of_offers {s t : State} {r : CycleRecord} {rest : List Record} (hr : s.records = .cycle r :: rest)
    (hoffers : Offers s r) (h : step s = .next t) (ht : NoFault t) : t.fir.offered = true := by
  obtain ⟨hrst, hoffer, hpend, hoff⟩ := hoffers
  obtain ⟨-, hfir⟩ := step_cycle_next hr h
  obtain ⟨fs, hne, hfs⟩ | ⟨-, hnone, hnext⟩ := refCycle_cases s.par s.fir r s.cycle
  · rw [NoFault, hfir, hfs, withFaults_faults] at ht
    exact absurd (List.append_eq_nil_iff.1 ht).2 hne
  · obtain ⟨out, sts, htake⟩ := refTake_of_noFaults hrst hnone
    rw [hfir, hnext, refNext_of_running hrst htake, (refWrites_sameStream s.par r _).offered]
    simp [refStream, hoff, hoffer, hpend]

section Run
variable {inputs : Nat → Record} {states : Nat → State}

/-- Fast cycles of the generator leave the FIR block as it is. -/
theorem fir_eq_of_edges (h : IsRun inputs states ⊤) {n m : Nat} (hnm : n ≤ m)
    (hedges : ∀ k, n ≤ k → k < m → ∃ e, inputs k = .edge e) : (states m).fir = (states n).fir := by
  induction m, hnm using Nat.le_induction with
  | base => rfl
  | succ m hnm ih =>
    obtain ⟨e, he⟩ := hedges m hnm (Nat.lt_succ_self m)
    rw [← ih fun k hk hkm => hedges k hk (hkm.trans (Nat.lt_succ_self m))]
    obtain ⟨-, ⟨c, hc, -⟩ | ⟨_, _, _, hstep⟩⟩ := stepOn_next (h.steps m (ENat.natCast_lt_top m))
    · rw [he] at hc
      cases hc
    · rw [hstep]
      rfl

/-- In a fair run there is a next cycle of the FIR block, and no other before it. -/
theorem exists_next_cycle (h : Fair inputs states) (n : Nat) :
    ∃ m r, n ≤ m ∧ inputs m = .cycle r ∧ ∀ k, n ≤ k → k < m → ∃ e, inputs k = .edge e := by
  classical
  have later : ∃ m, n ≤ m ∧ ∃ r, inputs m = .cycle r := by
    obtain ⟨m, r, hm, hr, -⟩ := h.cycles n
    exact ⟨m, hm, r, hr⟩
  obtain ⟨hm, r, hr⟩ := Nat.find_spec later
  refine ⟨Nat.find later, r, hm, hr, fun k hk hkm => ?_⟩
  cases hin : inputs k with
  | edge e => exact ⟨e, rfl⟩
  | cycle c => exact absurd ⟨hk, c, hin⟩ (Nat.find_min later hkm)

/-- In a fair run the cycle after one in which the block offers starts with the offer raised. -/
theorem exists_offered_of_offers (h : IsRun inputs states ⊤) (hfair : Fair inputs states) {m : Nat} {r : CycleRecord}
    (hr : inputs m = .cycle r) (hoffers : Offers (states m) r) :
    SomeCycleFrom inputs states (m + 1) fun s _ => s.fir.offered = true := by
  obtain ⟨m', r', hm', hr', hedges⟩ := exists_next_cycle hfair (m + 1)
  have same := fir_eq_of_edges h hm' hedges
  have noFault : NoFault (states (m + 1)) := (congrArg Fir.faults same).symm.trans (h.noFault (ENat.natCast_lt_top m') hr')
  have hstep : step (withRecord (states m) (.cycle r)) = .next (states (m + 1)) := hr ▸ h.steps m (ENat.natCast_lt_top m)
  have offered := offered_of_offers (s := withRecord (states m) (.cycle r)) rfl hoffers hstep noFault
  exact ⟨m', r', hm', hr', (congrArg Fir.offered same).trans offered⟩

end Run

/-- Settles O24: a run that never offers would be one whose fairness makes it offer, and an offer stands at the next cycle. -/
theorem stallHoldsAndOfferRaisesValid : Obligations.StallHoldsAndOfferRaisesValid := by
  unfold Obligations.StallHoldsAndOfferRaisesValid
  refine ⟨fun s => ⟨rfl, fun hpend => ?_, fun hpend => ?_⟩, fun inputs states n hadm hfair hpend => ?_⟩
  · simp [exec, execSrcOffer, State.write, hpend]
  · simp [exec, execSrcOffer, hpend]
  · by_contra hnever
    have unoffered (m : Nat) (r : CycleRecord) (hm : n ≤ m) (hr : inputs m = .cycle r) : (states m).fir.offered = false :=
      Bool.eq_false_iff.2 fun hoff => hnever ⟨m, r, hm, hr, hoff⟩
    obtain ⟨m, r, hm, hr, hoffers⟩ := hfair.offers n fun m r hm hr => ⟨hpend m r hm hr, unoffered m r hm hr⟩
    obtain ⟨m', r', hm', hr', hoff⟩ := exists_offered_of_offers hadm.toIsRun hfair hr hoffers
    exact hnever ⟨m', r', by omega, hr', hoff⟩

end Sys2Proof.Proofs
end

section
/-! SUPPORT. The invariant over one step: the writes of the control plane keep the configuration and the memory in range
(spec/10_state.md R32, R33, R41), a take keeps the stages and the widths along the path (R45, spec/42_fir_arithmetic.md R184), the
stream state keeps its bounds (R42, R46, R47), and an edge keeps what the generator's bits tell (spec/41_common_edge_generator.md R156,
R157). -/

namespace Sys2Proof.Proofs

open Sys2Proof.Machine Sys2Proof.Safety

/-! The configuration and the memory. -/

section Control
variable {p : Params} {f g : Fir} {r : CycleRecord}

theorem controlInv_of_sameControl (h : ControlInv p f) (same : SameControl f g) : ControlInv p g where
  stages := by rw [same.cfg]; exact h.stages
  fields := by rw [same.cfg]; exact h.fields
  canonical := by rw [same.mem]; exact h.canonical
  cells := by rw [same.mem]; exact h.cells

/-- A value within a field's bound keeps the stage's configuration within its widths. -/
theorem write_fits {c : StageCfg} {field : CfgField} {v : Nat} (h : StageCfgFits p c) (hv : CfgFits p field v) :
    StageCfgFits p (c.write field v) := by
  obtain ⟨hdec, hops, htrunc⟩ := h
  cases field
  case dec => exact ⟨fun _ hw => Option.some.inj hw ▸ hv, hops, htrunc⟩
  case opsm1 => exact ⟨hdec, fun _ hw => Option.some.inj hw ▸ hv, htrunc⟩
  case trunc => exact ⟨hdec, hops, fun _ hw => Option.some.inj hw ▸ hv⟩
  case odd | bypass | firEnable => exact ⟨hdec, hops, htrunc⟩

theorem cfgOf_mem {i : Nat} (h : i < f.cfg.length) : cfgOf f i ∈ f.cfg := by
  rw [cfgOf, List.getD_eq_getElem _ _ h]
  exact List.getElem_mem h

/-- A legal configuration write keeps the configuration within its widths. -/
theorem storeCfg_controlInv {field : CfgField} {i v : Nat} (h : ControlInv p f)
    (hi : field = .firEnable ∨ i < p.numStages) (hv : CfgFits p field v) : ControlInv p (storeCfg field i v f) := by
  by_cases hf : field = .firEnable
  · subst hf
    exact ⟨h.stages, h.fields, h.canonical, h.cells⟩
  · rw [storeCfg_stage_field field i v f hf]
    refine ⟨(List.length_set ..).trans h.stages, fun c hc => ?_, h.canonical, h.cells⟩
    rcases List.mem_or_eq_of_mem_set hc with hc | rfl
    · exact h.fields c hc
    · exact write_fits (h.fields _ (cfgOf_mem (h.stages ▸ hi.resolve_left hf))) hv

/-- A coefficient write keeps the memory canonical and its cells in range. -/
theorem coefStore_controlInv (h : ControlInv p f) : ControlInv p (coefStore p r f) where
  stages := h.stages
  fields := h.fields
  canonical := memWrite_wf _ _ h.canonical
  cells c hc := by
    rcases mem_memWrite hc with rfl | hc
    · exact ⟨Nat.mod_lt _ (Nat.two_pow_pos _), sext_isSigned _ _⟩
    · exact h.cells c hc

/-- A configuration write that passes its checks is legal and meets no hazard. -/
theorem legal_of_refCfgFault {takes : Bool} (h : refCfgFault p f takes r = none) :
    ∃ field, fieldOfCode (Word.cfgField r.w) = some field
      ∧ (field = .firEnable ∨ (Word.cfgStage r.w).toNat < p.numStages) ∧ CfgFits p field r.cfgValue
      ∧ (Word.rst r.w = true ∨ refCfgHazard f takes field (Word.cfgStage r.w).toNat = none) := by
  unfold refCfgFault at h
  split at h
  · cases h
  · rename_i field hfield
    refine ⟨field, hfield, ?_⟩
    split at h
    · cases h
    · rename_i hstage
      split at h
      · cases h
      · rename_i hfits
        refine ⟨(not_and_or.1 hstage).imp not_not.1 Nat.not_le.1, not_not.1 hfits, ?_⟩
        split at h
        · exact .inl ‹_›
        · exact .inr h

theorem refCfgFault_of_noFaults (h : refFaults p f r = []) (hwe : Word.cfgWe r.w = true) :
    refCfgFault p f (!Word.rst r.w && refTakes p f r.w) r = none := by
  simp only [refFaults, hwe, if_true, List.append_eq_nil_iff, Option.toList_eq_nil_iff] at h
  exact h.1.1

/-- The writes of a cycle without a fault keep the configuration and the memory in range. -/
theorem refWrites_controlInv (hg : ControlInv p g) (h : refFaults p f r = []) : ControlInv p (refWrites p r g) := by
  have cfg : ControlInv p ((if Word.cfgWe r.w then cfgStore r else id) g) := by
    cases hwe : Word.cfgWe r.w
    · exact hg
    · obtain ⟨field, hfield, hi, hv, -⟩ := legal_of_refCfgFault (refCfgFault_of_noFaults h hwe)
      have stored : cfgStore r g = storeCfg field (Word.cfgStage r.w).toNat r.cfgValue g := by simp [cfgStore, hfield]
      show ControlInv p (cfgStore r g)
      exact stored ▸ storeCfg_controlInv hg hi hv
  rw [refWrites_eq]
  cases Word.coefWe r.w
  · exact cfg
  · exact coefStore_controlInv cfg

/-- A cycle without a fault keeps the configuration and the memory in range. -/
theorem refNext_controlInv (hf : ControlInv p f) (h : refFaults p f r = []) : ControlInv p (refNext p f r) := by
  unfold refNext
  split
  · exact refWrites_controlInv (controlInv_of_sameControl hf ⟨⟨rfl, rfl⟩, rfl⟩) h
  · split
    · exact hf
    · exact refWrites_controlInv (controlInv_of_sameControl hf ⟨⟨rfl, rfl⟩, rfl⟩) h

end Control

/-! The stages and the widths along the path. -/

section Stages
variable {p : Params} {f : Fir} {olast : Bool}

/-- What the invariant says of stage i, under the configuration of f. -/
structure StageInv (p : Params) (f : Fir) (i : Nat) (st : StageSt) : Prop where
  phase : PhaseCounts (cfgOf f i) st
  hist : ∀ v ∈ st.hist, IqFits (p.inWidth i) v

/-- What the invariant says of the S stages, under the configuration of f. -/
structure StagesInv (p : Params) (f : Fir) (sts : List StageSt) : Prop where
  length : sts.length = p.numStages
  stage : ∀ i st, sts[i]? = some st → StageInv p f i st

theorem stOf_of_getElem? {i : Nat} {st : StageSt} (h : f.st[i]? = some st) : stOf f i = st := by
  rw [stOf, List.getD_eq_getElem?_getD, h, Option.getD_some]

theorem stagesInv_of_streamInv (h : StreamInv p f) : StagesInv p f f.st where
  length := h.stages
  stage i st hst := by
    have hi : i < p.numStages := h.stages ▸ (List.getElem?_eq_some_iff.1 hst).1
    exact stOf_of_getElem? hst ▸ ⟨h.phases i hi, h.histories i hi⟩

theorem stageInv_of_stagesInv {i : Nat} (h : StagesInv p f f.st) (hi : i < p.numStages) : StageInv p f i (stOf f i) := by
  have hst := List.getElem?_eq_getElem (h.length.symm ▸ hi)
  exact stOf_of_getElem? hst ▸ h.stage i _ hst

theorem StagesInv.set {sts : List StageSt} {i : Nat} {st : StageSt} (h : StagesInv p f sts) (hst : StageInv p f i st) :
    StagesInv p f (sts.set i st) where
  length := (List.length_set ..).trans h.length
  stage j st' hj := by
    by_cases hij : i = j
    · subst hij
      obtain ⟨hlt, hget⟩ := List.getElem?_eq_some_iff.1 hj
      rw [List.getElem_set_self] at hget
      exact hget ▸ hst
    · rw [List.getElem?_set_ne hij] at hj
      exact h.stage j st' hj

/-- The shape of a stage has its written decimation factor. -/
theorem dec_of_shapeOf {i : Nat} {h : Shape} (hs : shapeOf f i = .ok h) : (cfgOf f i).dec = some h.dec := by
  cases hd : (cfgOf f i).dec with
  | none => simp [shapeOf_of_dec_unwritten hd] at hs
  | some d =>
    cases hu : (cfgOf f i).opsm1 with
    | none => simp [shapeOf_of_opsm1_unwritten hd hu] at hs
    | some u =>
      cases ho : (cfgOf f i).odd with
      | none => simp [shapeOf_of_odd_unwritten hd hu ho] at hs
      | some o =>
        rw [shapeOf_of_written hd hu ho] at hs
        rw [← Except.ok.inj hs]

/-- The checks of R183 pass only for a written decimation factor that is not 0. -/
theorem dec_of_consumeChecks {i : Nat} {h : Shape} (hc : consumeChecks p f i = .ok h) :
    (cfgOf f i).dec = some h.dec ∧ 0 < h.dec := by
  cases hs : shapeOf f i with
  | error e => simp [consumeChecks_of_shape_error hs] at hc
  | ok sh =>
    rcases Nat.eq_zero_or_pos sh.dec with h0 | hpos
    · simp [consumeChecks_of_zero_dec hs h0] at hc
    · rcases Nat.lt_or_ge p.numCells (p.coefBase i + sh.cells) with hr | hr
      · simp [consumeChecks_of_range_exceeds hs hpos hr] at hc
      · rw [consumeChecks_of_range_fits hs hpos hr] at hc
        obtain rfl := Except.ok.inj hc
        exact ⟨dec_of_shapeOf hs, hpos⟩

/-- A stage that consumes counts its inputs modulo D (R184, R185). -/
theorem phaseCounts_consume {c : StageCfg} {st : StageSt} {d phase : Nat} (h : PhaseCounts c st) (hd : c.dec = some d)
    (h0 : 0 < d) (v : Iq) (hp : phase = if st.phase + 1 = d then 0 else st.phase + 1) :
    PhaseCounts c ⟨st.hist ++ [v], phase⟩ := by
  have counts : st.phase = st.hist.length % d := by
    obtain rfl | ⟨d', hd', -, hph⟩ := h
    · exact (Nat.zero_mod d).symm
    · rwa [Option.some.inj (hd'.symm.trans hd)] at hph
  have next : phase = (st.hist ++ [v]).length % d := by
    have lt : st.phase < d := by rw [counts]; exact Nat.mod_lt _ h0
    rw [hp, List.length_append, List.length_singleton, ← Nat.mod_add_mod, ← counts]
    split
    · rename_i heq
      rw [heq, Nat.mod_self]
    · rename_i hne
      exact (Nat.mod_eq_of_lt (by omega)).symm
  exact .inr ⟨d, hd, h0, next⟩

/-- A stage keeps its part of the invariant, and what it passes on fits its output width. -/
theorem refStage_keeps {i : Nat} {v : Sample} {out : Option Sample} {st : StageSt} (hinv : StageInv p f i (stOf f i))
    (hv : SampleFits (p.inWidth i) v) (h : refStage p f olast i v = .ok (out, st)) :
    StageInv p f i st ∧ ∀ y ∈ out, SampleFits (p.outWidth i) y := by
  have joined : ∀ u ∈ (stOf f i).hist ++ [v.iq], IqFits (p.inWidth i) u :=
    List.forall_mem_append.2 ⟨hinv.hist, List.forall_mem_singleton.2 hv⟩
  unfold refStage at h
  split at h
  · cases h
  · split at h
    · cases h
    · rename_i hw
      injection h with h
      injection h with hout hst
      subst hout hst
      refine ⟨hinv, fun y hy => ?_⟩
      obtain rfl := Option.some.inj hy
      exact ⟨hv.1.widen (Nat.not_lt.1 hw), hv.2.widen (Nat.not_lt.1 hw)⟩
  · split at h
    · cases h
    · rename_i sh hc
      obtain ⟨hd, h0⟩ := dec_of_consumeChecks hc
      dsimp only at h
      split at h
      · rename_i hph
        split at h
        · cases h
        · rename_i y hy
          injection h with h
          injection h with hout hst
          subst hout hst
          refine ⟨⟨phaseCounts_consume hinv.phase hd h0 v.iq (if_pos hph).symm, joined⟩, fun z hz => ?_⟩
          obtain rfl := Option.some.inj hz
          exact firOutput_fits hy
      · rename_i hph
        injection h with h
        injection h with hout hst
        subst hout hst
        exact ⟨⟨phaseCounts_consume hinv.phase hd h0 v.iq (if_neg hph).symm, joined⟩, nofun⟩

/-- The width of a sample on the path before stage a, and after the last stage. -/
def boundaryWidth (p : Params) (a : Nat) : Nat := if a < p.numStages then p.inWidth a else p.sourceWidth

/-- Junctions do not narrow, and the last stage's output is the block's. -/
theorem outWidth_le_boundaryWidth (hw : p.WellFormed) {a : Nat} (ha : a < p.numStages) :
    p.outWidth a ≤ boundaryWidth p (a + 1) := by
  unfold boundaryWidth
  split
  · exact outWidth_le_inWidth hw ‹_›
  · have last : p.numStages - 1 = a := by omega
    rw [Params.sourceWidth, last]

/-- The stages from a on keep the invariant, and what leaves the last of them fits the block's output width. -/
theorem refStages_keeps (hw : p.WellFormed) (hinv : StagesInv p f f.st) {k a : Nat} {v : Sample} {sts sts' : List StageSt}
    {out : Option Sample} (hk : a + k = p.numStages) (hv : SampleFits (boundaryWidth p a) v) (hsts : StagesInv p f sts)
    (h : refStages p f olast (List.range' a k) v sts = .ok (out, sts')) :
    StagesInv p f sts' ∧ ∀ y ∈ out, SampleFits p.sourceWidth y := by
  induction k generalizing a v sts with
  | zero =>
    injection h with h
    injection h with hout hst
    subst hout hst
    have last : boundaryWidth p a = p.sourceWidth := if_neg (by omega)
    refine ⟨hsts, fun y hy => ?_⟩
    obtain rfl := Option.some.inj hy
    exact last ▸ hv
  | succ k ih =>
    have ha : a < p.numStages := by omega
    have width : boundaryWidth p a = p.inWidth a := if_pos ha
    rw [List.range'_succ] at h
    simp only [refStages] at h
    split at h
    · cases h
    · rename_i st hst
      injection h with h
      injection h with hout hst'
      subst hout hst'
      exact ⟨hsts.set (refStage_keeps (stageInv_of_stagesInv hinv ha) (width ▸ hv) hst).1, nofun⟩
    · rename_i u st hst
      obtain ⟨hstage, hout⟩ := refStage_keeps (stageInv_of_stagesInv hinv ha) (width ▸ hv) hst
      have hu := hout u rfl
      have widens := outWidth_le_boundaryWidth hw ha
      exact ih (by omega) ⟨hu.1.widen widens, hu.2.widen widens⟩ (hsts.set hstage) h

/-- The path keeps the stages' invariant, and what leaves it fits the block's output width. -/
theorem refPath_keeps (hw : p.WellFormed) (hinv : StagesInv p f f.st) {x : Sample} {out : Option Sample}
    {sts : List StageSt} (hx : SampleFits p.sinkWidth x) (h : refPath p f olast x = .ok (out, sts)) :
    StagesInv p f sts ∧ ∀ y ∈ out, SampleFits p.sourceWidth y := by
  unfold refPath at h
  split at h
  · have first : boundaryWidth p 0 = p.sinkWidth := if_pos (numStages_pos hw)
    rw [List.range_eq_range'] at h
    exact refStages_keeps hw hinv (Nat.zero_add _) (first ▸ hx) hinv h
  · split at h
    · cases h
    · rename_i hn
      injection h with h
      injection h with hout hst
      subst hout hst
      refine ⟨hinv, fun y hy => ?_⟩
      obtain rfl := Option.some.inj hy
      exact ⟨hx.1.widen (Nat.not_lt.1 hn), hx.2.widen (Nat.not_lt.1 hn)⟩

/-- The take of a cycle keeps the stages' invariant, and its output fits the block's output width. -/
theorem refTake_keeps (hw : p.WellFormed) (hs : StreamInv p f) {r : CycleRecord} {out : Option Sample}
    {sts : List StageSt} (h : refTake p f r = .ok (out, sts)) :
    StagesInv p f sts ∧ ∀ y ∈ out, SampleFits p.sourceWidth y := by
  have hinv := stagesInv_of_streamInv hs
  by_cases ht : refTakes p f r.w = true
  · obtain ⟨x, q, hb, -, -, hpath⟩ := refTake_of_takes ht
    exact refPath_keeps hw hinv (hs.inbufFits x (hb ▸ List.mem_cons_self)) (hpath ▸ h)
  · rw [refTake_of_not_takes ht] at h
    injection h with h
    injection h with hout hst
    subst hout hst
    exact ⟨hinv, nofun⟩

end Stages

end Sys2Proof.Proofs
end

section
/-! SUPPORT. The invariant over one step, continued: the stream state of a cycle and the generator's bits. -/

namespace Sys2Proof.Proofs

open Sys2Proof.Machine Sys2Proof.Safety

/-! The stream state. -/

section Stream
variable {p : Params} {f g : Fir} {r : CycleRecord}

theorem withFaults_streamInv (h : StreamInv p f) (fs : List FaultRec) : StreamInv p (withFaults f fs) :=
  ⟨h.stages, h.inbufRoom, h.inbufFits, h.pendingRoom, h.pendingFits, h.offered, h.fresh, h.phases, h.histories⟩

theorem withFaults_controlInv (h : ControlInv p f) (fs : List FaultRec) : ControlInv p (withFaults f fs) :=
  controlInv_of_sameControl h ⟨⟨rfl, rfl⟩, rfl⟩

theorem length_ite_tail_le {α : Type} (c : Bool) (l : List α) : (if c then l.tail else l).length ≤ l.length := by
  cases c <;> simp

theorem mem_of_mem_ite_tail {α : Type} {c : Bool} {l : List α} {x : α} (h : x ∈ if c then l.tail else l) : x ∈ l := by
  cases c
  · exact h
  · exact List.mem_of_mem_tail h

/-- The stream part of a cycle keeps the stream state in bounds, under the configuration it started with. -/
theorem refStream_streamInv (hw : p.WellFormed) (hs : StreamInv p f) {out : Option Sample} {sts : List StageSt}
    (h : refTake p f r = .ok (out, sts)) : StreamInv p (refStream p f r out sts) := by
  obtain ⟨kept, hout⟩ := refTake_keeps hw hs h
  have stages : StagesInv p (refStream p f r out sts) (refStream p f r out sts).st :=
    ⟨kept.length, fun i st hst => ⟨(kept.stage i st hst).phase, (kept.stage i st hst).hist⟩⟩
  have idle (ht : ¬ refTakes p f r.w = true) : out = none ∧ sts = f.st := by
    rw [refTake_of_not_takes ht] at h
    injection h with h
    injection h with hout hst
    exact ⟨hout.symm, hst.symm⟩
  refine ⟨kept.length, ?_, ?_, ?_, ?_, ?_, ?_, fun i hi => (stageInv_of_stagesInv stages hi).phase,
    fun i hi => (stageInv_of_stagesInv stages hi).hist⟩
  · have := length_ite_tail_le (refTakes p f r.w) f.inbuf
    have := hs.inbufRoom
    simp only [refStream]
    split
    · rename_i hready
      simp only [Bool.and_eq_true, decide_eq_true_eq] at hready
      rw [List.length_append, List.length_singleton]
      omega
    · omega
  · intro x hx
    have old {y : Sample} (hy : y ∈ if refTakes p f r.w then f.inbuf.tail else f.inbuf) : SampleFits p.sinkWidth y :=
      hs.inbufFits y (mem_of_mem_ite_tail hy)
    simp only [refStream] at hx
    split at hx
    · rcases List.mem_append.1 hx with hx | hx
      · exact old hx
      · obtain rfl := List.mem_singleton.1 hx
        exact ⟨sext_isSigned _ _, sext_isSigned _ _⟩
    · exact old hx
  · have := length_ite_tail_le (f.offered && Word.srcReady r.w) f.pending
    have := hs.pendingRoom
    simp only [refStream, List.length_append]
    by_cases ht : refTakes p f r.w = true
    · obtain ⟨-, -, -, hroom, -⟩ := refTake_of_takes ht
      have : out.toList.length ≤ 1 := Option.length_toList_le
      omega
    · simp only [(idle ht).1, Option.toList_none, List.length_nil]
      omega
  · intro y hy
    rcases List.mem_append.1 hy with hy | hy
    · exact hs.pendingFits y (mem_of_mem_ite_tail hy)
    · exact hout y (Option.mem_toList.1 hy)
  · intro hoff
    simp only [refStream] at hoff ⊢
    split at hoff
    · rename_i hheld
      simp only [Bool.and_eq_true, Bool.not_eq_true'] at hheld
      obtain ⟨hoffered, hkeep⟩ := hheld
      rw [hkeep]
      simp [hs.offered hoffered]
    · simpa using (Bool.and_eq_true_iff.1 hoff).2
  · intro hfresh
    by_cases ht : refTakes p f r.w = true
    · simp [refStream, ht] at hfresh
    · rw [show (refStream p f r out sts).st = f.st from (idle ht).2]
      exact hs.fresh (by simpa [refStream, ht] using hfresh)

/-- The decimation factor is stored by a write of its own field only. -/
theorem storeCfg_dec {field : CfgField} (hfield : field ≠ .dec) (i v j : Nat) (f : Fir) :
    (cfgOf (storeCfg field i v f) j).dec = (cfgOf f j).dec := by
  by_cases hf : field = .firEnable
  · subst hf
    rfl
  · have kept : ((cfgOf f i).write field v).dec = (cfgOf f i).dec := by
      cases field
      case dec => exact absurd rfl hfield
      all_goals rfl
    rw [storeCfg_stage_field field i v f hf]
    by_cases hij : i = j
    · subst hij
      by_cases hi : i < f.cfg.length
      · simpa [cfgOf, hi] using kept
      · simp [cfgOf, hi]
    · simp [cfgOf, hij]

/-- A running cycle without a fault stores a decimation factor only while the path is fresh and no take happens (R293). -/
theorem refWrites_dec (hrst : Word.rst r.w = false) (h : refFaults p f r = []) :
    (∀ g i, (cfgOf (refWrites p r g) i).dec = (cfgOf g i).dec)
      ∨ (f.fresh = true ∧ ¬ refTakes p f r.w = true) := by
  cases hwe : Word.cfgWe r.w
  · refine .inl fun g i => ?_
    rw [cfgOf, (refWrites_sameConfig_of_noWrite p g hwe).cfg]
    rfl
  · obtain ⟨field, hfield, -, -, hhazard⟩ := legal_of_refCfgFault (refCfgFault_of_noFaults h hwe)
    by_cases hd : field = .dec
    · subst hd
      have noHazard := hhazard.resolve_left (by simp [hrst])
      simp only [refCfgHazard] at noHazard
      split at noHazard
      · rename_i hfresh
        exact .inr (by simpa [hrst] using hfresh)
      · cases noHazard
    · refine .inl fun g i => ?_
      rw [cfgOf, (refWrites_sameConfig_of_field p g hwe hfield).cfg]
      exact storeCfg_dec hd _ _ i g

/-- The writes of a cycle keep the stream state in bounds where they store no decimation factor or the path is fresh. -/
theorem refWrites_streamInv (hg : StreamInv p g)
    (hdec : (∀ i, (cfgOf (refWrites p r g) i).dec = (cfgOf g i).dec) ∨ g.fresh = true) :
    StreamInv p (refWrites p r g) := by
  have same := refWrites_sameStream p r g
  have stages (i : Nat) : stOf (refWrites p r g) i = stOf g i := by rw [stOf, same.st]; rfl
  refine ⟨?_, ?_, ?_, ?_, ?_, ?_, ?_, fun i hi => ?_, fun i hi => ?_⟩
  · rw [same.st]; exact hg.stages
  · rw [same.inbuf]; exact hg.inbufRoom
  · rw [same.inbuf]; exact hg.inbufFits
  · rw [same.pending]; exact hg.pendingRoom
  · rw [same.pending]; exact hg.pendingFits
  · rw [same.offered, same.pending]; exact hg.offered
  · rw [same.fresh, same.st]; exact hg.fresh
  · rw [stages i]
    rcases hdec with hdec | hfresh
    · refine (hg.phases i hi).imp id ?_
      rintro ⟨d, hd, h⟩
      exact ⟨d, (hdec i).trans hd, h⟩
    · have hst := List.getElem?_eq_getElem (hg.stages.symm ▸ hi)
      exact .inl (stOf_of_getElem? hst ▸ hg.fresh hfresh _ (List.mem_of_getElem? hst))
  · rw [stages i]; exact hg.histories i hi

end Stream

/-- A cycle without a fault, of a block that was reset or resets now, keeps the stream state in bounds. -/
theorem refNext_streamInv {s : State} {r : CycleRecord} (hw : s.par.WellFormed)
    (hs : s.fir.unreset = false → StreamInv s.par s.fir) (hrun : Word.rst r.w = true ∨ s.fir.unreset = false)
    (h : refFaults s.par s.fir r = []) : StreamInv s.par (refNext s.par s.fir r) := by
  cases hrst : Word.rst r.w
  · have hinv := hs (hrun.resolve_left (by simp [hrst]))
    obtain ⟨out, sts, htake⟩ := refTake_of_noFaults hrst h
    rw [refNext_of_running hrst htake]
    refine refWrites_streamInv (refStream_streamInv hw hinv htake) ((refWrites_dec hrst h).imp (fun hdec => hdec _) ?_)
    rintro ⟨hfresh, hno⟩
    simp [refStream, hno, hfresh]
  · rw [refNext_of_reset _ _ hrst]
    exact refWrites_streamInv (streamInv_of_cleared rfl rfl rfl rfl) (.inr rfl)

/-! The generator. -/

/-- After an edge the combinational signal tells whether it was a common one: the toggle bit then differs from the value that the
fast register sampled (R154). -/
theorem commonEdgeSignal_fastEdge (n : Nat) (common : Bool) (g : Ceg) :
    commonEdgeSignal (fastEdge n common g) = common := by
  show ((g.t ^^ common) ^^ g.t) = common
  rw [Bool.xor_right_comm, Bool.xor_self, Bool.false_xor]

/-- An edge of the clock ratio keeps what the generator's bits tell of the last fast cycles. -/
theorem generatorInv_fastEdge {s : State} (rest : List Record) (hn : 0 < s.par.ratio) (h : GeneratorInv s) :
    GeneratorInv { openEdge s rest with
      ceg := fastEdge s.par.ratio (isCommonEdge s.par.ratio s.fast) s.ceg } where
  length := length_shiftRegister h.length
  signal _ := commonEdgeSignal_fastEdge ..
  shifted k hk hf := by
    have hk : k < s.par.ratio := hk
    have hf : k + 2 ≤ s.fast + 1 := hf
    show (shiftRegister s.par.ratio s.ceg)[k]? = some (isCommonEdge s.par.ratio (s.fast + 1 - 2 - k))
    cases k with
    | zero =>
      have last : s.fast + 1 - 2 - 0 = s.fast - 1 := by omega
      rw [getElem?_shiftRegister_zero s.ceg hn, h.signal (by omega), last]
    | succ k =>
      have older : s.fast + 1 - 2 - (k + 1) = s.fast - 2 - k := by omega
      rw [getElem?_shiftRegister_pos s.ceg (by omega) hk, Nat.add_sub_cancel, h.shifted k (by omega) (by omega), older]

theorem generatorInv_of_frame {s t : State} {rest : List Record} (h : GeneratorInv s) (frame : CycleFrame s rest t) :
    GeneratorInv t where
  length := by rw [frame.ceg, frame.par]; exact h.length
  signal := by rw [frame.ceg, frame.par, frame.fast]; exact h.signal
  shifted := by rw [frame.ceg, frame.par, frame.fast]; exact h.shifted

end Sys2Proof.Proofs
end

section
/-! PROOFS. The statement about the invariant of the machine (spec/10_state.md, spec/41_common_edge_generator.md). -/

namespace Sys2Proof.Proofs

open Sys2Proof.Machine Sys2Proof.Safety

/-- A cycle of the FIR block keeps the invariant: it loads σ with its faults, or the next state of the reference. -/
theorem inv_of_cycle {s t : State} {r : CycleRecord} {rest : List Record} (hs : Inv s)
    (hr : s.records = .cycle r :: rest) (h : step s = .next t) : Inv t := by
  have frame := step_cycle_frame hr h
  have hfir := (step_cycle_next hr h).2
  have fir : ControlInv s.par t.fir ∧ (t.fir.unreset = false → StreamInv s.par t.fir) := by
    rw [hfir]
    obtain ⟨fs, -, hfs⟩ | ⟨hrun, hnone, hnext⟩ := refCycle_cases s.par s.fir r s.cycle
    · rw [hfs]
      exact ⟨withFaults_controlInv hs.control fs, fun hu => withFaults_streamInv (hs.stream hu) fs⟩
    · rw [hnext]
      exact ⟨refNext_controlInv hs.control hnone, fun _ => refNext_streamInv hs.params hs.stream hrun hnone⟩
  exact ⟨frame.par ▸ hs.params, frame.between, frame.par.symm ▸ fir.1, frame.par.symm ▸ fir.2,
    generatorInv_of_frame hs.generator frame⟩

/-- Settles O11: a cycle keeps the FIR block's part of the invariant and does not touch the generator's; an edge is the other way
round. -/
theorem stepKeepsInvariant : Obligations.StepKeepsInvariant := by
  unfold Obligations.StepKeepsInvariant
  intro s t hs h
  obtain ⟨hw, ⟨r, rest, hr, -⟩ | ⟨e, rest, hr, rfl, rfl⟩⟩ := step_next h
  · exact inv_of_cycle hs hr h
  · exact ⟨hs.params, hs.between, hs.control, hs.stream, generatorInv_fastEdge rest (ratio_pos hw) hs.generator⟩

end Sys2Proof.Proofs
end

section
/-! SUPPORT. FIR_OUTPUT's faults (spec/42_fir_arithmetic.md R186, R333), the accumulators as sums over coefficients (R189, R192), the
rounding of a shift (R193, R199), and the inputs that an output reads (R187, R196). -/

namespace Sys2Proof.Proofs

open Sys2Proof.Machine Sys2Proof.Safety

/-! The faults of FIR_OUTPUT. -/

section Faults
variable {p : Params} {f : Fir} {i t : Nat} {hist : List Iq} {h : Shape}

theorem firOutput_of_trunc_unwritten (hs : shapeOf f i = .ok h) (ht : (cfgOf f i).trunc = none) :
    firOutput p f i hist = .error (.readUnwrittenConfig i .trunc) := by
  simp [firOutput, hs, ht]

theorem firOutput_of_coefs_error {e : FaultKind} (hs : shapeOf f i = .ok h) (ht : (cfgOf f i).trunc = some t)
    (hc : readCoefs f.mem (p.coefBase i) h.cells = .error e) : firOutput p f i hist = .error e := by
  simp [firOutput, hs, ht, hc]

theorem firOutput_of_overflow {coefs : List Int} (hs : shapeOf f i = .ok h) (ht : (cfgOf f i).trunc = some t)
    (hc : readCoefs f.mem (p.coefBase i) h.cells = .ok coefs)
    (ho : accOverflows p.accWidth h t coefs hist (hist.length - 1) = true) :
    firOutput p f i hist = .error (.accOverflow i ((hist.length - 1) / h.dec)) := by
  simp [firOutput, hs, ht, hc, ho]

end Faults

/-- FIR_OUTPUT reads the memory only through the coefficients of its range (R187). -/
theorem firOutput_mem_congr {p : Params} {f : Fir} {i : Nat} {hist : List Iq} {h : Shape} {mem : Memory}
    (hs : shapeOf f i = .ok h)
    (hm : readCoefs mem (p.coefBase i) h.cells = readCoefs f.mem (p.coefBase i) h.cells) :
    firOutput p { f with mem := mem } i hist = firOutput p f i hist := by
  have shape : shapeOf { f with mem := mem } i = .ok h := hs
  have trunc : (cfgOf { f with mem := mem } i).trunc = (cfgOf f i).trunc := rfl
  simp only [firOutput, shape, hs, trunc, hm]

/-! An accumulator as the sum over the coefficients of its rows. -/

/-- The coefficient m = kD + d stands in row k = m / D, so the rows of parity q hold the coefficients with (m / D) % 2 = q. -/
theorem pairSum_eq_sum_cells (h : Shape) (q : Nat) (term : Nat → Int) :
    pairSum h q term = ∑ m ∈ (Finset.range h.cells).filter (fun m => m / h.dec % 2 = q), term m := by
  rw [pairSum_eq_sum, ← Finset.sum_product']
  refine Finset.sum_bij' (fun k _ => k.1 * h.dec + k.2) (fun m _ => (m / h.dec, m % h.dec)) ?_ ?_ ?_ ?_ fun _ _ => rfl
  · rintro ⟨k, e⟩ hke
    simp only [Finset.mem_product, Finset.mem_filter, Finset.mem_range] at hke ⊢
    obtain ⟨⟨hk, hq⟩, he⟩ := hke
    have row : (k * h.dec + e) / h.dec = k := by
      rw [Nat.mul_comm, Nat.mul_add_div (by omega), Nat.div_eq_of_lt he, Nat.add_zero]
    refine ⟨?_, row.symm ▸ hq⟩
    calc k * h.dec + e < (k + 1) * h.dec := by rw [Nat.succ_mul]; omega
      _ ≤ h.cells := Nat.mul_le_mul_right _ hk
  · intro m hm
    simp only [Finset.mem_product, Finset.mem_filter, Finset.mem_range, Shape.cells] at hm ⊢
    have hd : 0 < h.dec := Nat.pos_of_ne_zero fun h0 => by simp [h0] at hm
    exact ⟨⟨Nat.div_lt_of_lt_mul (Nat.mul_comm _ _ ▸ hm.1), hm.2⟩, Nat.mod_lt _ hd⟩
  · rintro ⟨k, e⟩ hke
    simp only [Finset.mem_product, Finset.mem_filter, Finset.mem_range] at hke
    obtain ⟨-, he⟩ := hke
    have hd : 0 < h.dec := by omega
    ext
    · rw [Nat.mul_comm, Nat.mul_add_div hd, Nat.div_eq_of_lt he, Nat.add_zero]
    · rw [Nat.mul_comm, Nat.mul_add_mod, Nat.mod_eq_of_lt he]
  · intro m _
    exact Nat.div_add_mod' m h.dec

/-- A partial sum of an accumulator, without its bias, lies within the magnitudes that the bound adds up (R192). -/
theorem abs_sum_product_le {h : Shape} {coefs : List Int} {hist : List Iq} {lane : Iq → Int} {n q : Nat}
    {terms : Finset Nat} (t : Nat) (hterms : ∀ m ∈ terms, m < h.cells ∧ m / h.dec % 2 = q) :
    |∑ m ∈ terms, product coefs hist lane n m| ≤ accumulatorBound h t coefs hist lane n q - bias t := by
  have sub : terms ⊆ (Finset.range h.cells).filter (fun m => m / h.dec % 2 = q) := fun m hm =>
    Finset.mem_filter.2 ⟨Finset.mem_range.2 (hterms m hm).1, (hterms m hm).2⟩
  calc |∑ m ∈ terms, product coefs hist lane n m|
      ≤ ∑ m ∈ terms, |product coefs hist lane n m| := Finset.abs_sum_le_sum_abs _ _
    _ ≤ ∑ m ∈ (Finset.range h.cells).filter (fun m => m / h.dec % 2 = q), |product coefs hist lane n m| :=
        Finset.sum_le_sum_of_subset_of_nonneg sub fun _ _ _ => abs_nonneg _
    _ = accumulatorBound h t coefs hist lane n q - bias t := by
        rw [accumulatorBound, pairSum_eq_sum_cells, add_sub_cancel_left]
        simp only [Int.natCast_natAbs]

/-! The rounding of a biased shift. -/

/-- With a bias of half the step, the floor of a rational half up is an integer division (R193). -/
theorem floor_half_up (v : Int) {t : Nat} (ht : 1 ≤ t) :
    ⌊(v : ℚ) / 2 ^ t + 1 / 2⌋ = (v + bias t) / 2 ^ t := by
  obtain ⟨t, rfl⟩ := Nat.exists_eq_add_of_le' ht
  have hb : bias (t + 1) = 2 ^ t := by simp [bias]
  have whole : (v : ℚ) / 2 ^ (t + 1) + 1 / 2 = ((v + 2 ^ t : Int) : ℚ) / ((2 ^ (t + 1) : Nat) : ℚ) := by
    push_cast
    field_simp
    ring
  rw [whole, Rat.floor_intCast_div_natCast, hb]
  push_cast
  rfl

/-- A biased shift rounds half up. -/
theorem asr_biased_eq_floor (v : Int) {t : Nat} (ht : 1 ≤ t) : asr (v + bias t) t = ⌊(v : ℚ) / 2 ^ t + 1 / 2⌋ := by
  rw [asr_eq_ediv, floor_half_up v ht]

/-- Twice the bias is the step of the shift. -/
theorem two_mul_bias {t : Nat} (ht : 1 ≤ t) : 2 * bias t = 2 ^ t := by
  obtain ⟨t, rfl⟩ := Nat.exists_eq_add_of_le' ht
  simp [bias, pow_succ']

/-- Two numbers rounded half up, for the step 2b, and their sum rounded half up once. -/
theorem halfUp_add_sub_mem (a0 a1 : Int) {b : Int} (hb : 0 < b) :
    (a0 + b) / (2 * b) + (a1 + b) / (2 * b) - (a0 + a1 + b) / (2 * b) ∈ ({-1, 0, 1} : Set Int) := by
  have hM : 0 < 2 * b := by omega
  have h0 := Int.mul_ediv_add_emod (a0 + b) (2 * b)
  have h1 := Int.mul_ediv_add_emod (a1 + b) (2 * b)
  have h2 := Int.mul_ediv_add_emod (a0 + a1 + b) (2 * b)
  have l0 := Int.emod_nonneg (a0 + b) hM.ne'
  have l1 := Int.emod_nonneg (a1 + b) hM.ne'
  have l2 := Int.emod_nonneg (a0 + a1 + b) hM.ne'
  have u0 := Int.emod_lt_of_pos (a0 + b) hM
  have u1 := Int.emod_lt_of_pos (a1 + b) hM
  have u2 := Int.emod_lt_of_pos (a0 + a1 + b) hM
  set d := (a0 + b) / (2 * b) + (a1 + b) / (2 * b) - (a0 + a1 + b) / (2 * b) with hd
  have total : 2 * b * d = b + (a0 + a1 + b) % (2 * b) - (a0 + b) % (2 * b) - (a1 + b) % (2 * b) := by
    rw [hd]
    linear_combination h0 + h1 - h2
  have upper : d < 2 := by
    by_contra hge
    have : 2 * b * 2 ≤ 2 * b * d := Int.mul_le_mul_of_nonneg_left (by omega) hM.le
    omega
  have lower : -2 < d := by
    by_contra hle
    have : 2 * b * d ≤ 2 * b * (-2) := Int.mul_le_mul_of_nonneg_left (by omega) hM.le
    omega
  simp only [Set.mem_insert_iff, Set.mem_singleton_iff]
  omega

/-! The inputs that an output reads. -/

section Inputs
variable {h : Shape} {coefs : List Int} {hist hist' : List Iq} {n n' : Nat}

/-- Two outputs whose windows hold the same inputs have the same products. -/
theorem product_congr_window (hwin : ∀ m < h.cells, inputAt hist' ((n' : Int) - m) = inputAt hist ((n : Int) - m))
    (lane : Iq → Int) {m : Nat} (hm : m < h.cells) : product coefs hist' lane n' m = product coefs hist lane n m := by
  rw [product, product, hwin m hm]

theorem accumulator_congr_window (hwin : ∀ m < h.cells, inputAt hist' ((n' : Int) - m) = inputAt hist ((n : Int) - m))
    (t : Nat) (lane : Iq → Int) (q : Nat) :
    accumulator h t coefs hist' lane n' q = accumulator h t coefs hist lane n q :=
  congrArg (bias t + ·) (pairSum_congr (fun _ hm => product_congr_window hwin lane hm) q)

theorem accumulatorBound_congr_window
    (hwin : ∀ m < h.cells, inputAt hist' ((n' : Int) - m) = inputAt hist ((n : Int) - m)) (t : Nat) (lane : Iq → Int)
    (q : Nat) : accumulatorBound h t coefs hist' lane n' q = accumulatorBound h t coefs hist lane n q :=
  congrArg (bias t + ·) (pairSum_congr (fun _ hm => by rw [product_congr_window hwin lane hm]) q)

/-- Two outputs whose windows hold the same inputs agree: FIR_OUTPUT reads its window only. -/
theorem firOutput_congr_window {p : Params} {f : Fir} {i : Nat} {y : Iq} (hs : shapeOf f i = .ok h)
    (hwin : ∀ m < h.cells,
      inputAt hist' (((hist'.length - 1 : Nat) : Int) - m) = inputAt hist (((hist.length - 1 : Nat) : Int) - m)) :
    firOutput p f i hist' = .ok y ↔ firOutput p f i hist = .ok y := by
  have lanes (w t : Nat) (coefs : List Int) (lane : Iq → Int) :
      firLane w h t coefs hist' lane (hist'.length - 1) = firLane w h t coefs hist lane (hist.length - 1) := by
    rw [firLane, firLane, accumulator_congr_window hwin, accumulator_congr_window hwin]
  have overflow (t : Nat) (coefs : List Int) : accOverflows p.accWidth h t coefs hist' (hist'.length - 1)
      = accOverflows p.accWidth h t coefs hist (hist.length - 1) := by
    simp only [accOverflows, accumulatorBound_congr_window hwin]
  have shape (h' : Shape) : shapeOf f i = .ok h' ↔ h' = h := by rw [hs, Except.ok.injEq, eq_comm]
  simp only [firOutput_eq_ok_iff, shape, exists_and_left, exists_eq_left, overflow, lanes]

/-- Inputs before a history shift its indices. -/
theorem inputAt_append_right (older hist : List Iq) {m : Int} (hm : 0 ≤ m) :
    inputAt (older ++ hist) (older.length + m) = inputAt hist m := by
  obtain ⟨k, rfl⟩ := Int.eq_ofNat_of_zero_le hm
  have shifted : (older.length : Int) + (k : Int) = ((older.length + k : Nat) : Int) := by push_cast; rfl
  rw [shifted, inputAt_nat, inputAt_nat, List.getD_append_right _ _ _ _ (Nat.le_add_right _ _), Nat.add_sub_cancel_left]

/-- Zeros before a history read as the zeros that stand there anyway (R45, R196). -/
theorem inputAt_replicate_append (k : Nat) (hist : List Iq) (m : Int) :
    inputAt (List.replicate k ⟨0, 0⟩ ++ hist) (k + m) = inputAt hist m := by
  by_cases hm : 0 ≤ m
  · have shifted := inputAt_append_right (List.replicate k ⟨0, 0⟩) hist hm
    rwa [List.length_replicate] at shifted
  · rw [inputAt_neg hist (by omega)]
    by_cases hk : (k : Int) + m < 0
    · exact inputAt_neg _ hk
    · obtain ⟨j, hj⟩ := Int.eq_ofNat_of_zero_le (not_lt.1 hk)
      have hjk : j < k := by omega
      rw [hj, inputAt_nat, List.getD_append _ _ _ _ (by simpa using hjk), List.getD_replicate _ hjk]

end Inputs

end Sys2Proof.Proofs
end

section
/-! PROOFS. The statements about the FIR stage's faults, its accumulators, its rounding and its window
(spec/42_fir_arithmetic.md). -/

namespace Sys2Proof.Proofs

open Sys2Proof.Machine Sys2Proof.Safety

/-- Settles O39: each fault is the one of firOutput at its place in the order, which ends the take. -/
theorem firOutputFaultsInOrder : Obligations.FirOutputFaultsInOrder := by
  unfold Obligations.FirOutputFaultsInOrder
  intro i olast s h hs
  have fault {e : FaultKind} (he : firOutput s.par s.fir i (stOf s.nxt i).hist = .error e) :
      exec (.firOutput i olast) s = .next { s with raised := s.raised ++ [⟨e, s.cycle⟩], path := [] } :=
    congrArg Host.Outcome.next (computeOutput_of_error he)
  refine ⟨fun ht => ?_, fun t ht => ⟨fun m hm hnone hwritten => ?_, fun coefs hc ho => ?_⟩⟩
  · exact fault (firOutput_of_trunc_unwritten hs ht)
  · exact fault (firOutput_of_coefs_error hs ht (readCoefs_unwritten hm hnone hwritten))
  · exact fault (firOutput_of_overflow hs ht hc ho)

/-- Settles O40: a partial sum stays within the magnitudes that the bound adds up, and the bias does not reach below them. -/
theorem accumulatorCheckBoundsPartialSums : Obligations.AccumulatorCheckBoundsPartialSums := by
  unfold Obligations.AccumulatorCheckBoundsPartialSums
  intro a t n q h coefs hist lane terms _ hlane hq hover hterms
  have bound := accOverflows_eq_false_iff.1 hover a rfl lane hlane q hq
  obtain ⟨lower, upper⟩ := abs_le.1 (abs_sum_product_le (coefs := coefs) (hist := hist) (lane := lane) (n := n) t hterms)
  have := bias_nonneg t
  have cast : (((2 ^ (a - 1) : Nat) : Int)) = 2 ^ (a - 1) := by push_cast; rfl
  refine ⟨?_, ?_⟩ <;> rw [cast] <;> omega

/-- Settles O41: the bias is half the step of the shift, so the biased floor division is the floor half up. -/
theorem biasedShiftRoundsHalfUp : Obligations.BiasedShiftRoundsHalfUp := by
  unfold Obligations.BiasedShiftRoundsHalfUp
  exact fun v t ht => asr_biased_eq_floor v ht

/-- Settles O43: two remainders of the step exceed one by less than two steps; without a shift nothing is rounded. -/
theorem pairRoundingWithinOne : Obligations.PairRoundingWithinOne := by
  unfold Obligations.PairRoundingWithinOne
  refine ⟨fun a0 a1 t => ?_, fun a0 a1 => by simp, by decide, by norm_num⟩
  rcases Nat.eq_zero_or_pos t with rfl | ht
  · have whole : ⌊((a0 + a1 : Int) : ℚ) / 2 ^ 0 + 1 / 2⌋ = a0 + a1 := by
      rw [pow_zero, div_one, Int.floor_intCast_add]
      norm_num
    simp only [asr_zero, bias_zero, add_zero, whole, sub_self]
    simp
  · have hb : 0 < bias t := by
      have := two_mul_bias ht
      have : (0 : Int) < 2 ^ t := by positivity
      omega
    rw [asr_eq_ediv, asr_eq_ediv, floor_half_up _ ht, ← two_mul_bias ht]
    exact halfUp_add_sub_mem a0 a1 hb

/-- Settles O44: the coefficients are read from the range only. -/
theorem cellsOutsideRangeNeverMatter : Obligations.CellsOutsideRangeNeverMatter := by
  unfold Obligations.CellsOutsideRangeNeverMatter
  exact fun p f i hist h mem hs hm => firOutput_mem_congr hs (readCoefs_congr hm)

/-- Settles O47: the window of output j begins KD - 1 inputs before its last, and an input keeps its value where zeros or older
inputs stand before it. -/
theorem warmUpOutputsReadZeroPrefix : Obligations.WarmUpOutputsReadZeroPrefix := by
  unfold Obligations.WarmUpOutputsReadZeroPrefix
  intro p f i h hist y hs hd hne
  have hlen : 0 < hist.length := List.length_pos_of_ne_nil hne
  have last (older : List Iq) (m : Nat) : (((older ++ hist).length - 1 : Nat) : Int) - m
      = older.length + (((hist.length - 1 : Nat) : Int) - m) := by
    rw [List.length_append]
    omega
  refine ⟨fun j hj => ?_, fun k => firOutput_congr_window hs fun m _ => ?_,
    fun hwin older => firOutput_congr_window hs fun m hm => ?_⟩
  · have before : (∃ m, m < h.rows * h.dec ∧ ((hist.length - 1 : Nat) : Int) - (m : Int) < 0)
        ↔ hist.length < h.rows * h.dec :=
      ⟨fun ⟨m, hm, hneg⟩ => by omega, fun hlt => ⟨hist.length, hlt, by omega⟩⟩
    rw [before, hj, Nat.mul_lt_mul_right hd]
    omega
  · have := last (List.replicate k ⟨0, 0⟩) m
    rw [List.length_replicate] at this
    rw [this, inputAt_replicate_append]
  · have hm : m < h.rows * h.dec := hm
    rw [last, inputAt_append_right older hist (by omega)]

end Sys2Proof.Proofs
end

section
/-! SUPPORT. Runs of the CommonEdgeGenerator under a well-formed clock pair (spec/41_common_edge_generator.md R151 to R157): the bits
after k fast cycles, the run that reaches them, and what the oldest bit shows. -/

namespace Sys2Proof.Proofs

open Sys2Proof.Machine Sys2Proof.Safety

/-- The generator's bits after the edges of the fast cycles 0 to k - 1 of a well-formed clock pair, from the bits g. -/
def afterEdges (n : Nat) (g : Ceg) : Nat → Ceg
  | 0 => g
  | k + 1 => fastEdge n (isCommonEdge n k) (afterEdges n g k)

/-- After fast cycle k the combinational signal tells whether its edge was a common one (R156). -/
theorem commonEdgeSignal_afterEdges (n : Nat) (g : Ceg) (k : Nat) :
    commonEdgeSignal (afterEdges n g (k + 1)) = isCommonEdge n k := commonEdgeSignal_fastEdge ..

section Bits
variable {n : Nat} {g : Ceg}

/-- A bit of the shift register that has entered holds the combinational signal of its fast cycle. -/
theorem sr_afterEdges_entered {j : Nat} (hj : j < n) (k : Nat) :
    (afterEdges n g (k + j + 1)).sr[j]? = some (commonEdgeSignal (afterEdges n g k)) := by
  induction j with
  | zero => exact getElem?_shiftRegister_zero _ hj
  | succ j ih =>
    refine (getElem?_shiftRegister_pos _ (Nat.succ_pos j) hj).trans ?_
    exact ih (Nat.lt_of_succ_lt hj)

/-- A bit of the shift register that stood there at power-on has moved on by one place a fast cycle. -/
theorem sr_afterEdges_powerOn {j k : Nat} (hj : j + k < n) : (afterEdges n g k).sr[j + k]? = g.sr[j]? := by
  induction k with
  | zero => rfl
  | succ k ih => exact (getElem?_shiftRegister_pos _ (by omega) hj).trans (ih (by omega))

/-- The output is the oldest bit of the shift register (R155). -/
theorem generatorOutput_of_sr {b : Bool} (h : g.sr[n - 1]? = some b) : generatorOutput n g = b := by
  rw [generatorOutput, List.getD_eq_getElem?_getD, h, Option.getD_some]

/-- From fast cycle N on the output shows the common edges (R157). -/
theorem generatorOutput_afterEdges (hn : 0 < n) {f : Nat} (hf : n ≤ f) :
    generatorOutput n (afterEdges n g (f + 1)) = isCommonEdge n f := by
  obtain ⟨k, rfl⟩ := Nat.exists_eq_add_of_le' hf
  have entered := sr_afterEdges_entered (g := g) (Nat.sub_lt hn Nat.one_pos) (k + 1)
  have cycles : k + 1 + (n - 1) + 1 = k + n + 1 := by omega
  rw [cycles, commonEdgeSignal_afterEdges] at entered
  rw [generatorOutput_of_sr entered]
  simp [isCommonEdge]

/-- In fast cycle N - 1 the output shows the combinational signal of power-on. -/
theorem generatorOutput_afterEdges_last {f : Nat} (hf : f + 1 = n) :
    generatorOutput n (afterEdges n g (f + 1)) = commonEdgeSignal g := by
  subst hf
  have entered := sr_afterEdges_entered (n := f + 1) (g := g) (Nat.lt_succ_self f) 0
  rw [Nat.zero_add] at entered
  exact generatorOutput_of_sr entered

/-- Before fast cycle N - 1 the output shows the power-on bits of the shift register. -/
theorem generatorOutput_afterEdges_powerOn (hlen : g.sr.length = n) {f : Nat} (hf : f + 2 ≤ n) :
    some (generatorOutput n (afterEdges n g (f + 1))) = g.sr[n - 2 - f]? := by
  have moved := sr_afterEdges_powerOn (n := n) (g := g) (j := n - 2 - f) (k := f + 1) (by omega)
  have oldest : n - 2 - f + (f + 1) = n - 1 := by omega
  have bit := List.getElem?_eq_getElem (l := g.sr) (i := n - 2 - f) (by omega)
  rw [oldest, bit] at moved
  rw [generatorOutput_of_sr moved, bit]

end Bits

/-! The run. -/

/-- The machine s with the generator records of the fast cycles from j on, k of them, still to run, and the bits that the cycles
before j leave. -/
def drivenFrom (s : State) (j k : Nat) : State :=
  { s with
    records := (List.range' j k).map fun f => .edge (isCommonEdge s.par.ratio f)
    fast := j
    ceg := afterEdges s.par.ratio s.ceg j }

theorem drivenFrom_zero (s : State) (k : Nat) :
    drivenFrom s 0 k = { s with records := clockRecords s.par.ratio k, fast := 0 } := by
  rw [clockRecords, List.range_eq_range']
  rfl

/-- One fast cycle of a well-formed clock pair. -/
theorem step_drivenFrom {s : State} (hw : s.par.WellFormed) (j k : Nat) :
    step (drivenFrom s j (k + 1)) = .next (drivenFrom s (j + 1) k) :=
  (step_of_edge (s := drivenFrom s j (k + 1)) hw rfl rfl).trans rfl

theorem run_succ {M : Host.Core} {s t : M.State} (k : Nat) (h : M.step s = .next t) : M.run (k + 1) s = M.run k t := by
  simp [Host.Core.run, h]

/-- k fast cycles of a well-formed clock pair. -/
theorem run_drivenFrom {s : State} (hw : s.par.WellFormed) (j k : Nat) :
    core.run k (drivenFrom s j k) = .next (drivenFrom s (j + k) 0) := by
  induction k generalizing j with
  | zero => rfl
  | succ k ih =>
    have last : j + 1 + k = j + (k + 1) := by omega
    exact (run_succ k (step_drivenFrom hw j k)).trans (last ▸ ih (j + 1))

/-- The run of the first k fast cycles of a well-formed clock pair. -/
theorem run_clockRecords {s : State} (hw : s.par.WellFormed) (k : Nat) :
    core.run k { s with records := clockRecords s.par.ratio k, fast := 0 } = .next (drivenFrom s k 0) := by
  rw [← drivenFrom_zero, run_drivenFrom hw, Nat.zero_add]

/-- From fast cycle N on, a run of a well-formed clock pair ends with a pulse exactly where N divides the cycle's number. -/
theorem generatorOutput_run {s t : State} {f : Nat} (hw : s.par.WellFormed) (hf : s.par.ratio ≤ f)
    (h : core.run (f + 1) { s with records := clockRecords s.par.ratio (f + 1), fast := 0 } = .next t) :
    generatorOutput s.par.ratio t.ceg = decide (f % s.par.ratio = 0) := by
  obtain rfl := Host.Outcome.next.inj ((run_clockRecords hw _).symm.trans h)
  exact (generatorOutput_afterEdges (ratio_pos hw) hf).trans (beq_eq_decide ..)

/-- Of n numbers in a row exactly one is a multiple of n. -/
theorem existsUnique_multiple {n : Nat} (hn : 0 < n) (f : Nat) : ∃! k, k < n ∧ (f + k) % n = 0 := by
  have lt := Nat.mod_lt f hn
  have reduced (k : Nat) : (f + k) % n = (f % n + k) % n := (Nat.mod_add_mod f n k).symm
  rcases Nat.eq_zero_or_pos (f % n) with h0 | hpos
  · refine ⟨0, ⟨hn, h0⟩, fun k ⟨hk, hkn⟩ => ?_⟩
    rwa [reduced, h0, Nat.zero_add, Nat.mod_eq_of_lt hk] at hkn
  · refine ⟨n - f % n, ⟨by omega, ?_⟩, fun k ⟨hk, hkn⟩ => ?_⟩
    · rw [reduced, Nat.add_sub_cancel' lt.le, Nat.mod_self]
    · rw [reduced] at hkn
      obtain ⟨c, hc⟩ := Nat.dvd_of_mod_eq_zero hkn
      have one : c = 1 := by
        have lower : c ≠ 0 := fun h => by simp [h] at hc; omega
        have upper : c < 2 := Nat.lt_of_mul_lt_mul_left (a := n) (by omega)
        omega
      rw [one, Nat.mul_one] at hc
      omega

end Sys2Proof.Proofs
end

section
/-! PROOFS. The statements about the CommonEdgeGenerator over a run (spec/41_common_edge_generator.md). -/

namespace Sys2Proof.Proofs

open Sys2Proof.Machine Sys2Proof.Safety

/-- Settles O59: a bit enters the shift register in the fast cycle after its edge and reaches the output N - 1 cycles later; what is
there before it comes from power-on. -/
theorem generatorPulsesEveryNCycles : Obligations.GeneratorPulsesEveryNCycles := by
  unfold Obligations.GeneratorPulsesEveryNCycles
  intro s f hw hlen
  refine ⟨_, run_clockRecords hw (f + 1), ?_, fun hf => generatorOutput_run hw hf (run_clockRecords hw (f + 1)),
    fun hf => generatorOutput_afterEdges_powerOn hlen hf, fun hf => generatorOutput_afterEdges_last hf⟩
  exact (commonEdgeSignal_afterEdges ..).trans (beq_eq_decide ..)

/-- Settles O60: the pulses stand at the multiples of N, of which N cycles in a row hold one. -/
theorem onePulseInNCycles : Obligations.OnePulseInNCycles := by
  unfold Obligations.OnePulseInNCycles
  intro s f hw _ hf
  have output {k : Nat} {t : State}
      (h : core.run (f + k + 1) { s with records := clockRecords s.par.ratio (f + k + 1), fast := 0 } = .next t) :=
    generatorOutput_run hw (hf.trans (Nat.le_add_right f k)) h
  refine ⟨?_, fun k t h hpulse => by simpa [output h] using hpulse⟩
  have pulse (k : Nat) : (∃ t,
      core.run (f + k + 1) { s with records := clockRecords s.par.ratio (f + k + 1), fast := 0 } = .next t
        ∧ generatorOutput s.par.ratio t.ceg = true) ↔ (f + k) % s.par.ratio = 0 := by
    constructor
    · rintro ⟨t, h, hpulse⟩
      simpa [output h] using hpulse
    · intro hk
      have h := run_clockRecords hw (f + k + 1)
      exact ⟨_, h, (output h).trans (decide_eq_true hk)⟩
  simp only [pulse]
  exact existsUnique_multiple (ratio_pos hw) f

end Sys2Proof.Proofs
end
